-- ==== Sys2Proof/Word.lean ====
section
/-! DEFINITION. The widths the spec gives its values (spec/00_scope.md R5, R6, R7): bytes, 16-bit words,
4-bit register fields and 12-bit address fields. All are unsigned; `+` and `-` wrap. -/

namespace Sys2Proof

/-- An 8-bit value: a V register, a timer, a byte of memory (R5: VWIDTH, TWIDTH). -/
abbrev Byte := BitVec 8

/-- A 16-bit value: `I`, `pc`, `sp`, an instruction word (R5: IWIDTH, PCWIDTH, AWIDTH). -/
abbrev Word := BitVec 16

/-- A 4-bit field: a register number 0..15, a key number 0..15, or the row count of `Dxyn` (R92). -/
abbrev Nibble := BitVec 4

/-- A 12-bit address field `nnn` (R92). -/
abbrev Addr := BitVec 12

end Sys2Proof
end

