-- ==== Sys2Proof/Config.lean ====
section
/-! DEFINITION. The implementation parameters of spec/00_scope.md R5 and the one free value of the spec,
the random source of spec/60_exceptions.md R310. -/

namespace Sys2Proof.Config

/-- `STACK_DEPTH`: the most return addresses the stack holds (R5, D7). -/
def stackDepth : Nat := 16

/-- `SP_BASE`: the stack pointer of an empty stack (R5, D7). -/
def spBase : Word := 0x0EFE

/-- `PC_BASE`: pc after reset and the start of the Program region (R5). -/
def pcBase : Word := 0x0200

/-- `FONT_BASE`: the start of the Charset region (R5, D15). -/
def fontBase : Word := 0x0050

/-- `SCREEN_BASE`: the start of the Screen region (R5, D4). -/
def screenBase : Nat := 0x0F00

/-- `PROGRAM_END`: the exclusive end of the Program region (R5, D4). -/
def programEnd : Nat := 0x0EE0

/-- `MEM_INIT_LEN`: the length of backing storage after boot (R5, D4). -/
def memInitLen : Nat := 0x1000

/-- `LORES_W` (R5, D6). -/
def loresW : Nat := 64

/-- `LORES_H` (R5, D6). -/
def loresH : Nat := 32

/-- `HIRES_W` (R5, D6). -/
def hiresW : Nat := 128

/-- `HIRES_H` (R5, D6). -/
def hiresH : Nat := 64

/-- `HIRES_OPCODES`: whether 00FE and 00FF decode as instructions. An OPEN parameter whose default is true
(R5, R102, D1): the decoder and `tick` take it as an argument, and only `step` and `decodeTableWord` fix it
to this default (log entry 1). -/
def hiresOpcodes : Bool := true

/-- The random source `rng` (R5, R194, R310): the byte that the `n`-th draw gives. No body: a free value, under
no law linking successive draws (D33; log entry 2). -/
opaque rngByte : Nat → Byte

end Sys2Proof.Config
end

