-- ==== Sys2Proof/Syntax.lean ====
section
/-! DEFINITION. The instructions: one constructor per row of spec/opcode_table.json (spec/30_encoding.md R107),
with the operand fields of R92 and R93. -/

namespace Sys2Proof

/-- An instruction with its operand fields. `x` and `y` are register numbers, `kk` an immediate byte, `n` an
immediate nibble, `nnn` a 12-bit address (R92, R93). -/
inductive Instr where
  /-- 00E0 `CLS` (R232). -/
  | cls
  /-- 00EE `RET` (R153). -/
  | ret
  /-- 00FE `LOW`, an instruction only when HIRES_OPCODES (R236, R95). -/
  | low
  /-- 00FF `HIGH`, an instruction only when HIRES_OPCODES (R237, R95). -/
  | high
  /-- 1nnn `JP nnn` (R154). -/
  | jp (nnn : Addr)
  /-- 2nnn `CALL nnn` (R155). -/
  | call (nnn : Addr)
  /-- 3xkk `SE Vx, kk` (R157). -/
  | seImm (x : Nibble) (kk : Byte)
  /-- 4xkk `SNE Vx, kk` (R158). -/
  | sneImm (x : Nibble) (kk : Byte)
  /-- 5xy0 `SE Vx, Vy` (R159). -/
  | seReg (x y : Nibble)
  /-- 6xkk `LD Vx, kk` (R182). -/
  | ldImm (x : Nibble) (kk : Byte)
  /-- 7xkk `ADD Vx, kk` (R183). -/
  | addImm (x : Nibble) (kk : Byte)
  /-- 8xy0 `LD Vx, Vy` (R184). -/
  | ldReg (x y : Nibble)
  /-- 8xy1 `OR Vx, Vy` (R186). -/
  | orReg (x y : Nibble)
  /-- 8xy2 `AND Vx, Vy` (R187). -/
  | andReg (x y : Nibble)
  /-- 8xy3 `XOR Vx, Vy` (R188). -/
  | xorReg (x y : Nibble)
  /-- 8xy4 `ADD Vx, Vy` (R189). -/
  | addReg (x y : Nibble)
  /-- 8xy5 `SUB Vx, Vy` (R190). -/
  | sub (x y : Nibble)
  /-- 8xy6 `SHR Vx, Vy` (R191). -/
  | shr (x y : Nibble)
  /-- 8xy7 `SUBN Vx, Vy` (R192). -/
  | subn (x y : Nibble)
  /-- 8xyE `SHL Vx, Vy` (R193). -/
  | shl (x y : Nibble)
  /-- 9xy0 `SNE Vx, Vy` (R160). -/
  | sneReg (x y : Nibble)
  /-- Annn `LD I, nnn` (R210). -/
  | ldI (nnn : Addr)
  /-- Bnnn `JP V0, nnn` (R161). -/
  | jpV0 (nnn : Addr)
  /-- Cxkk `RND Vx, kk` (R194). -/
  | rnd (x : Nibble) (kk : Byte)
  /-- Dxyn `DRW Vx, Vy, n` (R233). -/
  | drw (x y n : Nibble)
  /-- Ex9E `SKP Vx` (R261). -/
  | skp (x : Nibble)
  /-- ExA1 `SKNP Vx` (R262). -/
  | sknp (x : Nibble)
  /-- Fx07 `LD Vx, DT` (R263). -/
  | ldVxDt (x : Nibble)
  /-- Fx0A `LD Vx, K` (R264). -/
  | ldVxK (x : Nibble)
  /-- Fx15 `LD DT, Vx` (R265). -/
  | ldDtVx (x : Nibble)
  /-- Fx18 `LD ST, Vx` (R266). -/
  | ldStVx (x : Nibble)
  /-- Fx1E `ADD I, Vx` (R211). -/
  | addI (x : Nibble)
  /-- Fx29 `LD F, Vx` (R212). -/
  | ldF (x : Nibble)
  /-- Fx33 `LD B, Vx` (R213). -/
  | ldB (x : Nibble)
  /-- Fx55 `LD [I], Vx` (R214). -/
  | ldMemI (x : Nibble)
  /-- Fx65 `LD Vx, [I]` (R215). -/
  | ldRegI (x : Nibble)
  deriving DecidableEq, Repr

end Sys2Proof
end

