-- ==== Sys2Proof/WellFormed.lean ====
section
/-! DEFINITION. Which instructions exist under a value of HIRES_OPCODES. Every field bound (a register number in
0..15, an address in 0..0xFFF) is in the fields' types (spec/10_state.md R23); the one check left is that `LOW`
and `HIGH` are instructions only when HIRES_OPCODES (spec/30_encoding.md R95, R102). -/

namespace Sys2Proof

/-- Is `i` an instruction of the hardware whose HIRES_OPCODES is `hires`? (R95, R102) -/
def Instr.wellFormed (hires : Bool) (i : Instr) : Bool :=
  match i with
  | .cls => true
  | .ret => true
  | .low => hires
  | .high => hires
  | .jp _ => true
  | .call _ => true
  | .seImm _ _ => true
  | .sneImm _ _ => true
  | .seReg _ _ => true
  | .ldImm _ _ => true
  | .addImm _ _ => true
  | .ldReg _ _ => true
  | .orReg _ _ => true
  | .andReg _ _ => true
  | .xorReg _ _ => true
  | .addReg _ _ => true
  | .sub _ _ => true
  | .shr _ _ => true
  | .subn _ _ => true
  | .shl _ _ => true
  | .sneReg _ _ => true
  | .ldI _ => true
  | .jpV0 _ => true
  | .rnd _ _ => true
  | .drw _ _ _ => true
  | .skp _ => true
  | .sknp _ => true
  | .ldVxDt _ => true
  | .ldVxK _ => true
  | .ldDtVx _ => true
  | .ldStVx _ => true
  | .addI _ => true
  | .ldF _ => true
  | .ldB _ => true
  | .ldMemI _ => true
  | .ldRegI _ => true

end Sys2Proof
end

