-- ==== Sys2Proof/Decode.lean ====
section
/-! DEFINITION. The decoder (spec/30_encoding.md R90-R103), total on words and on bytes, and the encoder written
from the same tables. Decoding reads no state; HIRES_OPCODES is its only parameter (R101, R102). -/

namespace Sys2Proof

/-- What a word decodes to (R94, R100): an instruction, or the "unimplemented" variant carrying the raw word. -/
inductive Decoded where
  /-- The word is an instruction of R107. -/
  | instr (i : Instr)
  /-- The word is in the unimplemented space; executing it is a fault (R281). -/
  | unimplemented (word : Word)
  deriving DecidableEq, Repr

/-- What the front of a byte sequence decodes to. -/
inductive DecodedBytes where
  /-- Two bytes made a word, which decoded to `d`; `rest` is what follows. -/
  | word (d : Decoded) (rest : List Byte)
  /-- Fewer than the two bytes of an instruction (R90). -/
  | truncated
  deriving DecidableEq, Repr

/-! ## Fields (R92) -/

/-- `op`, word[15:12]. -/
def fieldOp (w : Word) : Nibble := w.extractLsb' 12 4

/-- `x`, word[11:8]. -/
def fieldX (w : Word) : Nibble := w.extractLsb' 8 4

/-- `y`, word[7:4]. -/
def fieldY (w : Word) : Nibble := w.extractLsb' 4 4

/-- `n`, word[3:0]. -/
def fieldN (w : Word) : Nibble := w.extractLsb' 0 4

/-- `kk`, word[7:0]. -/
def fieldKK (w : Word) : Byte := w.extractLsb' 0 8

/-- `nnn`, word[11:0]. -/
def fieldNNN (w : Word) : Addr := w.extractLsb' 0 12

/-- The first byte of a word stored big-endian: bits 15..8 (R65, R91). -/
def highByte (w : Word) : Byte := w.extractLsb' 8 8

/-- The second byte of a word stored big-endian: bits 7..0 (R65, R91). -/
def lowByte (w : Word) : Byte := w.extractLsb' 0 8

/-- The word two bytes make, the first in bits 15..8 (R65, R91). -/
def wordOfBytes (hi lo : Byte) : Word := hi ++ lo

/-! ## Dispatch (R94-R99) -/

/-- Family 0x0 matches the whole word (R95). -/
def decodeFamily0 (hires : Bool) (w : Word) : Decoded :=
  match w.toNat with
  | 0x00E0 => .instr .cls
  | 0x00EE => .instr .ret
  | 0x00FE => if hires then .instr .low else .unimplemented w
  | 0x00FF => if hires then .instr .high else .unimplemented w
  | _ => .unimplemented w

/-- Family 0x5 requires `n = 0` (R96). -/
def decodeFamily5 (w : Word) : Decoded :=
  match (fieldN w).toNat with
  | 0x0 => .instr (.seReg (fieldX w) (fieldY w))
  | _ => .unimplemented w

/-- Family 0x8 selects on `n` (R97). -/
def decodeFamily8 (w : Word) : Decoded :=
  match (fieldN w).toNat with
  | 0x0 => .instr (.ldReg (fieldX w) (fieldY w))
  | 0x1 => .instr (.orReg (fieldX w) (fieldY w))
  | 0x2 => .instr (.andReg (fieldX w) (fieldY w))
  | 0x3 => .instr (.xorReg (fieldX w) (fieldY w))
  | 0x4 => .instr (.addReg (fieldX w) (fieldY w))
  | 0x5 => .instr (.sub (fieldX w) (fieldY w))
  | 0x6 => .instr (.shr (fieldX w) (fieldY w))
  | 0x7 => .instr (.subn (fieldX w) (fieldY w))
  | 0xE => .instr (.shl (fieldX w) (fieldY w))
  | _ => .unimplemented w

/-- Family 0x9 requires `n = 0` (R96). -/
def decodeFamily9 (w : Word) : Decoded :=
  match (fieldN w).toNat with
  | 0x0 => .instr (.sneReg (fieldX w) (fieldY w))
  | _ => .unimplemented w

/-- Family 0xE selects on `kk` (R98). -/
def decodeFamilyE (w : Word) : Decoded :=
  match (fieldKK w).toNat with
  | 0x9E => .instr (.skp (fieldX w))
  | 0xA1 => .instr (.sknp (fieldX w))
  | _ => .unimplemented w

/-- Family 0xF selects on `kk` (R99). -/
def decodeFamilyF (w : Word) : Decoded :=
  match (fieldKK w).toNat with
  | 0x07 => .instr (.ldVxDt (fieldX w))
  | 0x0A => .instr (.ldVxK (fieldX w))
  | 0x15 => .instr (.ldDtVx (fieldX w))
  | 0x18 => .instr (.ldStVx (fieldX w))
  | 0x1E => .instr (.addI (fieldX w))
  | 0x29 => .instr (.ldF (fieldX w))
  | 0x33 => .instr (.ldB (fieldX w))
  | 0x55 => .instr (.ldMemI (fieldX w))
  | 0x65 => .instr (.ldRegI (fieldX w))
  | _ => .unimplemented w

/-- `decode(word)` (R94): the top nibble selects a family. Families 1-4, 6, 7 and A-D have one instruction each. -/
def decode (hires : Bool) (w : Word) : Decoded :=
  match (fieldOp w).toNat with
  | 0x0 => decodeFamily0 hires w
  | 0x1 => .instr (.jp (fieldNNN w))
  | 0x2 => .instr (.call (fieldNNN w))
  | 0x3 => .instr (.seImm (fieldX w) (fieldKK w))
  | 0x4 => .instr (.sneImm (fieldX w) (fieldKK w))
  | 0x5 => decodeFamily5 w
  | 0x6 => .instr (.ldImm (fieldX w) (fieldKK w))
  | 0x7 => .instr (.addImm (fieldX w) (fieldKK w))
  | 0x8 => decodeFamily8 w
  | 0x9 => decodeFamily9 w
  | 0xA => .instr (.ldI (fieldNNN w))
  | 0xB => .instr (.jpV0 (fieldNNN w))
  | 0xC => .instr (.rnd (fieldX w) (fieldKK w))
  | 0xD => .instr (.drw (fieldX w) (fieldY w) (fieldN w))
  | 0xE => decodeFamilyE w
  | _ => decodeFamilyF w

/-- The decoder on bytes: two bytes make one big-endian word (R90, R91). -/
def decodeBytes (hires : Bool) : List Byte → DecodedBytes
  | hi :: lo :: rest => .word (decode hires (wordOfBytes hi lo)) rest
  | _ => .truncated

/-! ## The encoder -/

/-- The word of an instruction, from the patterns of R107. -/
def encode (i : Instr) : Word :=
  match i with
  | .cls => 0x00E0#16
  | .ret => 0x00EE#16
  | .low => 0x00FE#16
  | .high => 0x00FF#16
  | .jp nnn => 0x1#4 ++ nnn
  | .call nnn => 0x2#4 ++ nnn
  | .seImm x kk => 0x3#4 ++ x ++ kk
  | .sneImm x kk => 0x4#4 ++ x ++ kk
  | .seReg x y => 0x5#4 ++ x ++ y ++ 0x0#4
  | .ldImm x kk => 0x6#4 ++ x ++ kk
  | .addImm x kk => 0x7#4 ++ x ++ kk
  | .ldReg x y => 0x8#4 ++ x ++ y ++ 0x0#4
  | .orReg x y => 0x8#4 ++ x ++ y ++ 0x1#4
  | .andReg x y => 0x8#4 ++ x ++ y ++ 0x2#4
  | .xorReg x y => 0x8#4 ++ x ++ y ++ 0x3#4
  | .addReg x y => 0x8#4 ++ x ++ y ++ 0x4#4
  | .sub x y => 0x8#4 ++ x ++ y ++ 0x5#4
  | .shr x y => 0x8#4 ++ x ++ y ++ 0x6#4
  | .subn x y => 0x8#4 ++ x ++ y ++ 0x7#4
  | .shl x y => 0x8#4 ++ x ++ y ++ 0xE#4
  | .sneReg x y => 0x9#4 ++ x ++ y ++ 0x0#4
  | .ldI nnn => 0xA#4 ++ nnn
  | .jpV0 nnn => 0xB#4 ++ nnn
  | .rnd x kk => 0xC#4 ++ x ++ kk
  | .drw x y n => 0xD#4 ++ x ++ y ++ n
  | .skp x => 0xE#4 ++ x ++ 0x9E#8
  | .sknp x => 0xE#4 ++ x ++ 0xA1#8
  | .ldVxDt x => 0xF#4 ++ x ++ 0x07#8
  | .ldVxK x => 0xF#4 ++ x ++ 0x0A#8
  | .ldDtVx x => 0xF#4 ++ x ++ 0x15#8
  | .ldStVx x => 0xF#4 ++ x ++ 0x18#8
  | .addI x => 0xF#4 ++ x ++ 0x1E#8
  | .ldF x => 0xF#4 ++ x ++ 0x29#8
  | .ldB x => 0xF#4 ++ x ++ 0x33#8
  | .ldMemI x => 0xF#4 ++ x ++ 0x55#8
  | .ldRegI x => 0xF#4 ++ x ++ 0x65#8

/-- The bytes of an instruction as memory holds them (R91). -/
def encodeBytes (i : Instr) : List Byte := [highByte (encode i), lowByte (encode i)]

/-! ## The opcode table's numbering -/

/-- The low `nbits` bits of `w`, every bit above them 0, as the one word of an instruction. -/
def tableWord (nbits w : Nat) : Word := BitVec.ofNat 16 (w % 2 ^ nbits)

/-- The instruction the decoder reads, under the default HIRES_OPCODES, from a table word laid out big-endian. -/
def decodeTableWord (nbits w : Nat) : Option Instr :=
  match decodeBytes Config.hiresOpcodes [highByte (tableWord nbits w), lowByte (tableWord nbits w)] with
  | .word (.instr i) _ => some i
  | .word (.unimplemented _) _ => none
  | .truncated => none

end Sys2Proof
end

