-- ==== Sys2Proof/Machine/State.lean ====
section
/-! DEFINITION. The machine's state (spec/10_state.md R20-R52), the reasons a tick can stop it, the outcomes of a
tick (spec/40_engine.md R128), and the state after reset (spec/70_reset_and_hazards.md R322). -/

namespace Sys2Proof.Machine

/-! ## Control flags and quirks -/

/-- `Mode`: a preset that maps onto a `Quirks` value; no instruction reads it (R42, R46). -/
inductive Mode where
  | chip8
  | schip
  | xochip
  deriving DecidableEq, Repr

/-- The six quirks; false is the legacy CHIP-8 behaviour (R45). -/
structure Quirks where
  /-- true: 8xy1/2/3 leave vF alone. -/
  binOps : Bool
  /-- true: 8xy6/8xyE shift vX. -/
  shift : Bool
  /-- true: `Dxyn` does not wait. -/
  drawWait : Bool
  /-- true: Fx55/Fx65 leave I alone. -/
  dmaInc : Bool
  /-- true: `Bnnn` adds v[nnn >> 8]. -/
  stupidJumps : Bool
  /-- true: off-edge sprite pixels wrap. -/
  screenWrap : Bool
  deriving DecidableEq, Repr

/-- The `Flags` bundle (R36). -/
structure Flags where
  /-- Prints each executed instruction's disassembly; no effect on any state (R37). -/
  debug : Bool
  /-- Paused: ticks are no-ops (R38). -/
  pause : Bool
  /-- KeyWait: ticks are no-ops (R39). -/
  keypause : Bool
  /-- Draw-wait: ticks are no-ops (R40). -/
  drawWait : Bool
  /-- false lo-res, true hi-res (R41). -/
  drawMode : Bool
  mode : Mode
  quirks : Quirks
  /-- The host's instruction ticks per frame; no rule reads it (R43). -/
  monotonic : Option Nat
  deriving DecidableEq, Repr

/-! ## Memory and regions -/

/-- The bytes of memory that differ from the boot contents: (address, byte) pairs, addresses strictly rising
(`Memory.wf` in Machine/Memory.lean; log entry 3). -/
abbrev Memory := List Host.Cell

/-- A half-open byte range `[start, stop)` (R33). -/
structure ByteRange where
  start : Nat
  stop : Nat
  deriving DecidableEq, Repr

/-- The region tags (R33). -/
inductive RegionTag where
  | charset
  | program
  | screen
  | stack
  deriving DecidableEq, Repr

/-- `regions`: each tag undeclared (`none`) or a range (R33). -/
structure Regions where
  charset : Option ByteRange
  program : Option ByteRange
  screen : Option ByteRange
  stack : Option ByteRange
  deriving DecidableEq, Repr

/-! ## The state -/

/-- The machine state (R20). -/
structure State where
  /-- `v[0..15]`; `v[15]` is vF (R21, R22). -/
  v : Vector Byte 16
  /-- The index register (R24). -/
  I : Word
  /-- The program counter (R25). -/
  pc : Word
  /-- The stack pointer: where the next push writes (R26). -/
  sp : Word
  /-- The delay timer (R28). -/
  delay : Byte
  /-- The sound timer (R29). -/
  sound : Byte
  /-- `keys[k]`: key k is held (R30). -/
  keys : Vector Bool 16
  /-- The latched key release, if any (R31). -/
  lastkey : Option Nibble
  /-- The bytes of storage (R32). -/
  mem : Memory
  /-- The length of backing storage (R32). -/
  memlen : Nat
  regions : Regions
  /-- Instructions executed without a fault (R34). -/
  cycle : Nat
  /-- The breakpoint set, as a strictly rising list (R35; log entry 8). -/
  breakpoints : List Word
  flags : Flags
  /-- The model's own field, not the spec's: how many random bytes `Cxkk` has drawn (log entry 2). -/
  rngDraws : Nat
  deriving DecidableEq, Repr

/-! ## How a tick can end -/

/-- The faults (R280): each names the instruction word and its fetch address. A fault ends the run (R287), which is
safe: no claim about a later state can be proved. -/
inductive Fault where
  /-- R281: raised by the tick (`execDecoded`) on a word that decodes to no instruction. Safe. -/
  | unimplemented (word addr : Word)
  /-- R282: raised by `CALL` (`push`) on a full stack. Safe. -/
  | stackOverflow (word addr : Word)
  /-- R283: raised by `RET` (`pop`) on an empty stack. Safe. -/
  | stackUnderflow (word addr : Word)
  deriving DecidableEq, Repr

/-- The refusals of an instruction. Every instruction has a meaning, so none is raised. -/
inductive Refusal where
  /-- An instruction without a meaning yet; raised only by a refused arm of `exec`, of which there is none. Safe. -/
  | notModelled (mnemonic : String)
  deriving DecidableEq, Repr

/-- Why an executed instruction left the engine Paused (R128). -/
inductive StopCause where
  | breakpoint
  | selfJump
  deriving DecidableEq, Repr

/-- The outcomes of a tick (R128). -/
inductive TickOutcome where
  /-- One instruction executed and nothing stopped the engine. -/
  | ran
  /-- The engine was stalled and no state changed. -/
  | idle
  /-- One instruction executed and set `flags.pause`. -/
  | stopped (cause : StopCause) (pc : Word)
  /-- A fatal condition (R280). -/
  | fault (f : Fault)
  /-- The model has no meaning for the instruction (no arm of `exec` answers so). -/
  | refused (r : Refusal)
  deriving DecidableEq, Repr

/-- The outcomes of a multistep (R127, R128). -/
inductive MultiOutcome where
  /-- The budget ran out. -/
  | budgetExhausted
  /-- A tick stopped; `next` is the decode of the word at `pc`. -/
  | stopped (cause : StopCause) (pc : Word) (next : Decoded)
  /-- The first fatal error. -/
  | fault (f : Fault)
  /-- The model has no meaning for an instruction (no arm of `exec` answers so). -/
  | refused (r : Refusal)
  deriving DecidableEq, Repr

/-! ## Reset -/

/-- The default flags (R36, D12): every flag clear, mode Chip8 and its quirks (all false, R46). -/
def Flags.default : Flags where
  debug := false
  pause := false
  keypause := false
  drawWait := false
  drawMode := false
  mode := .chip8
  quirks := ⟨false, false, false, false, false, false⟩
  monotonic := none

/-- The default memory map (spec/20_memory.md R70), Screen in lo-res. -/
def Regions.default : Regions where
  charset := some ⟨Config.fontBase.toNat, Config.fontBase.toNat + 80⟩
  program := some ⟨Config.pcBase.toNat, Config.programEnd⟩
  screen := some ⟨Config.screenBase, Config.screenBase + Config.loresW * Config.loresH / 8⟩
  stack := some ⟨Config.spBase.toNat - 2 * (Config.stackDepth - 1), Config.spBase.toNat + 2⟩

/-- The state right after reset: `new` with default flags and no breakpoints under the boot of R323 with no ROM and
no test-suite word (R322; log entry 4). Nothing is listed in memory: it holds the boot contents. -/
def State.reset : State where
  v := Vector.replicate 16 0
  I := 0
  pc := Config.pcBase
  sp := Config.spBase
  delay := 0
  sound := 0
  keys := Vector.replicate 16 false
  lastkey := none
  mem := []
  memlen := Config.memInitLen
  regions := Regions.default
  cycle := 0
  breakpoints := []
  flags := Flags.default
  rngDraws := 0

end Sys2Proof.Machine
end

