-- ==== Sys2Proof/Machine/Memory.lean ====
section
/-! DEFINITION. The byte array behind the bus (spec/10_state.md R32, spec/20_memory.md R60-R66): the boot contents,
one byte read and written, the canonical form, and the wider big-endian accesses built from bytes. -/

namespace Sys2Proof.Machine

/-! ## Boot contents -/

/-- The 16 glyphs of the Charset region, 5 bytes each (spec/43_index_memory.md R216). -/
def font : List Byte :=
  [0xF0, 0x90, 0x90, 0x90, 0xF0] ++ [0x20, 0x60, 0x20, 0x20, 0x70] ++
  [0xF0, 0x10, 0xF0, 0x80, 0xF0] ++ [0xF0, 0x10, 0xF0, 0x10, 0xF0] ++
  [0x90, 0x90, 0xF0, 0x10, 0x10] ++ [0xF0, 0x80, 0xF0, 0x10, 0xF0] ++
  [0xF0, 0x80, 0xF0, 0x90, 0xF0] ++ [0xF0, 0x10, 0x20, 0x40, 0x40] ++
  [0xF0, 0x90, 0xF0, 0x90, 0xF0] ++ [0xF0, 0x90, 0xF0, 0x10, 0xF0] ++
  [0xF0, 0x90, 0xF0, 0x90, 0x90] ++ [0xE0, 0x90, 0xE0, 0x90, 0xE0] ++
  [0xF0, 0x80, 0x80, 0x80, 0xF0] ++ [0xE0, 0x90, 0x90, 0x90, 0xE0] ++
  [0xF0, 0x80, 0xF0, 0x80, 0xF0] ++ [0xF0, 0x80, 0xF0, 0x80, 0x80]

/-- What an address that memory does not list reads as: the boot contents, that is the font at FONT_BASE and 0
everywhere else (R70, R322, R326; log entry 3). -/
def bootByte (a : Nat) : Byte :=
  if Config.fontBase.toNat ≤ a then font.getD (a - Config.fontBase.toNat) 0 else 0

/-! ## One byte -/

/-- The byte listed for address `a`, or the boot contents. -/
def Memory.byteAt : Memory → Nat → Byte
  | [], a => bootByte a
  | (k, b) :: m, a => if k = a then b else Memory.byteAt m a

/-- List `b` at address `a`, in address order. -/
def Memory.insertCell : Memory → Nat → Byte → Memory
  | [], a, b => [(a, b)]
  | (k, c) :: m, a, b =>
    if a < k then (a, b) :: (k, c) :: m
    else if a = k then (a, b) :: m
    else (k, c) :: Memory.insertCell m a b

/-- Unlist address `a`. -/
def Memory.eraseCell (m : Memory) (a : Nat) : Memory := m.filter (fun c => decide (c.1 ≠ a))

/-- Write one byte, keeping the canonical form: a byte equal to the boot contents is not listed. -/
def Memory.putByte (m : Memory) (a : Nat) (b : Byte) : Memory :=
  if b = bootByte a then Memory.eraseCell m a else Memory.insertCell m a b

/-- The addresses of `[a, a + n)` whose boot contents are not 0: only there is a zero byte listed. -/
def nonzeroBoot (a n : Nat) : List Nat :=
  ((List.range font.length).map (Config.fontBase.toNat + ·)).filter
    (fun k => decide (a ≤ k) && decide (k < a + n) && decide (bootByte k ≠ 0))

/-- `for j in 0 .. n-1: mem[a + j] <- 0`, in one pass: nothing stays listed in the range but the zero bytes where the
boot contents are not 0. -/
def Memory.zeroFill (m : Memory) (a n : Nat) : Memory :=
  (nonzeroBoot a n).foldl (fun m k => Memory.insertCell m k 0)
    (m.filter (fun c => !(decide (a ≤ c.1) && decide (c.1 < a + n))))

/-- `for j in 0 .. len(data)-1: mem[a + j] <- data[j]`. -/
def Memory.copyIn (m : Memory) (a : Nat) : List Byte → Memory
  | [] => m
  | b :: data => Memory.copyIn (Memory.putByte m a b) (a + 1) data

/-! ## The canonical form -/

/-- The canonical form of memory: addresses strictly rising, and no entry equal to what its address reads as when
unlisted. -/
abbrev Memory.wf (m : Memory) : Prop :=
  m.Pairwise (fun c d => c.1 < d.1) ∧ ∀ c ∈ m, c.2 ≠ bootByte c.1

/-- No byte is listed at or past the end of storage. -/
abbrev Memory.within (m : Memory) (len : Nat) : Prop := ∀ c ∈ m, c.1 < len

/-! ## Wider big-endian accesses (R65), with no bounds check -/

/-- Two bytes at `a`, the lower address in the more significant byte. -/
def Memory.get16 (m : Memory) (a : Nat) : BitVec 16 := Memory.byteAt m a ++ Memory.byteAt m (a + 1)

/-- Four bytes at `a`. -/
def Memory.get32 (m : Memory) (a : Nat) : BitVec 32 := Memory.get16 m a ++ Memory.get16 m (a + 2)

/-- Eight bytes at `a`. -/
def Memory.get64 (m : Memory) (a : Nat) : BitVec 64 := Memory.get32 m a ++ Memory.get32 m (a + 4)

/-- Sixteen bytes at `a`. -/
def Memory.get128 (m : Memory) (a : Nat) : BitVec 128 := Memory.get64 m a ++ Memory.get64 m (a + 8)

/-- Write two bytes at `a`, the more significant byte at the lower address. -/
def Memory.put16 (m : Memory) (a : Nat) (w : BitVec 16) : Memory :=
  Memory.putByte (Memory.putByte m a (w.extractLsb' 8 8)) (a + 1) (w.extractLsb' 0 8)

/-- Write four bytes at `a`. -/
def Memory.put32 (m : Memory) (a : Nat) (w : BitVec 32) : Memory :=
  Memory.put16 (Memory.put16 m a (w.extractLsb' 16 16)) (a + 2) (w.extractLsb' 0 16)

/-- Write eight bytes at `a`. -/
def Memory.put64 (m : Memory) (a : Nat) (w : BitVec 64) : Memory :=
  Memory.put32 (Memory.put32 m a (w.extractLsb' 32 32)) (a + 4) (w.extractLsb' 0 32)

/-- Write sixteen bytes at `a`. -/
def Memory.put128 (m : Memory) (a : Nat) (w : BitVec 128) : Memory :=
  Memory.put64 (Memory.put64 m a (w.extractLsb' 64 64)) (a + 8) (w.extractLsb' 0 64)

/-! ## One byte under the bounds check of R63 and R64 -/

/-- `MemRead(a, 1)` on storage of `len` bytes: past the end it reads 0 (R63). -/
def Memory.read1 (len : Nat) (m : Memory) (a : Nat) : Byte :=
  if a + 1 ≤ len then Memory.byteAt m a else 0

/-- `MemWrite(a, 1, b)` on storage of `len` bytes: past the end it is dropped (R64). -/
def Memory.write1 (len : Nat) (m : Memory) (a : Nat) (b : Byte) : Memory :=
  if a + 1 ≤ len then Memory.putByte m a b else m

end Sys2Proof.Machine
end

