-- ==== Sys2Proof/Machine/Ops.lean ====
section
/-! DEFINITION. The named operations over the state that every meaning is built from: one update per field, the
register file, the bus primitives of spec/20_memory.md R61-R69, the stack of spec/41_control_flow.md R150 and R151,
the skip of R156, raising a fault (spec/60_exceptions.md R280, R286), and what a tick does around its instruction
(spec/40_engine.md R121). -/

namespace Sys2Proof.Machine

/-- The outcome of a meaning: the next state, a fault, or a refusal. -/
abbrev Out := Host.Outcome State Fault Refusal

/-! ## One update per field -/

def State.setI (s : State) (w : Word) : State := { s with I := w }
def State.setPc (s : State) (w : Word) : State := { s with pc := w }
def State.setSp (s : State) (w : Word) : State := { s with sp := w }
def State.setDelay (s : State) (b : Byte) : State := { s with delay := b }
def State.setSound (s : State) (b : Byte) : State := { s with sound := b }
def State.setKeys (s : State) (k : Vector Bool 16) : State := { s with keys := k }
def State.setLastkey (s : State) (k : Option Nibble) : State := { s with lastkey := k }
def State.setMem (s : State) (m : Memory) : State := { s with mem := m }
def State.setMemlen (s : State) (n : Nat) : State := { s with memlen := n }
def State.setRegions (s : State) (r : Regions) : State := { s with regions := r }
def State.setCycle (s : State) (n : Nat) : State := { s with cycle := n }
def State.setBreakpoints (s : State) (b : List Word) : State := { s with breakpoints := b }
def State.setFlags (s : State) (f : Flags) : State := { s with flags := f }
def State.setRngDraws (s : State) (n : Nat) : State := { s with rngDraws := n }

/-- Write `flags.pause` (R38). -/
def State.setPause (s : State) (b : Bool) : State := s.setFlags { s.flags with pause := b }

/-- Write `flags.keypause` (R39). -/
def State.setKeypause (s : State) (b : Bool) : State := s.setFlags { s.flags with keypause := b }

/-- Write `flags.draw_wait` (R40). -/
def State.setDrawWait (s : State) (b : Bool) : State := s.setFlags { s.flags with drawWait := b }

/-- Write `flags.draw_mode` (R41). -/
def State.setDrawMode (s : State) (b : Bool) : State := s.setFlags { s.flags with drawMode := b }

/-! ## The register file and the keypad (R21, R30) -/

/-- `v[x]`. -/
def State.getV (s : State) (x : Nibble) : Byte := s.v[x.toNat]'(x.isLt)

/-- `v[x] <- b`. -/
def State.setV (s : State) (x : Nibble) (b : Byte) : State := { s with v := s.v.set x.toNat b x.isLt }

/-- `vF`, which is `v[15]` (R22). -/
def vF : Nibble := 0xF

/-- `keys[k]`. -/
def State.getKey (s : State) (k : Nibble) : Bool := s.keys[k.toNat]'(k.isLt)

/-- `keys[k] <- b`. -/
def State.setKey (s : State) (k : Nibble) (b : Bool) : State := s.setKeys (s.keys.set k.toNat b k.isLt)

/-! ## The bus (R63, R64) -/

/-- `MemRead(a, 1)`. -/
def State.readByte (s : State) (a : Nat) : Byte := Memory.read1 s.memlen s.mem a

/-- `MemWrite(a, 1, b)`. -/
def State.writeByte (s : State) (a : Nat) (b : Byte) : State := s.setMem (Memory.write1 s.memlen s.mem a b)

/-- `MemRead(a, 2)`: 0 as a whole when any byte is past the end (R63, D16). -/
def State.readWord (s : State) (a : Nat) : Word := if a + 2 ≤ s.memlen then Memory.get16 s.mem a else 0

/-- `MemWrite(a, 2, w)`: dropped as a whole when any byte is past the end (R64, D16). -/
def State.writeWord (s : State) (a : Nat) (w : Word) : State :=
  if a + 2 ≤ s.memlen then s.setMem (Memory.put16 s.mem a w) else s

/-! ## Regions (R33, R61, R68, R69) -/

/-- `regions[tag]`. -/
def Regions.get (r : Regions) (tag : RegionTag) : Option ByteRange :=
  match tag with
  | .charset => r.charset
  | .program => r.program
  | .screen => r.screen
  | .stack => r.stack

/-- `regions[tag] <- range`. -/
def Regions.put (r : Regions) (tag : RegionTag) (range : ByteRange) : Regions :=
  match tag with
  | .charset => { r with charset := some range }
  | .program => { r with program := some range }
  | .screen => { r with screen := some range }
  | .stack => { r with stack := some range }

/-- Grow storage to at least `e` bytes; the new bytes read 0, and storage never shrinks (R61, D26). -/
def State.growTo (s : State) (e : Nat) : State :=
  if e ≤ s.memlen then s
  else (s.setMem (Memory.zeroFill s.mem s.memlen (e - s.memlen))).setMemlen e

/-- `add_region` and `set_region`: declare or move a region (R61). -/
def State.setRegion (s : State) (tag : RegionTag) (range : ByteRange) : State :=
  (s.growTo range.stop).setRegions (s.regions.put tag range)

/-- `clear_region(tag)`: zero-fill a declared region, else nothing (R69). A byte of the region past the end of
storage does not exist and is not written (log entry 11). -/
def State.clearRegion (s : State) (tag : RegionTag) : State :=
  match s.regions.get tag with
  | none => s
  | some r => s.setMem (Memory.zeroFill s.mem r.start (min r.stop s.memlen - r.start))

/-- `load_region(tag, data)`: copy `data` to the start of a declared region, truncated to the region, else nothing
(R68). A byte past the end of storage is not written (log entry 11). -/
def State.loadRegion (s : State) (tag : RegionTag) (data : List Byte) : State :=
  match s.regions.get tag with
  | none => s
  | some r => s.setMem (Memory.copyIn s.mem r.start (data.take (min r.stop s.memlen - r.start)))

/-! ## Screen geometry (R44) -/

/-- The current width in pixels. -/
def State.screenW (s : State) : Nat := if s.flags.drawMode then Config.hiresW else Config.loresW

/-- The current height in pixels. -/
def State.screenH (s : State) : Nat := if s.flags.drawMode then Config.hiresH else Config.loresH

/-- The range the Screen region has in lo-res (false) or hi-res (true) (R44). -/
def screenRange (hires : Bool) : ByteRange :=
  if hires then ⟨Config.screenBase, Config.screenBase + Config.hiresW * Config.hiresH / 8⟩
  else ⟨Config.screenBase, Config.screenBase + Config.loresW * Config.loresH / 8⟩

/-- Switch the resolution: set `draw_mode`, resize the Screen region, clear it (R236, R237, R309). With Screen undeclared
R289 calls 00FE and 00FF silent no-ops, while this pseudocode declares it: the model's choice is the pseudocode (log entry
15). No booted state has Screen undeclared. -/
def State.switchResolution (s : State) (hires : Bool) : State :=
  ((s.setDrawMode hires).setRegion .screen (screenRange hires)).clearRegion .screen

/-! ## Faults (R280, R286): taking the only exceptions this hardware has -/

/-- The fetch address `a` of the instruction in execution: `pc` already holds `a + 2` (R121). -/
def State.fetchAddr (s : State) : Word := s.pc - 2

/-- `raise Fault(kind, word, a)` (R8, R280): the run ends with the kind, the instruction word and its fetch address.
There is no vector, handler or saved register, and nothing is written (R286). -/
def raiseFault (kind : Word → Word → Fault) (word : Word) (s : State) : Out :=
  .fault (kind word s.fetchAddr)

/-! ## Stack and skip -/

/-- The stack depth (R26). -/
def State.depth (s : State) : Nat := (Config.spBase - s.sp).toNat / 2

/-- `Push(val)` for the instruction whose word is `word`, then `k` (R150). -/
def push (word : Word) (val : Word) (s : State) (k : State → Out) : Out :=
  if s.depth = Config.stackDepth then raiseFault .stackOverflow word s
  else k ((s.writeWord s.sp.toNat val).setSp (s.sp - 2))

/-- `Pop()` for the instruction whose word is `word`, then `k` on the address and the state (R151). -/
def pop (word : Word) (s : State) (k : Word → State → Out) : Out :=
  if s.sp = Config.spBase then raiseFault .stackUnderflow word s
  else k ((s.setSp (s.sp + 2)).readWord (s.sp + 2).toNat) (s.setSp (s.sp + 2))

/-- `if c: Skip()` (R156). -/
def State.skipIf (s : State) (c : Bool) : State := if c then s.setPc (s.pc + 2) else s

/-! ## The random source (R194, R310) -/

/-- The byte the next draw gives. -/
def State.nextRandom (s : State) : Byte := Config.rngByte s.rngDraws

/-- One byte has been drawn. -/
def State.drawTaken (s : State) : State := s.setRngDraws (s.rngDraws + 1)

/-! ## Around an instruction (R120, R121) -/

/-- `stalled` (R120). -/
def State.stalled (s : State) : Bool := s.flags.pause || s.flags.keypause || s.flags.drawWait

/-- `word <- MemRead(pc, 2)` (R122). -/
def State.fetch (s : State) : Word := s.readWord s.pc.toNat

/-- `pc <- pc +16 2` (R121): the state in which the fetched word executes. -/
def State.advance (s : State) : State := s.setPc (s.pc + 2)

/-- `pc in breakpoints` (R121, R125). -/
def State.atBreakpoint (s : State) : Bool := s.breakpoints.contains s.pc

/-- What a tick does after its instruction, whose state is `s`: `cycle <- cycle + 1`, the breakpoint check, and the
self-jump stop (R121). `flags.pause` can only be set here by the instruction, since a stalled tick executes none. -/
def retire (s : State) : TickOutcome × State :=
  let t := s.setCycle (s.cycle + 1)
  if t.atBreakpoint then (.stopped .breakpoint t.pc, t.setPause true)
  else if t.flags.pause then (.stopped .selfJump t.pc, t)
  else (.ran, t)

end Sys2Proof.Machine
end

