-- ==== Sys2Proof/Machine/Operands.lean ====
section
/-! DEFINITION. Every operand form: zero-extended addresses (spec/30_encoding.md R93), the key a register selects
(spec/45_timers_keys.md R260), the shift source (spec/42_alu.md R191), the index register of `Bnnn`
(spec/41_control_flow.md R161), effective addresses and glyphs (spec/43_index_memory.md R212, R217), register
ranges (R214, R215), and the screen's pixels and sprites (spec/44_display.md R230-R235). -/

namespace Sys2Proof.Machine

/-! ## Registers and immediates -/

/-- `zext_16(nnn)` (R93). -/
def zextAddr (nnn : Addr) : Word := nnn.setWidth 16

/-- `zext_16(v)` of a byte (R7). -/
def zextByte (b : Byte) : Word := b.setWidth 16

/-- A key number as a byte (R264). -/
def keyByte (k : Nibble) : Byte := k.setWidth 8

/-- The key `v & 0x0F` that a register value selects (R260). -/
def keyOf (b : Byte) : Nibble := b.extractLsb' 0 4

/-- The source of a shift: `v[x]` when `quirks.shift`, else `v[y]` (R191). -/
def State.shiftSource (s : State) (x y : Nibble) : Byte :=
  if s.flags.quirks.shift then s.getV x else s.getV y

/-- The register whose byte `Bnnn` adds: `nnn[11:8]` when `quirks.stupid_jumps`, else 0 (R161). -/
def State.jumpIndex (s : State) (nnn : Addr) : Nibble :=
  if s.flags.quirks.stupidJumps then nnn.extractLsb' 8 4 else 0

/-! ## Memory operands -/

/-- The effective address `(I + k) mod 2^16` (R217). -/
def State.ea (s : State) (k : Nat) : Nat := (s.I + BitVec.ofNat 16 k).toNat

/-- Where the glyph of the low nibble of `b` is: `(FONT_BASE + 5 * (b & 0x0F)) mod 2^16` (R212). -/
def glyphAddr (b : Byte) : Word := Config.fontBase + 5 * zextByte (b &&& 0x0F)

/-- The decimal digits of `b`, hundreds first (R213). -/
def bcdHundreds (b : Byte) : Byte := BitVec.ofNat 8 (b.toNat / 100)

/-- The tens digit (R213). -/
def bcdTens (b : Byte) : Byte := BitVec.ofNat 8 (b.toNat / 10 % 10)

/-- The units digit (R213). -/
def bcdUnits (b : Byte) : Byte := BitVec.ofNat 8 (b.toNat % 10)

/-- `for i in 0 .. count-1: MemWrite((I + i) mod 2^16, 1, v[i])` (R214). -/
def State.storeRegs (s : State) : Nat → State
  | 0 => s
  | n + 1 => (s.storeRegs n).writeByte (s.ea n) (s.getV (BitVec.ofNat 4 n))

/-- `for i in 0 .. count-1: v[i] <- MemRead((I + i) mod 2^16, 1)` (R215). -/
def State.loadRegs (s : State) : Nat → State
  | 0 => s
  | n + 1 => (s.loadRegs n).setV (BitVec.ofNat 4 n) (s.readByte (s.ea n))

/-- `if not quirks.dma_inc: I <- (base + x + 1) mod 2^16` (R214, R215). -/
def State.dmaAdvance (s : State) (x : Nibble) : State :=
  if s.flags.quirks.dmaInc then s else s.setI (s.I + BitVec.ofNat 16 (x.toNat + 1))

/-! ## Pixels (R230, R231) -/

/-- `byte(px, py)`: the address of the byte that holds a pixel of a screen `w` pixels wide. -/
def pixelByte (w px py : Nat) : Nat := Config.screenBase + py * (w / 8) + px / 8

/-- `bit(px, py)`: the pixel's bit in that byte; the most significant bit is leftmost. -/
def pixelBit (px : Nat) : Nat := 7 - px % 8

/-- `ScreenGet(px, py)` in memory `m` of `len` bytes. -/
def Memory.pixelAt (len w : Nat) (m : Memory) (px py : Nat) : Bool :=
  (Memory.read1 len m (pixelByte w px py)).getLsbD (pixelBit px)

/-- `ScreenFlip(px, py)` in memory `m` of `len` bytes. -/
def Memory.flipPixel (len w : Nat) (m : Memory) (px py : Nat) : Memory :=
  Memory.write1 len m (pixelByte w px py)
    (Memory.read1 len m (pixelByte w px py) ^^^ (1#8 <<< pixelBit px))

/-- `ScreenGet(px, py)` (R231). -/
def State.screenGet (s : State) (px py : Nat) : Bool := Memory.pixelAt s.memlen s.screenW s.mem px py

/-! ## Sprites (R233-R235) -/

/-- Does `Dxyn` with this `n` draw a 16×16 sprite? (R233) -/
def State.wideSprite (s : State) (n : Nibble) : Bool := decide (n = 0) && s.flags.drawMode

/-- The number of rows (R233). -/
def State.spriteRows (s : State) (n : Nibble) : Nat := if s.wideSprite n then 16 else n.toNat

/-- The width of a row in pixels (R233). -/
def State.spriteWidth (s : State) (n : Nibble) : Nat := if s.wideSprite n then 16 else 8

/-- `SpriteRow(r, width)`, an 8-bit row zero-extended (R234). -/
def State.spriteRow (s : State) (n : Nibble) (r : Nat) : BitVec 16 :=
  if s.wideSprite n then s.readByte (s.ea (2 * r)) ++ s.readByte (s.ea (2 * r + 1))
  else (s.readByte (s.ea r)).setWidth 16

/-- `S[r][width-1-c]`: is the sprite's pixel in row `r`, column `c` set? The leftmost is the most significant bit. -/
def State.spriteBit (s : State) (n : Nibble) (r c : Nat) : Bool :=
  (s.spriteRow n r).getLsbD (s.spriteWidth n - 1 - c)

/-- Where the sprite pixel at unreduced `(px, py)` lands: itself on the screen; off an edge nowhere when clipped,
and reduced mod (W, H) when `quirks.screen_wrap` (R235). -/
def State.placePixel (s : State) (px py : Nat) : Option (Nat × Nat) :=
  if s.screenW ≤ px ∨ s.screenH ≤ py then
    if s.flags.quirks.screenWrap then some (px % s.screenW, py % s.screenH) else none
  else some (px, py)

/-- Draw one set sprite pixel: note a collision, then flip. The accumulator is `hit` and memory. -/
def State.drawPixel (s : State) (px py : Nat) (acc : Bool × Memory) : Bool × Memory :=
  match s.placePixel px py with
  | none => acc
  | some (qx, qy) =>
    (acc.1 || Memory.pixelAt s.memlen s.screenW acc.2 qx qy, Memory.flipPixel s.memlen s.screenW acc.2 qx qy)

/-- `for c in 0 .. count-1` of row `r` of the sprite (R233), its origin at `(x0, y0)`. -/
def State.drawRow (s : State) (n : Nibble) (x0 y0 r : Nat) : Nat → Bool × Memory → Bool × Memory
  | 0, acc => acc
  | c + 1, acc =>
    let before := s.drawRow n x0 y0 r c acc
    if s.spriteBit n r c then s.drawPixel (x0 + c) (y0 + r) before else before

/-- `for r in 0 .. count-1` of the sprite (R233). Every row is read from `s`, the state before the draw (R234). -/
def State.drawRows (s : State) (n : Nibble) (x0 y0 : Nat) : Nat → Bool × Memory → Bool × Memory
  | 0, acc => acc
  | r + 1, acc => s.drawRow n x0 y0 r (s.spriteWidth n) (s.drawRows n x0 y0 r acc)

/-- The column of the sprite's origin, `v[x] mod W` (R233). -/
def State.originX (s : State) (x : Nibble) : Nat := (s.getV x).toNat % s.screenW

/-- The row of the sprite's origin, `v[y] mod H` (R233). -/
def State.originY (s : State) (y : Nibble) : Nat := (s.getV y).toNat % s.screenH

/-- XOR the whole sprite onto the screen: the collision bit and the memory after (R233). -/
def State.drawSprite (s : State) (x y n : Nibble) : Bool × Memory :=
  s.drawRows n (s.originX x) (s.originY y) (s.spriteRows n) (false, s.mem)

end Sys2Proof.Machine
end

