-- ==== Sys2Proof/Machine/Flags.lean ====
section
/-! DEFINITION. Every flag computation (spec/10_state.md R22) and the order in which a result and its flag are
written (spec/42_alu.md R181, R185). -/

namespace Sys2Proof.Machine

/-- A flag value as a byte: 1 or 0. -/
def flagByte (b : Bool) : Byte := if b then 1 else 0

/-- Carry out of `a + b`: 1 iff the exact sum is over 255 (R189). -/
def carryFlag (a b : Byte) : Byte := flagByte (decide (a.toNat + b.toNat > 255))

/-- NOT borrow of `a - b`: 1 iff `a >= b` (R190, R192). -/
def notBorrowFlag (a b : Byte) : Byte := flagByte (decide (a.toNat ≥ b.toNat))

/-- The bit a right shift moves out, `src & 1` (R191). -/
def shiftedOutRight (src : Byte) : Byte := src &&& 1

/-- The bit a left shift moves out, `src >> 7` (R193). -/
def shiftedOutLeft (src : Byte) : Byte := src >>> 7

/-- Write a result to `v[x]` and then its flag to vF, so that with x = F the flag remains (R181). -/
def State.writeResultFlag (s : State) (x : Nibble) (result flag : Byte) : State :=
  (s.setV x result).setV vF flag

/-- Write a logic result to `v[x]`, then clear vF unless `quirks.bin_ops` (R185). -/
def State.writeLogic (s : State) (x : Nibble) (result : Byte) : State :=
  if s.flags.quirks.binOps then s.setV x result else s.writeResultFlag x result 0

end Sys2Proof.Machine
end

