-- ==== Sys2Proof/Machine/Alu.lean ====
section
/-! DEFINITION. Register arithmetic, logic and random (spec/42_alu.md R180-R194). Each meaning reads all its
operands from the state before the instruction (R180) and writes a flag after its result (R181). -/

namespace Sys2Proof.Machine

/-- 6xkk `LD Vx, kk` (R182). -/
def execLdImm (x : Nibble) (kk : Byte) (s : State) : Out := .next (s.setV x kk)

/-- 7xkk `ADD Vx, kk` (R183): wraps, and no flag is written. -/
def execAddImm (x : Nibble) (kk : Byte) (s : State) : Out := .next (s.setV x (s.getV x + kk))

/-- 8xy0 `LD Vx, Vy` (R184). -/
def execLdReg (x y : Nibble) (s : State) : Out := .next (s.setV x (s.getV y))

/-- 8xy1 `OR Vx, Vy` (R186). -/
def execOr (x y : Nibble) (s : State) : Out := .next (s.writeLogic x (s.getV x ||| s.getV y))

/-- 8xy2 `AND Vx, Vy` (R187). -/
def execAnd (x y : Nibble) (s : State) : Out := .next (s.writeLogic x (s.getV x &&& s.getV y))

/-- 8xy3 `XOR Vx, Vy` (R188). -/
def execXor (x y : Nibble) (s : State) : Out := .next (s.writeLogic x (s.getV x ^^^ s.getV y))

/-- 8xy4 `ADD Vx, Vy` (R189): vF is the carry out. -/
def execAddReg (x y : Nibble) (s : State) : Out :=
  .next (s.writeResultFlag x (s.getV x + s.getV y) (carryFlag (s.getV x) (s.getV y)))

/-- 8xy5 `SUB Vx, Vy` (R190): `vx - vy`, vF is NOT borrow. -/
def execSub (x y : Nibble) (s : State) : Out :=
  .next (s.writeResultFlag x (s.getV x - s.getV y) (notBorrowFlag (s.getV x) (s.getV y)))

/-- 8xy6 `SHR Vx, Vy` (R191): vF is the bit shifted out. -/
def execShr (x y : Nibble) (s : State) : Out :=
  .next (s.writeResultFlag x (s.shiftSource x y >>> 1) (shiftedOutRight (s.shiftSource x y)))

/-- 8xy7 `SUBN Vx, Vy` (R192): `vy - vx`, vF is NOT borrow. -/
def execSubn (x y : Nibble) (s : State) : Out :=
  .next (s.writeResultFlag x (s.getV y - s.getV x) (notBorrowFlag (s.getV y) (s.getV x)))

/-- 8xyE `SHL Vx, Vy` (R193): vF is the bit shifted out. -/
def execShl (x y : Nibble) (s : State) : Out :=
  .next (s.writeResultFlag x (s.shiftSource x y <<< 1) (shiftedOutLeft (s.shiftSource x y)))

/-- Cxkk `RND Vx, kk` (R194): one draw, masked. -/
def execRnd (x : Nibble) (kk : Byte) (s : State) : Out :=
  .next (s.drawTaken.setV x (s.nextRandom &&& kk))

end Sys2Proof.Machine
end

