-- ==== Sys2Proof/Machine/ControlFlow.lean ====
section
/-! DEFINITION. Control flow (spec/41_control_flow.md R150-R161): the meanings of RET, JP, CALL, the register and
immediate skips, and the indexed jump. In every meaning `pc` already holds the fetch address plus 2 (R121). -/

namespace Sys2Proof.Machine

/-- 00EE `RET` (R153): `pc <- Pop()`. -/
def execRet (s : State) : Out :=
  pop (encode .ret) s fun target t => .next (t.setPc target)

/-- 1nnn `JP nnn` (R154): a jump to its own fetch address also sets `flags.pause` (R152). -/
def execJp (nnn : Addr) (s : State) : Out :=
  if zextAddr nnn = s.fetchAddr then .next ((s.setPause true).setPc (zextAddr nnn))
  else .next (s.setPc (zextAddr nnn))

/-- 2nnn `CALL nnn` (R155): push the return address, then jump. -/
def execCall (nnn : Addr) (s : State) : Out :=
  push (encode (.call nnn)) s.pc s fun t => .next (t.setPc (zextAddr nnn))

/-- 3xkk `SE Vx, kk` (R157). -/
def execSeImm (x : Nibble) (kk : Byte) (s : State) : Out :=
  .next (s.skipIf (decide (s.getV x = kk)))

/-- 4xkk `SNE Vx, kk` (R158). -/
def execSneImm (x : Nibble) (kk : Byte) (s : State) : Out :=
  .next (s.skipIf (decide (s.getV x ≠ kk)))

/-- 5xy0 `SE Vx, Vy` (R159). -/
def execSeReg (x y : Nibble) (s : State) : Out :=
  .next (s.skipIf (decide (s.getV x = s.getV y)))

/-- 9xy0 `SNE Vx, Vy` (R160). -/
def execSneReg (x y : Nibble) (s : State) : Out :=
  .next (s.skipIf (decide (s.getV x ≠ s.getV y)))

/-- Bnnn `JP V0, nnn` (R161): the 16-bit sum, not masked, and never a halt (R152, D17, D40). -/
def execJpV0 (nnn : Addr) (s : State) : Out :=
  .next (s.setPc (zextAddr nnn + zextByte (s.getV (s.jumpIndex nnn))))

end Sys2Proof.Machine
end

