-- ==== Sys2Proof/Machine/Display.lean ====
section
/-! DEFINITION. Display framebuffer and sprite blitter (spec/44_display.md R230-R238). None raises a fault. -/

namespace Sys2Proof.Machine

/-- 00E0 `CLS` (R232). -/
def execCls (s : State) : Out := .next (s.clearRegion .screen)

/-- 00FE `LOW` (R236). -/
def execLow (s : State) : Out := .next (s.switchResolution false)

/-- 00FF `HIGH` (R237). -/
def execHigh (s : State) : Out := .next (s.switchResolution true)

/-- Dxyn `DRW Vx, Vy, n` (R233): blit, then write the collision flag, then wait unless `quirks.draw_wait`. -/
def execDrw (x y n : Nibble) (s : State) : Out :=
  let drawn := s.drawSprite x y n
  let t := (s.setMem drawn.2).setV vF (flagByte drawn.1)
  .next (if s.flags.quirks.drawWait then t else t.setDrawWait true)

end Sys2Proof.Machine
end

