-- ==== Sys2Proof/Machine/IndexMemory.lean ====
section
/-! DEFINITION. Index register, font, BCD and DMA (spec/43_index_memory.md R210-R217). None raises a fault: a byte
past storage reads 0 and a write to it is dropped. -/

namespace Sys2Proof.Machine

/-- Annn `LD I, nnn` (R210). -/
def execLdI (nnn : Addr) (s : State) : Out := .next (s.setI (zextAddr nnn))

/-- Fx1E `ADD I, Vx` (R211): wraps mod 2^16, vF untouched. -/
def execAddI (x : Nibble) (s : State) : Out := .next (s.setI (s.I + zextByte (s.getV x)))

/-- Fx29 `LD F, Vx` (R212). -/
def execLdF (x : Nibble) (s : State) : Out := .next (s.setI (glyphAddr (s.getV x)))

/-- Fx33 `LD B, Vx` (R213): three one-byte writes, I unchanged. -/
def execLdB (x : Nibble) (s : State) : Out :=
  .next (((s.writeByte (s.ea 0) (bcdHundreds (s.getV x))).writeByte (s.ea 1) (bcdTens (s.getV x))).writeByte
    (s.ea 2) (bcdUnits (s.getV x)))

/-- Fx55 `LD [I], Vx` (R214): store v0..vx, then advance I under the legacy quirk. -/
def execLdMemI (x : Nibble) (s : State) : Out := .next ((s.storeRegs (x.toNat + 1)).dmaAdvance x)

/-- Fx65 `LD Vx, [I]` (R215): load v0..vx, then advance I under the legacy quirk. -/
def execLdRegI (x : Nibble) (s : State) : Out := .next ((s.loadRegs (x.toNat + 1)).dmaAdvance x)

end Sys2Proof.Machine
end

