-- ==== Sys2Proof/Machine/TimersKeys.lean ====
section
/-! DEFINITION. Timers and keypad instructions (spec/45_timers_keys.md R260-R266). None raises a fault. -/

namespace Sys2Proof.Machine

/-- Ex9E `SKP Vx` (R261): the level of the key, not `lastkey`. -/
def execSkp (x : Nibble) (s : State) : Out := .next (s.skipIf (s.getKey (keyOf (s.getV x))))

/-- ExA1 `SKNP Vx` (R262). -/
def execSknp (x : Nibble) (s : State) : Out := .next (s.skipIf (!s.getKey (keyOf (s.getV x))))

/-- Fx07 `LD Vx, DT` (R263). -/
def execLdVxDt (x : Nibble) (s : State) : Out := .next (s.setV x s.delay)

/-- Fx0A `LD Vx, K` (R264): take a latched release, else rewind `pc` and enter KeyWait. -/
def execLdVxK (x : Nibble) (s : State) : Out :=
  match s.lastkey with
  | some k => .next ((s.setV x (keyByte k)).setLastkey none)
  | none => .next ((s.setPc (s.pc - 2)).setKeypause true)

/-- Fx15 `LD DT, Vx` (R265). -/
def execLdDtVx (x : Nibble) (s : State) : Out := .next (s.setDelay (s.getV x))

/-- Fx18 `LD ST, Vx` (R266). -/
def execLdStVx (x : Nibble) (s : State) : Out := .next (s.setSound (s.getV x))

end Sys2Proof.Machine
end

