-- ==== Sys2Proof/Machine/Engine.lean ====
section
/-! DEFINITION. The fetch-decode-execute engine (spec/40_engine.md R120-R130): one tick, and the single and multiple
steps built on it. HIRES_OPCODES is an argument (R102). -/

namespace Sys2Proof.Machine

/-- Execute what a word decoded to (R121), in the state after the fetch: an unimplemented word is a fault (R281). -/
def execDecoded (d : Decoded) (s : State) : Out :=
  match d with
  | .unimplemented w => raiseFault .unimplemented w s
  | .instr i => exec i s

/-- `tick()` (R121). At a fault the state is the one before the tick with `pc = a + 2` (R286). -/
def tick (hires : Bool) (s : State) : TickOutcome × State :=
  if s.stalled then (.idle, s)
  else
    match execDecoded (decode hires s.fetch) s.advance with
    | .next t => retire t
    | .fault f => (.fault f, s.advance)
    | .refused r => (.refused r, s.advance)

/-- A tick as a step: Ran, Idle and Stopped go on from the next state, a fault ends the run (R287; log entries 5
and 6). -/
def tickOut (r : TickOutcome × State) : Out :=
  match r.1 with
  | .ran => .next r.2
  | .idle => .next r.2
  | .stopped _ _ => .next r.2
  | .fault f => .fault f
  | .refused q => .refused q

/-- `singlestep()` (R126). -/
def singlestep (hires : Bool) (s : State) : TickOutcome × State :=
  let r := tick hires (s.setPause false)
  (r.1, r.2.setPause true)

/-- `multistep(n)` (R127). R127 speaks of a host call that intervenes, where R74 and R311 call the block synchronous: the
model's choice is that a multistep is one call, with no host call between its ticks (log entry 16). -/
def multistep (hires : Bool) : Nat → State → MultiOutcome × State
  | 0, s => (.budgetExhausted, s)
  | n + 1, s =>
    match tick hires s with
    | (.ran, t) => multistep hires n t
    | (.idle, t) => multistep hires n t
    | (.stopped c p, t) => (.stopped c p (decode hires (t.readWord p.toNat)), t)
    | (.fault f, t) => (.fault f, t)
    | (.refused q, t) => (.refused q, t)

/-- Place a word where the next tick fetches, and lift whatever would keep that tick from fetching it: the three
stalls (R120), and storage that ends before the word (R122). On a state that is not stalled and whose `pc` lies in
storage nothing changes but the two bytes (log entry 4). -/
def State.placeFetchWord (s : State) (w : Word) : State :=
  let t := (((s.setPause false).setKeypause false).setDrawWait false).growTo (s.pc.toNat + 2)
  t.writeWord t.pc.toNat w

end Sys2Proof.Machine
end

