-- ==== Sys2Proof/Machine/Step.lean ====
section
/-! DEFINITION. The machine's step: one tick (spec/40_engine.md R121) under the default HIRES_OPCODES, and the
placing of an instruction where it fetches. -/

namespace Sys2Proof.Machine

/-- One step is one `tick()`. -/
def step (s : State) : Host.Outcome State Fault Refusal := tickOut (tick Config.hiresOpcodes s)

/-- `s` with a table word (its low `nbits` bits) stored where `step` fetches its next instruction. -/
def State.withFetchWord (s : State) (nbits w : Nat) : State := s.placeFetchWord (tableWord nbits w)

end Sys2Proof.Machine
end

