-- ==== Sys2Proof/Machine/Disasm.lean ====
section
/-! DEFINITION. The disassembly of a word (spec/30_encoding.md R104, R105), in the syntax of R107, as a mnemonic and
operands. Its printed text is out of scope (spec/00_scope.md R4); it reads no state and has no effect on any. -/

namespace Sys2Proof.Machine

/-- An operand as the assembler syntax writes it (R105). -/
inductive AsmOperand where
  | reg (x : Nibble)
  | num (n : Nat)
  /-- `I`, `DT`, `ST`, `K`, `F`, `B` or `[I]`. -/
  | name (text : String)
  deriving DecidableEq, Repr

/-- A disassembly: an instruction's mnemonic and operands, or the "inval" marker with its word (R104). -/
inductive Disassembly where
  | text (mnemonic : String) (operands : List AsmOperand)
  | inval (word : Word)
  deriving DecidableEq, Repr

/-- An instruction in the syntax of R107. -/
def asmOf (i : Instr) : Disassembly :=
  match i with
  | .cls => .text "CLS" []
  | .ret => .text "RET" []
  | .low => .text "LOW" []
  | .high => .text "HIGH" []
  | .jp nnn => .text "JP" [.num nnn.toNat]
  | .call nnn => .text "CALL" [.num nnn.toNat]
  | .seImm x kk => .text "SE" [.reg x, .num kk.toNat]
  | .sneImm x kk => .text "SNE" [.reg x, .num kk.toNat]
  | .seReg x y => .text "SE" [.reg x, .reg y]
  | .ldImm x kk => .text "LD" [.reg x, .num kk.toNat]
  | .addImm x kk => .text "ADD" [.reg x, .num kk.toNat]
  | .ldReg x y => .text "LD" [.reg x, .reg y]
  | .orReg x y => .text "OR" [.reg x, .reg y]
  | .andReg x y => .text "AND" [.reg x, .reg y]
  | .xorReg x y => .text "XOR" [.reg x, .reg y]
  | .addReg x y => .text "ADD" [.reg x, .reg y]
  | .sub x y => .text "SUB" [.reg x, .reg y]
  | .shr x y => .text "SHR" [.reg x, .reg y]
  | .subn x y => .text "SUBN" [.reg x, .reg y]
  | .shl x y => .text "SHL" [.reg x, .reg y]
  | .sneReg x y => .text "SNE" [.reg x, .reg y]
  | .ldI nnn => .text "LD" [.name "I", .num nnn.toNat]
  | .jpV0 nnn => .text "JP" [.reg 0, .num nnn.toNat]
  | .rnd x kk => .text "RND" [.reg x, .num kk.toNat]
  | .drw x y n => .text "DRW" [.reg x, .reg y, .num n.toNat]
  | .skp x => .text "SKP" [.reg x]
  | .sknp x => .text "SKNP" [.reg x]
  | .ldVxDt x => .text "LD" [.reg x, .name "DT"]
  | .ldVxK x => .text "LD" [.reg x, .name "K"]
  | .ldDtVx x => .text "LD" [.name "DT", .reg x]
  | .ldStVx x => .text "LD" [.name "ST", .reg x]
  | .addI x => .text "ADD" [.name "I", .reg x]
  | .ldF x => .text "LD" [.name "F", .reg x]
  | .ldB x => .text "LD" [.name "B", .reg x]
  | .ldMemI x => .text "LD" [.name "[I]", .reg x]
  | .ldRegI x => .text "LD" [.reg x, .name "[I]"]

/-- The disassembly of a word: every unimplemented word renders distinctly, as `inval word` (R104, R105). -/
def disassemble (hires : Bool) (w : Word) : Disassembly :=
  match decode hires w with
  | .instr i => asmOf i
  | .unimplemented u => .inval u

/-- What a tick prints under `flags.debug` (spec/10_state.md R37, spec/40_engine.md R130): the disassembly of the
instruction it executes, and nothing when it executes none. -/
def debugPrint (hires : Bool) (s : State) : Option Disassembly :=
  if s.flags.debug && !s.stalled then
    match decode hires s.fetch with
    | .instr i => some (asmOf i)
    | .unimplemented _ => none
  else none

end Sys2Proof.Machine
end

