-- ==== Sys2Proof/Machine/HostOps.lean ====
section
/-! DEFINITION. The host operations that do not run the engine (spec/60_exceptions.md R290-R309, spec/20_memory.md
R61-R73, spec/70_reset_and_hazards.md R320-R326). Each runs between ticks. -/

namespace Sys2Proof.Machine

/-! ## Timers and keypad -/

/-- `tick_timer()` (R300): both timers saturate at 0, and a draw-wait ends. -/
def hostTickTimer (s : State) : State :=
  ((s.setDelay (if s.delay = 0 then 0 else s.delay - 1)).setSound
    (if s.sound = 0 then 0 else s.sound - 1)).setDrawWait false

/-- `sound_active` (spec/10_state.md R29, R302). -/
def State.soundActive (s : State) : Bool := decide (s.sound ≠ 0)

/-- `press(k)` (R303): a number of 16 or more is ignored. -/
def hostPress (k : Nat) (s : State) : State :=
  if k < 16 then s.setKey (BitVec.ofNat 4 k) true else s

/-- `release(k)` (R304): during KeyWait it also latches the key and ends the wait. -/
def hostRelease (k : Nat) (s : State) : State :=
  if k < 16 then
    let t := s.setKey (BitVec.ofNat 4 k) false
    if t.flags.keypause then (t.setLastkey (some (BitVec.ofNat 4 k))).setKeypause false else t
  else s

/-! ## Breakpoints (R306), kept as a strictly rising list (log entry 8) -/

/-- Add an address to an ascending list, if absent. -/
def insertAddr (a : Word) : List Word → List Word
  | [] => [a]
  | b :: bs => if a < b then a :: b :: bs else if a = b then b :: bs else b :: insertAddr a bs

/-- `set_break(a)`. -/
def hostSetBreak (a : Word) (s : State) : State := s.setBreakpoints (insertAddr a s.breakpoints)

/-- `unset_break(a)`. -/
def hostUnsetBreak (a : Word) (s : State) : State :=
  s.setBreakpoints (s.breakpoints.filter (fun b => decide (b ≠ a)))

/-- The strictly rising list of the addresses of `bs`. -/
def sortAddrs (bs : List Word) : List Word := bs.foldr insertAddr []

/-! ## Flags, quirks, mode (R307, R308) -/

/-- `pause()`: toggles the flag. -/
def hostTogglePause (s : State) : State := s.setPause (!s.flags.pause)

/-- `debug()`: toggles the flag. -/
def hostToggleDebug (s : State) : State := s.setFlags { s.flags with debug := !s.flags.debug }

/-- `preset : Mode -> Quirks` (R46). -/
def preset (m : Mode) : Quirks :=
  match m with
  | .chip8 => ⟨false, false, false, false, false, false⟩
  | .schip => ⟨true, true, true, true, true, false⟩
  | .xochip => ⟨true, false, true, false, false, false⟩

/-- XOR-toggle quirks field by field (R47). -/
def toggleQuirks (q toggle : Quirks) : Quirks where
  binOps := q.binOps ^^ toggle.binOps
  shift := q.shift ^^ toggle.shift
  drawWait := q.drawWait ^^ toggle.drawWait
  dmaInc := q.dmaInc ^^ toggle.dmaInc
  stupidJumps := q.stupidJumps ^^ toggle.stupidJumps
  screenWrap := q.screenWrap ^^ toggle.screenWrap

/-- Write the quirks (R308). -/
def hostSetQuirks (q : Quirks) (s : State) : State := s.setFlags { s.flags with quirks := q }

/-- Toggle quirks (R47, R308). -/
def hostToggleQuirks (toggle : Quirks) (s : State) : State :=
  hostSetQuirks (toggleQuirks s.flags.quirks toggle) s

/-- `set_mode(m)` (R308): the mode and its preset quirks. -/
def hostSetMode (m : Mode) (s : State) : State :=
  s.setFlags { s.flags with mode := m, quirks := preset m }

/-! ## Typed host access to memory (R63, R64, R67) -/

/-- `MemRead(a, 4)`. -/
def State.read32 (s : State) (a : Nat) : BitVec 32 := if a + 4 ≤ s.memlen then Memory.get32 s.mem a else 0

/-- `MemRead(a, 16)`. -/
def State.read128 (s : State) (a : Nat) : BitVec 128 := if a + 16 ≤ s.memlen then Memory.get128 s.mem a else 0

/-- `MemWrite(a, 4, w)`. -/
def State.write32 (s : State) (a : Nat) (w : BitVec 32) : State :=
  if a + 4 ≤ s.memlen then s.setMem (Memory.put32 s.mem a w) else s

/-- `MemWrite(a, 16, w)`. -/
def State.write128 (s : State) (a : Nat) (w : BitVec 128) : State :=
  if a + 16 ≤ s.memlen then s.setMem (Memory.put128 s.mem a w) else s

/-! ## Slices and regions (R71) -/

/-- Is the range present, that is wholly inside storage? A range that ends before it starts is not present
(log entry 11). -/
def State.present (s : State) (r : ByteRange) : Bool := decide (r.start ≤ r.stop) && decide (r.stop ≤ s.memlen)

/-- The bytes of a range. -/
def State.bytesOf (s : State) (r : ByteRange) : List Byte :=
  (List.range (r.stop - r.start)).map (fun j => Memory.byteAt s.mem (r.start + j))

/-- `get(range)`: the bytes, or not present. -/
def State.getSlice (s : State) (r : ByteRange) : Option (List Byte) :=
  if s.present r then some (s.bytesOf r) else none

/-- A write through `get_mut(range)`: `data` at the front of the slice, and nothing when the range is not present. -/
def State.putSlice (s : State) (r : ByteRange) (data : List Byte) : State :=
  if s.present r then s.setMem (Memory.copyIn s.mem r.start (data.take (r.stop - r.start))) else s

/-- `get_region(tag)`. -/
def State.getRegion (s : State) (tag : RegionTag) : Option (List Byte) :=
  (s.regions.get tag).bind s.getSlice

/-- A write through `get_region_mut(tag)`. -/
def State.putRegion (s : State) (tag : RegionTag) (data : List Byte) : State :=
  match s.regions.get tag with
  | none => s
  | some r => s.putSlice r data

/-! ## Screen read-back (R72, R73) -/

/-- The width a screen dump of `len` bytes stands for (R72). -/
def dumpWidth (len : Nat) : Nat := 2 ^ (Nat.log2 len / 2 + 2)

/-- The height (R72). -/
def dumpHeight (len : Nat) : Nat := dumpWidth len / 2

/-- Row `r`, column `c` of a screen dump (R72): bit `7 - c mod 8` of byte `r * (W/8) + c div 8`. -/
def dumpPixel (dump : List Byte) (r c : Nat) : Bool :=
  (dump.getD (r * (dumpWidth dump.length / 8) + c / 8) 0).getLsbD (7 - c % 8)

/-- A screen dump as rows of pixels. -/
def dumpRows (dump : List Byte) : List (List Bool) :=
  (List.range (dumpHeight dump.length)).map fun r =>
    (List.range (dumpWidth dump.length)).map fun c => dumpPixel dump r c

/-- `print_screen()` (R73): the bitmap, or `none` for the "missing region" condition. It changes no state. -/
def State.printScreen (s : State) : Option (List (List Bool)) := (s.getRegion .screen).map dumpRows

/-! ## Construction, boot and resets -/

/-- `new(.., breakpoints, flags)` (R50): every field of the CPU at its construction value. Memory and regions are the
Bus's and the random source is the process's: all are kept (log entries 2 and 4). -/
def construct (breakpoints : List Word) (flags : Flags) (s : State) : State where
  v := Vector.replicate 16 0
  I := 0
  pc := Config.pcBase
  sp := Config.spBase
  delay := 0
  sound := 0
  keys := Vector.replicate 16 false
  lastkey := none
  mem := s.mem
  memlen := s.memlen
  regions := s.regions
  cycle := 0
  breakpoints := sortAddrs breakpoints
  flags := flags
  rngDraws := s.rngDraws

/-- `soft_reset()` (R320). -/
def softReset (s : State) : State :=
  ((((s.setPc Config.pcBase).setSp Config.spBase).setKeypause false).setDrawWait false).setLastkey none

/-- `hard_reset(rom)` (R321): a fresh CPU with the current flags and breakpoints, the ROM reloaded, Screen cleared. -/
def hardReset (rom : List Byte) (s : State) : State :=
  (((construct s.breakpoints s.flags s).clearRegion .program).loadRegion .program rom).clearRegion .screen

/-- A block with an empty bus: no storage, no region declared. -/
def unbuilt : State where
  v := Vector.replicate 16 0
  I := 0
  pc := 0
  sp := 0
  delay := 0
  sound := 0
  keys := Vector.replicate 16 false
  lastkey := none
  mem := []
  memlen := 0
  regions := ⟨none, none, none, none⟩
  cycle := 0
  breakpoints := []
  flags := Flags.default
  rngDraws := 0

/-- Step 1 of the boot (R323): declare Charset, Program, Stack and Screen, Screen in the size `draw_mode` selects. -/
def declareRegions (drawMode : Bool) (s : State) : State :=
  (((s.setRegion .charset ⟨Config.fontBase.toNat, Config.fontBase.toNat + 80⟩).setRegion .program
      ⟨Config.pcBase.toNat, Config.programEnd⟩).setRegion .stack
      ⟨Config.spBase.toNat - 2 * (Config.stackDepth - 1), Config.spBase.toNat + 2⟩).setRegion .screen
    (screenRange drawMode)

/-- The test-suite flag word at 0x01FE, when the host pokes it (R325). -/
def pokeTestWord (testWord : Option Word) (s : State) : State :=
  match testWord with
  | none => s
  | some w => s.writeWord 0x01FE w

/-- The boot (R323): declare the regions, load the font, load the ROM, poke the test word, construct the CPU. -/
def boot (rom : List Byte) (testWord : Option Word) (breakpoints : List Word) (flags : Flags) : State :=
  construct breakpoints flags
    (pokeTestWord testWord
      (((declareRegions flags.drawMode unbuilt).loadRegion .charset font).loadRegion .program rom))

end Sys2Proof.Machine
end

