-- ==== Sys2Proof/Machine/HostCalls.lean ====
section
/-! DEFINITION. The host interface as a whole (spec/60_exceptions.md R290): one constructor per operation, its effect
and reply, and the host's contract (R314, R295). Host calls happen between ticks and are not steps of the machine, but for
`tick`, which is `step` (log entry 7). -/

namespace Sys2Proof.Machine

/-- The operations of R290. -/
inductive HostCall where
  | new (breakpoints : List Word) (flags : Flags)
  | tick
  | singlestep
  | multistep (n : Nat)
  | tickTimer
  | press (k : Nat)
  | release (k : Nat)
  | setBreak (a : Word)
  | unsetBreak (a : Word)
  | readPc
  | dump
  | togglePause
  | toggleDebug
  | readFlags
  | writeFlags (f : Flags)
  | writeQuirks (q : Quirks)
  | toggleQuirks (toggle : Quirks)
  | setMode (m : Mode)
  | setResolution (hires : Bool)
  | addRegion (tag : RegionTag) (range : ByteRange)
  | setRegion (tag : RegionTag) (range : ByteRange)
  | loadRegion (tag : RegionTag) (data : List Byte)
  | clearRegion (tag : RegionTag)
  | get (range : ByteRange)
  | getMut (range : ByteRange) (data : List Byte)
  | getRegion (tag : RegionTag)
  | getRegionMut (tag : RegionTag) (data : List Byte)
  | read8 (a : Nat)
  | read16 (a : Nat)
  | read32 (a : Nat)
  | read128 (a : Nat)
  | write8 (a : Nat) (w : BitVec 8)
  | write16 (a : Nat) (w : BitVec 16)
  | write32 (a : Nat) (w : BitVec 32)
  | write128 (a : Nat) (w : BitVec 128)
  | printScreen
  | softReset
  | hardReset (rom : List Byte)
  deriving DecidableEq, Repr

/-- What the host gets back. -/
inductive HostReply where
  | done
  | ticked (o : TickOutcome)
  | multistepped (o : MultiOutcome)
  | value (n : Nat)
  | flags (f : Flags)
  | bytes (b : Option (List Byte))
  /-- The register state `dump()` prints (R307; log entry 9). -/
  | registers (v : Vector Byte 16) (I pc sp : Word) (delay sound : Byte) (cycle : Nat)
  | bitmap (rows : List (List Bool))
  /-- `print_screen` with Screen undeclared (R73, R289). -/
  | missingRegion
  deriving DecidableEq, Repr

/-- Do two ranges share a byte? R314 does not say what overlaps: the model's choice is a shared byte, so an empty range
overlaps none, wherever it lies (log entry 7). -/
def ByteRange.overlaps (r q : ByteRange) : Bool := decide (max r.start q.start < min r.stop q.stop)

/-- Does `range`, as the region `tag`, overlap another declared region? -/
def overlapsOther (regions : Regions) (tag : RegionTag) (range : ByteRange) : Bool :=
  [RegionTag.charset, .program, .screen, .stack].any fun other =>
    decide (other ≠ tag) && ((regions.get other).elim false range.overlaps)

/-- A region declaration the contract allows (R314 items 1, 2 and 4): a range that ends where it starts or later and
not past 0x10000, overlapping no other region, and for Screen the size `draw_mode` selects. -/
def regionAllowed (tag : RegionTag) (range : ByteRange) (s : State) : Bool :=
  decide (range.start ≤ range.stop) && decide (range.stop ≤ 0x10000) && !overlapsOther s.regions tag range &&
    (decide (tag ≠ .screen) || decide (range = screenRange s.flags.drawMode))

/-- Does the flag write `f` end a wait of `s`? Only the duties of R295 end one: `release` a KeyWait, `tick_timer` a
Draw-wait, `pause()` and `singlestep` a pause (R38). -/
def endsWait (f : Flags) (s : State) : Bool :=
  (s.flags.pause && !f.pause) || (s.flags.keypause && !f.keypause) || (s.flags.drawWait && !f.drawWait)

/-- The contract of R314: no overlap, no Screen range that disagrees with `draw_mode`, no region past 0x10000; and, of
R295, no flag write that ends a wait. A call outside it has no move (log entries 7 and 12). -/
def HostCall.allowed (c : HostCall) (s : State) : Bool :=
  match c with
  | .new _ f => decide (s.regions.screen = some (screenRange f.drawMode))
  | .writeFlags f => decide (f.drawMode = s.flags.drawMode) && !endsWait f s
  | .setResolution hires => !overlapsOther s.regions .screen (screenRange hires)
  | .addRegion tag range => regionAllowed tag range s
  | .setRegion tag range => regionAllowed tag range s
  | .tick | .singlestep | .multistep _ | .tickTimer | .press _ | .release _ | .setBreak _ | .unsetBreak _
  | .readPc | .dump | .togglePause | .toggleDebug | .readFlags | .writeQuirks _ | .toggleQuirks _ | .setMode _
  | .loadRegion _ _ | .clearRegion _ | .get _ | .getMut _ _ | .getRegion _ | .getRegionMut _ _
  | .read8 _ | .read16 _ | .read32 _ | .read128 _ | .write8 _ _ | .write16 _ _ | .write32 _ _ | .write128 _ _
  | .printScreen | .softReset | .hardReset _ => true

/-- The effect and the reply of a host call, for an engine whose HIRES_OPCODES is `hires` (R290). -/
def hostCall (hires : Bool) (c : HostCall) (s : State) : HostReply × State :=
  match c with
  | .new bps f => (.done, construct bps f s)
  | .tick => let r := Machine.tick hires s; (.ticked r.1, r.2)
  | .singlestep => let r := Machine.singlestep hires s; (.ticked r.1, r.2)
  | .multistep n => let r := Machine.multistep hires n s; (.multistepped r.1, r.2)
  | .tickTimer => (.done, hostTickTimer s)
  | .press k => (.done, hostPress k s)
  | .release k => (.done, hostRelease k s)
  | .setBreak a => (.done, hostSetBreak a s)
  | .unsetBreak a => (.done, hostUnsetBreak a s)
  | .readPc => (.value s.pc.toNat, s)
  | .dump => (.registers s.v s.I s.pc s.sp s.delay s.sound s.cycle, s)
  | .togglePause => (.done, hostTogglePause s)
  | .toggleDebug => (.done, hostToggleDebug s)
  | .readFlags => (.flags s.flags, s)
  | .writeFlags f => (.done, s.setFlags f)
  | .writeQuirks q => (.done, hostSetQuirks q s)
  | .toggleQuirks q => (.done, hostToggleQuirks q s)
  | .setMode m => (.done, hostSetMode m s)
  | .setResolution h => (.done, s.switchResolution h)
  | .addRegion tag range => (.done, s.setRegion tag range)
  | .setRegion tag range => (.done, s.setRegion tag range)
  | .loadRegion tag data => (.done, s.loadRegion tag data)
  | .clearRegion tag => (.done, s.clearRegion tag)
  | .get range => (.bytes (s.getSlice range), s)
  | .getMut range data => (.bytes (s.getSlice range), s.putSlice range data)
  | .getRegion tag => (.bytes (s.getRegion tag), s)
  | .getRegionMut tag data => (.bytes (s.getRegion tag), s.putRegion tag data)
  | .read8 a => (.value (s.readByte a).toNat, s)
  | .read16 a => (.value (s.readWord a).toNat, s)
  | .read32 a => (.value (s.read32 a).toNat, s)
  | .read128 a => (.value (s.read128 a).toNat, s)
  | .write8 a w => (.done, s.writeByte a w)
  | .write16 a w => (.done, s.writeWord a w)
  | .write32 a w => (.done, s.write32 a w)
  | .write128 a w => (.done, s.write128 a w)
  | .printScreen => (s.printScreen.elim .missingRegion .bitmap, s)
  | .softReset => (.done, Machine.softReset s)
  | .hardReset rom => (.done, Machine.hardReset rom s)

/-- A host call under the contract: no move outside it (R314). -/
def hostMove (hires : Bool) (c : HostCall) (s : State) : Option (HostReply × State) :=
  if c.allowed s then some (hostCall hires c s) else none

end Sys2Proof.Machine
end

