-- ==== Sys2Proof/Machine/Runs.lean ====
section
/-! DEFINITION. The end of a run (spec/40_engine.md R131): what a run remembers beside the state, the fault it met and the
self-jump that paused it, how a host call moves it, and how it stands. None of this is state of the machine (spec/10_state.md
R20); the choices R131 leaves open are log entry 13. -/

namespace Sys2Proof.Machine

/-- A run of the machine under its host. -/
structure Run where
  /-- The machine's state now. -/
  state : State
  /-- The first fault a tick of the run returned, kept for the rest of the run (R131). -/
  fault : Option Fault
  /-- `some a`: a tick whose outcome was `Stopped(SelfJump, a)` set `flags.pause`, and it has not been cleared since. -/
  selfJump : Option Word
  deriving DecidableEq, Repr

/-- How a run stands. -/
inductive RunStatus where
  /-- The one final state a program can reach: a self-jump set Paused, and `pc` is still at it. -/
  | halted
  /-- A tick returned a fault; never final. -/
  | faulted
  /-- KeyWait, Draw-wait, or Paused by a breakpoint or by the host. -/
  | waitsOnHost
  | running
  deriving DecidableEq, Repr

/-- A run that starts in `s`. -/
def Run.start (s : State) : Run := ⟨s, none, none⟩

/-- The fault a reply reports. -/
def HostReply.faultOf (reply : HostReply) : Option Fault :=
  match reply with
  | .ticked (.fault f) | .multistepped (.fault f) => some f
  | .ticked .ran | .ticked .idle | .ticked (.stopped _ _) | .ticked (.refused _) | .multistepped .budgetExhausted
  | .multistepped (.stopped _ _ _) | .multistepped (.refused _) | .done | .value _ | .flags _ | .bytes _
  | .registers _ _ _ _ _ _ _ | .bitmap _ | .missingRegion => none

/-- The stop a reply reports: its cause and its `pc`. -/
def HostReply.stopOf (reply : HostReply) : Option (StopCause × Word) :=
  match reply with
  | .ticked (.stopped c p) | .multistepped (.stopped c p _) => some (c, p)
  | .ticked .ran | .ticked .idle | .ticked (.fault _) | .ticked (.refused _) | .multistepped .budgetExhausted
  | .multistepped (.fault _) | .multistepped (.refused _) | .done | .value _ | .flags _ | .bytes _
  | .registers _ _ _ _ _ _ _ | .bitmap _ | .missingRegion => none

/-- Does the call clear `flags.pause` or build it anew, so that a pause after it is not the one before it? `singlestep`
clears the flag before its tick and sets it after (R126), `pause()` toggles it (R307), and `new` takes it from its
argument (R50). -/
def HostCall.renewsPause (c : HostCall) : Bool :=
  match c with
  | .new _ _ | .singlestep | .togglePause => true
  | .tick | .multistep _ | .tickTimer | .press _ | .release _ | .setBreak _ | .unsetBreak _ | .readPc | .dump
  | .toggleDebug | .readFlags | .writeFlags _ | .writeQuirks _ | .toggleQuirks _ | .setMode _ | .setResolution _
  | .addRegion _ _ | .setRegion _ _ | .loadRegion _ _ | .clearRegion _ | .get _ | .getMut _ _ | .getRegion _
  | .getRegionMut _ _ | .read8 _ | .read16 _ | .read32 _ | .read128 _ | .write8 _ _ | .write16 _ _ | .write32 _ _
  | .write128 _ _ | .printScreen | .softReset | .hardReset _ => false

/-- The self-jump that set the pause of `t`, after the call `c` answered `reply` in a run that remembered `before`. -/
def selfJumpAfter (c : HostCall) (reply : HostReply) (t : State) (before : Option Word) : Option Word :=
  match reply.stopOf with
  | some (.selfJump, a) => some a
  | some (.breakpoint, _) => none
  | none => if c.renewsPause || !t.flags.pause then none else before

/-- The run after the call `c` answered `reply` and left the machine in `t`. -/
def Run.after (r : Run) (c : HostCall) (reply : HostReply) (t : State) : Run where
  state := t
  fault := r.fault.or reply.faultOf
  selfJump := selfJumpAfter c reply t r.selfJump

/-- A move of a run: a host call under the contract (R314). -/
def Run.move (hires : Bool) (c : HostCall) (r : Run) : Option Run :=
  (hostMove hires c r.state).map fun m => r.after c m.1 m.2

/-- Is the word at `pc` a `1nnn` whose `nnn` is `pc`? (R131) -/
def State.atSelfJump (s : State) : Bool :=
  decide (s.fetch = encode (.jp (s.pc.extractLsb' 0 12))) && decide (zextAddr (s.pc.extractLsb' 0 12) = s.pc)

/-- How a run stands (R131). R131 gives no order between its cases. The model's choices (log entry 13): a fault comes first
and is never lost; then KeyWait and Draw-wait, also over a self-jump's pause; then a pause, which is the halt only while
`pc` is the address of the self-jump that set it and its word still jumps there, and otherwise waits on the host. -/
def runStatus (r : Run) : RunStatus :=
  if r.fault.isSome then .faulted
  else if r.state.flags.keypause || r.state.flags.drawWait then .waitsOnHost
  else if r.state.flags.pause then
    if decide (r.selfJump = some r.state.pc) && r.state.atSelfJump then .halted else .waitsOnHost
  else .running

end Sys2Proof.Machine
end

