-- ==== Sys2Proof/Safety.lean ====
section
/-! DEFINITION. The terms claims use: what an operation leaves unchanged (frames), the invariants of
spec/10_state.md R51 with the canonical forms of the model's own data, the states a host that keeps its contract can
reach, runs without a fault (spec/40_engine.md R131), and a sprite as pixels. -/

namespace Sys2Proof.Machine

/-! ## Frames -/

/-- The parts of the state besides the V registers and `pc`. -/
inductive Part where
  | index
  | stackPtr
  | delay
  | sound
  | keys
  | lastkey
  /-- The length of storage and what every byte reads as. -/
  | memory
  | regions
  | cycle
  | breakpoints
  | flags
  | draws
  deriving DecidableEq, Repr

/-- Is this part of the state the same in `s` and `t`? -/
def Part.Same (p : Part) (s t : State) : Prop :=
  match p with
  | .index => t.I = s.I
  | .stackPtr => t.sp = s.sp
  | .delay => t.delay = s.delay
  | .sound => t.sound = s.sound
  | .keys => t.keys = s.keys
  | .lastkey => t.lastkey = s.lastkey
  | .memory => t.memlen = s.memlen ∧ ∀ a, t.readByte a = s.readByte a
  | .regions => t.regions = s.regions
  | .cycle => t.cycle = s.cycle
  | .breakpoints => t.breakpoints = s.breakpoints
  | .flags => t.flags = s.flags
  | .draws => t.rngDraws = s.rngDraws

/-- The frame of an operation: between `s` and `t` nothing changed but the registers `regs`, the parts `parts`, and
possibly `pc`. -/
def KeepsAllBut (regs : List Nibble) (parts : List Part) (s t : State) : Prop :=
  (∀ r, r ∉ regs → t.getV r = s.getV r) ∧ ∀ p, p ∉ parts → p.Same s t

/-- Memory changed at most in the bytes `stored`: storage is as long as before and every other byte reads as before. -/
def KeepsMemoryBut (stored : Nat → Prop) (s t : State) : Prop :=
  t.memlen = s.memlen ∧ ∀ a, ¬ stored a → t.readByte a = s.readByte a

/-! ## Invariants -/

/-- The stack depth is in 0..STACK_DEPTH and `depth * 2 = (SP_BASE - sp) mod 2^16` (R51.1). -/
def StackOk (s : State) : Prop :=
  s.depth ≤ Config.stackDepth ∧ s.depth * 2 = (Config.spBase - s.sp).toNat

/-- The Screen region is the one `draw_mode` selects (R51.2). -/
def ScreenOk (s : State) : Prop := s.regions.screen = some (screenRange s.flags.drawMode)

/-- Storage covers every declared region (R51.3). -/
def RegionsCovered (s : State) : Prop := ∀ tag r, s.regions.get tag = some r → r.stop ≤ s.memlen

/-- A key is latched only outside KeyWait (R51.4). -/
def KeyLatchOk (s : State) : Prop := s.lastkey ≠ none → s.flags.keypause = false

/-- The invariants that hold between ticks (R51), storage within the 16-bit address space (R314.4), and the canonical
forms of the model's own data: memory and the breakpoint list. -/
structure Inv (s : State) : Prop where
  memWf : Memory.wf s.mem
  memWithin : Memory.within s.mem s.memlen
  memlenBound : s.memlen ≤ 0x10000
  stack : StackOk s
  screen : ScreenOk s
  covered : RegionsCovered s
  latch : KeyLatchOk s
  breakpointsSorted : s.breakpoints.Pairwise (fun a b => a < b)

/-! ## Reachable states -/

/-- A write of the flags that enters KeyWait by hand while a key is latched. R290 lets the host write any flag and
R51.4 says this never holds; claims about R51.4 leave such a call out (log entry 12). -/
def HostCall.forcesKeyWait (c : HostCall) (s : State) : Bool :=
  match c with
  | .writeFlags f => f.keypause && s.lastkey.isSome
  | .new _ _ | .tick | .singlestep | .multistep _ | .tickTimer | .press _ | .release _ | .setBreak _ | .unsetBreak _
  | .readPc | .dump | .togglePause | .toggleDebug | .readFlags | .writeQuirks _ | .toggleQuirks _ | .setMode _
  | .setResolution _ | .addRegion _ _ | .setRegion _ _ | .loadRegion _ _ | .clearRegion _ | .get _ | .getMut _ _
  | .getRegion _ | .getRegionMut _ _ | .read8 _ | .read16 _ | .read32 _ | .read128 _ | .write8 _ _ | .write16 _ _
  | .write32 _ _ | .write128 _ _ | .printScreen | .softReset | .hardReset _ => false

/-- The states that a host keeping the contract (R314) reaches from a booted state (R323), in any number of calls. -/
inductive Reachable (hires : Bool) : State → Prop where
  | boot (rom : List Byte) (testWord : Option Word) (breakpoints : List Word) (flags : Flags) :
      Reachable hires (boot rom testWord breakpoints flags)
  | call (c : HostCall) (s t : State) (reply : HostReply) (from_s : Reachable hires s)
      (latch : c.forcesKeyWait s = false) (moved : hostMove hires c s = some (reply, t)) : Reachable hires t

/-! ## The premise "no fault" (R131) -/

/-- A run of `k` steps that meets no fault. -/
def NoFault (k : Nat) (s : State) : Prop :=
  ∃ t : State, Host.Core.run Sys2Proof.core k s = .next t

/-! ## A sprite as pixels (R233-R235) -/

/-- Is the sprite's pixel in row `r`, column `c` set, by the bytes at `I`? (R234) -/
def spritePixel (s : State) (n : Nibble) (r c : Nat) : Bool :=
  if n = 0 ∧ s.flags.drawMode = true then
    if c < 8 then (s.readByte (s.ea (2 * r))).getLsbD (7 - c)
    else (s.readByte (s.ea (2 * r + 1))).getLsbD (15 - c)
  else (s.readByte (s.ea r)).getLsbD (7 - c)

/-- How many rows and columns `Dxyn` draws (R233): 16 by 16 for `n = 0` in hi-res, else `n` by 8. -/
def spriteSize (s : State) (n : Nibble) : Nat × Nat :=
  if n = 0 ∧ s.flags.drawMode = true then (16, 16) else (n.toNat, 8)

/-- Does `Dxyn` touch the screen pixel `(px, py)` with a set sprite pixel? Row and column are counted from the origin
`(v[x] mod W, v[y] mod H)`, around the screen's edges when `quirks.screen_wrap`, and not past them otherwise. -/
def spriteTouches (s : State) (x y n : Nibble) (px py : Nat) : Prop :=
  let W := s.screenW
  let H := s.screenH
  let x0 := (s.getV x).toNat % W
  let y0 := (s.getV y).toNat % H
  ∃ r c, r < (spriteSize s n).1 ∧ c < (spriteSize s n).2 ∧ spritePixel s n r c = true ∧
    (if s.flags.quirks.screenWrap then px = (x0 + c) % W ∧ py = (y0 + r) % H
     else px = x0 + c ∧ py = y0 + r)

end Sys2Proof.Machine
end

