-- ==== Sys2Proof/Certificates/Slice0/Obligations.lean ====
section
/-! DEFINITION. The statements about the model for the provers. `exec i s` runs in the state after the fetch, whose `pc`
is the fetch address plus 2 (spec/40_engine.md R121); frames and invariants are those of Sys2Proof/Safety.lean. -/

open Sys2Proof Sys2Proof.Machine

/-! ## Encoding (spec/30_encoding.md) -/

/-- Decoding the word of any well-formed instruction gives it back, for every operand value (R90-R107). -/
def Obligations.DecodeInvertsEncode : Prop :=
  ∀ (hires : Bool) (i : Instr), i.wellFormed hires = true → decode hires (encode i) = .instr i

/-- Each word that decodes to an instruction is that instruction's one word (R103, R106, R107). -/
def Obligations.EncodeInvertsDecode : Prop :=
  ∀ (hires : Bool) (w : Word) (i : Instr), decode hires w = .instr i → encode i = w ∧ i.wellFormed hires = true

/-- R95. -/
def Obligations.FamilyZeroMatchesWholeWord : Prop :=
  ∀ (hires : Bool) (nnn : Addr),
    decode hires (0x0#4 ++ nnn) =
      if nnn.toNat = 0x0E0 then .instr .cls
      else if nnn.toNat = 0x0EE then .instr .ret
      else if nnn.toNat = 0x0FE ∧ hires = true then .instr .low
      else if nnn.toNat = 0x0FF ∧ hires = true then .instr .high
      else .unimplemented (0x0#4 ++ nnn)

/-- R96, R97, R98, R99. -/
def Obligations.SubOpcodeFamiliesDispatch : Prop :=
  ∀ (hires : Bool) (x y n : Nibble) (kk : Byte),
    (decode hires (0x5#4 ++ x ++ y ++ n) =
      if n = 0 then .instr (.seReg x y) else .unimplemented (0x5#4 ++ x ++ y ++ n)) ∧
    (decode hires (0x9#4 ++ x ++ y ++ n) =
      if n = 0 then .instr (.sneReg x y) else .unimplemented (0x9#4 ++ x ++ y ++ n)) ∧
    (decode hires (0x8#4 ++ x ++ y ++ n) =
      if n = 0x0 then .instr (.ldReg x y) else if n = 0x1 then .instr (.orReg x y)
      else if n = 0x2 then .instr (.andReg x y) else if n = 0x3 then .instr (.xorReg x y)
      else if n = 0x4 then .instr (.addReg x y) else if n = 0x5 then .instr (.sub x y)
      else if n = 0x6 then .instr (.shr x y) else if n = 0x7 then .instr (.subn x y)
      else if n = 0xE then .instr (.shl x y) else .unimplemented (0x8#4 ++ x ++ y ++ n)) ∧
    (decode hires (0xE#4 ++ x ++ kk) =
      if kk = 0x9E then .instr (.skp x) else if kk = 0xA1 then .instr (.sknp x)
      else .unimplemented (0xE#4 ++ x ++ kk)) ∧
    (decode hires (0xF#4 ++ x ++ kk) =
      if kk = 0x07 then .instr (.ldVxDt x) else if kk = 0x0A then .instr (.ldVxK x)
      else if kk = 0x15 then .instr (.ldDtVx x) else if kk = 0x18 then .instr (.ldStVx x)
      else if kk = 0x1E then .instr (.addI x) else if kk = 0x29 then .instr (.ldF x)
      else if kk = 0x33 then .instr (.ldB x) else if kk = 0x55 then .instr (.ldMemI x)
      else if kk = 0x65 then .instr (.ldRegI x) else .unimplemented (0xF#4 ++ x ++ kk))

/-- The unimplemented space is exactly the list of R100, and an unimplemented word decodes to itself. The counts of
R100 are not stated. -/
def Obligations.UnimplementedSpaceIsExact : Prop :=
  ∀ (hires : Bool) (w : Word),
    (∀ u, decode hires w = .unimplemented u → u = w) ∧
    ((∃ u, decode hires w = .unimplemented u) ↔
      (w.toNat / 4096 = 0 ∧ w.toNat ≠ 0x00E0 ∧ w.toNat ≠ 0x00EE ∧
        ¬ (hires = true ∧ (w.toNat = 0x00FE ∨ w.toNat = 0x00FF))) ∨
      ((w.toNat / 4096 = 5 ∨ w.toNat / 4096 = 9) ∧ w.toNat % 16 ≠ 0) ∨
      (w.toNat / 4096 = 8 ∧ w.toNat % 16 ∈ [0x8, 0x9, 0xA, 0xB, 0xC, 0xD, 0xF]) ∨
      (w.toNat / 4096 = 0xE ∧ w.toNat % 256 ∉ [0x9E, 0xA1]) ∨
      (w.toNat / 4096 = 0xF ∧ w.toNat % 256 ∉ [0x07, 0x0A, 0x15, 0x18, 0x1E, 0x29, 0x33, 0x55, 0x65]))

/-- Words of spec/95_test_vectors.md parts 1 to 3, with the instructions they stand for, one or more for each of the
families 0x0 to 0xF (R92, R94), and three unimplemented words. -/
def Obligations.SampleWordsDecode : Prop :=
  ∀ hires : Bool,
    decode hires 0x00E0 = .instr .cls ∧ decode hires 0x00EE = .instr .ret ∧ decode true 0x00FF = .instr .high ∧
    decode hires 0x1234 = .instr (.jp 0x234) ∧ decode hires 0x2300 = .instr (.call 0x300) ∧
    decode hires 0x3105 = .instr (.seImm 1 0x05) ∧ decode hires 0x4105 = .instr (.sneImm 1 0x05) ∧
    decode hires 0x5120 = .instr (.seReg 1 2) ∧ decode hires 0x71FF = .instr (.addImm 1 0xFF) ∧
    decode hires 0x9120 = .instr (.sneReg 1 2) ∧ decode hires 0xB300 = .instr (.jpV0 0x300) ∧
    decode hires 0x6A5C = .instr (.ldImm 0xA 0x5C) ∧ decode hires 0x8124 = .instr (.addReg 1 2) ∧
    decode hires 0x812E = .instr (.shl 1 2) ∧ decode hires 0xC30F = .instr (.rnd 3 0x0F) ∧
    decode hires 0xA2F0 = .instr (.ldI 0x2F0) ∧ decode hires 0xF255 = .instr (.ldMemI 2) ∧
    decode hires 0xD015 = .instr (.drw 0 1 5) ∧ decode hires 0xE29E = .instr (.skp 2) ∧
    decode hires 0xF50A = .instr (.ldVxK 5) ∧ decode hires 0x5121 = .unimplemented 0x5121 ∧
    decode hires 0x0000 = .unimplemented 0x0000 ∧ decode false 0x00FE = .unimplemented 0x00FE

/-- HIRES_OPCODES changes the decode of 00FE and 00FF only (R102). When it is false no tick changes `draw_mode`, and of the
host calls the contract allows only `set_resolution` does; the contract is R314.2 as log entry 7 reads it (DEDUCED: `new`
with flags that disagree with the Screen region, and a flag write that changes `draw_mode`, have no move). -/
def Obligations.HiresOpcodesGateTheSwitch : Prop :=
  (∀ w : Word, w ≠ 0x00FE → w ≠ 0x00FF → decode true w = decode false w) ∧
  decode false 0x00FE = .unimplemented 0x00FE ∧ decode false 0x00FF = .unimplemented 0x00FF ∧
  (∀ s : State, (tick false s).2.flags.drawMode = s.flags.drawMode) ∧
  (∀ (c : HostCall) (s t : State) (reply : HostReply), ScreenOk s → hostMove false c s = some (reply, t) →
    t.flags.drawMode ≠ s.flags.drawMode → ∃ h, c = .setResolution h) ∧
  (∀ (s : State) (h : Bool), (hostCall false (.setResolution h) s).2.flags.drawMode = h)

/-- The disassembler mirrors the decoder (R104): a word renders as "inval" exactly when it is unimplemented, and distinctly,
with its own word. -/
def Obligations.DisassemblyMirrorsDecoder : Prop :=
  ∀ (hires : Bool) (w : Word),
    ((∃ i, decode hires w = .instr i) → ∃ m ops, disassemble hires w = .text m ops) ∧
    ((∃ u, decode hires w = .unimplemented u) → disassemble hires w = .inval w)

/-! ## The engine (spec/40_engine.md) -/

/-- R121, with the outcomes of R128 and the fetch of R122. -/
def Obligations.TickFollowsItsPseudocode : Prop :=
  ∀ (hires : Bool) (s : State),
    let stalled := s.flags.pause = true ∨ s.flags.keypause = true ∨ s.flags.drawWait = true
    let decoded := decode hires (s.readWord s.pc.toNat)
    let fetched : State := { s with pc := s.pc + 2 }
    (stalled → tick hires s = (.idle, s)) ∧
    (¬ stalled → ∀ w, decoded = .unimplemented w → tick hires s = (.fault (.unimplemented w s.pc), fetched)) ∧
    (¬ stalled → ∀ i f, decoded = .instr i → exec i fetched = .fault f → tick hires s = (.fault f, fetched)) ∧
    (¬ stalled → ∀ i t, decoded = .instr i → exec i fetched = .next t →
      tick hires s =
        if t.pc ∈ t.breakpoints then
          (.stopped .breakpoint t.pc, { t with cycle := t.cycle + 1, flags := { t.flags with pause := true } })
        else if t.flags.pause = true then (.stopped .selfJump t.pc, { t with cycle := t.cycle + 1 })
        else (.ran, { t with cycle := t.cycle + 1 }))

/-- A step runs the instruction that the bytes at `pc` decode to: `exec` in the state with `pc` advanced by 2, then
one more cycle and the breakpoint check (R121). -/
def Obligations.StepRunsTheDecodedInstruction : Prop :=
  ∀ (s : State) (i : Instr),
    s.flags.pause = false → s.flags.keypause = false → s.flags.drawWait = false →
    decode Config.hiresOpcodes (s.readWord s.pc.toNat) = .instr i →
    (∀ t, exec i { s with pc := s.pc + 2 } = .next t →
      step s = .next
        { t with cycle := t.cycle + 1
                 flags := { t.flags with pause := t.flags.pause || decide (t.pc ∈ t.breakpoints) } }) ∧
    (∀ f, exec i { s with pc := s.pc + 2 } = .fault f → step s = .fault f)

/-- R122: the fetch takes the two bytes at `pc`, odd or even, first byte high; past the end of storage the word is 0 and the
tick faults. -/
def Obligations.FetchPastStorageFaults : Prop :=
  ∀ (hires : Bool) (s : State),
    (s.pc.toNat + 2 ≤ s.memlen → s.fetch = s.readByte s.pc.toNat ++ s.readByte (s.pc.toNat + 1)) ∧
    (s.memlen < s.pc.toNat + 2 → s.fetch = 0 ∧
      (s.flags.pause = false → s.flags.keypause = false → s.flags.drawWait = false →
        tick hires s = (.fault (.unimplemented 0 s.pc), { s with pc := s.pc + 2 })))

/-- R286, R280: a fault names the word at the fetch address and that address, and leaves everything but `pc` as it
was. -/
def Obligations.FaultsArePrecise : Prop :=
  ∀ (hires : Bool) (s t : State) (f : Fault), tick hires s = (.fault f, t) →
    t = { s with pc := s.pc + 2 } ∧
    (f = .unimplemented (s.readWord s.pc.toNat) s.pc ∨ f = .stackOverflow (s.readWord s.pc.toNat) s.pc ∨
      f = .stackUnderflow (s.readWord s.pc.toNat) s.pc)

/-- The conditions of the three faults (R281, R282, R283), that there is no other (R284), and that no instruction is
refused. -/
def Obligations.FaultsAriseExactlyHere : Prop :=
  ∀ (hires : Bool) (s : State), s.flags.pause = false → s.flags.keypause = false → s.flags.drawWait = false →
    let decoded := decode hires (s.readWord s.pc.toNat)
    ((∃ f, (tick hires s).1 = .fault f) ↔
      ((∃ w, decoded = .unimplemented w) ∨
        (∃ nnn, decoded = .instr (.call nnn) ∧ (Config.spBase - s.sp).toNat / 2 = 16) ∨
        (decoded = .instr .ret ∧ s.sp = Config.spBase))) ∧
    (∀ r, (tick hires s).1 ≠ .refused r)

/-- R34: `cycle` counts the ticks that execute an instruction without a fault. -/
def Obligations.CycleCountsExecutedInstructions : Prop :=
  ∀ (hires : Bool) (s : State),
    ((tick hires s).1 = .idle → (tick hires s).2.cycle = s.cycle) ∧
    ((∃ f, (tick hires s).1 = .fault f) → (tick hires s).2.cycle = s.cycle) ∧
    ((tick hires s).1 = .ran ∨ (∃ c p, (tick hires s).1 = .stopped c p) → (tick hires s).2.cycle = s.cycle + 1)

/-- R125: the breakpoints are tested against the `pc` an executed instruction leaves, and only then. -/
def Obligations.BreakpointsStopAfterTheInstruction : Prop :=
  ∀ (hires : Bool) (s t : State) (o : TickOutcome), tick hires s = (o, t) →
    ((∃ p, o = .stopped .breakpoint p) ↔
      (o ≠ .idle ∧ (∀ f, o ≠ .fault f) ∧ t.pc ∈ s.breakpoints)) ∧
    (∀ p, o = .stopped .breakpoint p → p = t.pc ∧ t.flags.pause = true)

/-- R152: a `JP` to its own address sets Paused, and a `CALL` or a `Bnnn` to its own address does not (where that address
is no breakpoint, which would set Paused on its own account). -/
def Obligations.SelfJumpHalts : Prop :=
  ∀ (hires : Bool) (s : State), s.flags.pause = false → s.flags.keypause = false → s.flags.drawWait = false →
    (∀ nnn : Addr, s.readWord s.pc.toNat = 0x1#4 ++ nnn → nnn.toNat = s.pc.toNat →
      tick hires s =
        (.stopped (if s.pc ∈ s.breakpoints then .breakpoint else .selfJump) s.pc,
          { s with cycle := s.cycle + 1, flags := { s.flags with pause := true } }) ∧
      tick hires (tick hires s).2 = (.idle, (tick hires s).2)) ∧
    (s.pc ∉ s.breakpoints →
      (∀ nnn : Addr, s.readWord s.pc.toNat = 0x2#4 ++ nnn → nnn.toNat = s.pc.toNat →
        (tick hires s).2.flags.pause = false) ∧
      (∀ nnn : Addr, s.readWord s.pc.toNat = 0xB#4 ++ nnn →
        (tick hires s).2.pc = s.pc → (tick hires s).2.flags.pause = false))

/-- R126 and R127: a single step is one tick from an unpaused engine, left Paused, and nothing in KeyWait or Draw-wait; a
multistep of 0 does nothing, of 1 is one tick, and of `m + n` is one of `m` and then, if its budget ran out, one of `n`; a
stalled multistep changes nothing. R127's "unless a host call intervenes" has no case here: that no host call lands between
the ticks of a multistep is the model's choice (log entry 16, DESIGN CHOICE). -/
def Obligations.SteppingOperations : Prop :=
  ∀ (hires : Bool) (s : State) (m n : Nat),
    (let r := tick hires { s with flags := { s.flags with pause := false } }
     singlestep hires s = (r.1, { r.2 with flags := { r.2.flags with pause := true } })) ∧
    (s.flags.keypause = true ∨ s.flags.drawWait = true →
      singlestep hires s = (.idle, { s with flags := { s.flags with pause := true } })) ∧
    multistep hires 0 s = (.budgetExhausted, s) ∧
    (∀ o t, tick hires s = (o, t) →
      (o = .ran ∨ o = .idle → multistep hires 1 s = (.budgetExhausted, t)) ∧
      (∀ c p, o = .stopped c p → multistep hires 1 s = (.stopped c p (decode hires (t.readWord p.toNat)), t)) ∧
      (∀ f, o = .fault f → multistep hires 1 s = (.fault f, t))) ∧
    (multistep hires (m + n) s =
      if (multistep hires m s).1 = .budgetExhausted then multistep hires n (multistep hires m s).2
      else multistep hires m s) ∧
    (s.flags.pause = true ∨ s.flags.keypause = true ∨ s.flags.drawWait = true →
      multistep hires n s = (.budgetExhausted, s))

/-! ## Invariants (spec/10_state.md R51) -/

/-- Every step keeps the invariants, from every state that has them. -/
def Obligations.StepKeepsInvariant : Prop := ∀ s t : State, Inv s → step s = .next t → Inv t

/-- The state after reset has the invariants. -/
def Obligations.ResetMeetsInvariant : Prop := Inv State.reset

/-- Every host call that the contract allows keeps the invariants, whether or not 00FE/00FF are instructions; a write
of the flags that enters KeyWait by hand while a key is latched is left out (log entry 12). The contract is R314 and R295
as log entries 7 and 12 read them. -/
def Obligations.HostCallsKeepInvariant : Prop :=
  ∀ (hires : Bool) (c : HostCall) (s t : State) (reply : HostReply),
    Inv s → c.forcesKeyWait s = false → hostMove hires c s = some (reply, t) → Inv t

/-- Every state that a host keeping the contract reaches from any booted state has the invariants (R51; log entry
12). -/
def Obligations.ReachableStatesMeetInvariant : Prop :=
  ∀ (hires : Bool) (s : State), Reachable hires s → Inv s

/-! ## Rules over all instructions -/

/-- Which instructions write which part of the state (R24, R26, R28, R29, R31, R32, R36; memory: R67; the random source:
R194, whose count of draws is the model's own field, log entry 2): every other instruction leaves it. -/
def Obligations.OnlyNamedInstructionsWrite : Prop :=
  ∀ (i : Instr) (s t : State), exec i s = .next t →
    (t.sp ≠ s.sp → (∃ nnn, i = .call nnn) ∨ i = .ret) ∧
    (t.delay ≠ s.delay → ∃ x, i = .ldDtVx x) ∧
    (t.sound ≠ s.sound → ∃ x, i = .ldStVx x) ∧
    (t.lastkey ≠ s.lastkey → ∃ x, i = .ldVxK x) ∧
    (t.I ≠ s.I → (∃ nnn, i = .ldI nnn) ∨ (∃ x, i = .addI x) ∨ (∃ x, i = .ldF x) ∨
      (s.flags.quirks.dmaInc = false ∧ ∃ x, i = .ldMemI x ∨ i = .ldRegI x)) ∧
    (t.flags.pause ≠ s.flags.pause → ∃ nnn, i = .jp nnn) ∧
    (t.flags.keypause ≠ s.flags.keypause → ∃ x, i = .ldVxK x) ∧
    (t.flags.drawWait ≠ s.flags.drawWait → s.flags.quirks.drawWait = false ∧ ∃ x y n, i = .drw x y n) ∧
    (t.flags.drawMode ≠ s.flags.drawMode ∨ t.regions ≠ s.regions ∨ t.memlen ≠ s.memlen → i = .low ∨ i = .high) ∧
    (t.rngDraws ≠ s.rngDraws → ∃ x kk, i = .rnd x kk) ∧
    ((∃ a, t.readByte a ≠ s.readByte a) →
      (∃ nnn, i = .call nnn) ∨ (∃ x, i = .ldB x ∨ i = .ldMemI x) ∨ (∃ x y n, i = .drw x y n) ∨
        i = .cls ∨ i = .low ∨ i = .high)

/-- No instruction writes what only the host or the tick writes: the keypad (R30), the cycle counter (R34), the
breakpoints (R35), and the flags `debug`, `mode`, `quirks` and `monotonic` (R36, R48); storage never shrinks (R32). -/
def Obligations.NoInstructionWritesHostState : Prop :=
  ∀ (i : Instr) (s t : State), exec i s = .next t →
    t.keys = s.keys ∧ t.cycle = s.cycle ∧ t.breakpoints = s.breakpoints ∧ t.flags.debug = s.flags.debug ∧
    t.flags.mode = s.flags.mode ∧ t.flags.quirks = s.flags.quirks ∧ t.flags.monotonic = s.flags.monotonic ∧
    s.memlen ≤ t.memlen

/-- R22: which instructions can change vF, as the flag or as the register they name. -/
def Obligations.FlagRegisterWriters : Prop :=
  ∀ (i : Instr) (s t : State), exec i s = .next t → t.getV vF ≠ s.getV vF →
    (∃ x y, i = .orReg x y ∨ i = .andReg x y ∨ i = .xorReg x y) ∨
    (∃ x y, i = .addReg x y ∨ i = .sub x y ∨ i = .subn x y ∨ i = .shr x y ∨ i = .shl x y) ∨
    (∃ x y n, i = .drw x y n) ∨
    (∃ kk, i = .ldImm vF kk ∨ i = .addImm vF kk ∨ i = .rnd vF kk) ∨ (∃ y, i = .ldReg vF y) ∨
    i = .ldVxDt vF ∨ i = .ldVxK vF ∨ i = .ldRegI vF

/-- No instruction can see the bookkeeping state: changing the cycle counter (R34), the breakpoints (R312), the flags
`debug`, `mode` and `monotonic` (R37, R42, R43) before an instruction changes nothing
after it but those same fields. It compares two runs that draw the same random bytes, which R129 has as a premise: for
`Cxkk` the model gives two runs at one count of draws the same byte (log entry 2, DESIGN CHOICE). -/
def Obligations.BookkeepingIsInvisible : Prop :=
  ∀ (i : Instr) (s : State) (cycle : Nat) (bps : List Word) (debug : Bool) (mode : Mode) (monotonic : Option Nat),
    let hide : State → State := fun u =>
      { u with cycle := cycle, breakpoints := bps
               flags := { u.flags with debug := debug, mode := mode, monotonic := monotonic } }
    (∀ t, exec i s = .next t → exec i (hide s) = .next (hide t)) ∧
    (∀ f, exec i s = .fault f → exec i (hide s) = .fault f)

/-! ## Register arithmetic, logic and random (spec/42_alu.md) -/

/-- R182, R183, R184: the words and their effects. -/
def Obligations.RegisterLoads : Prop :=
  ∀ (hires : Bool) (x y : Nibble) (kk : Byte) (s : State),
    decode hires (0x6#4 ++ x ++ kk) = .instr (.ldImm x kk) ∧ decode hires (0x7#4 ++ x ++ kk) = .instr (.addImm x kk) ∧
    decode hires (0x8#4 ++ x ++ y ++ 0x0#4) = .instr (.ldReg x y) ∧
    (∃ t, exec (.ldImm x kk) s = .next t ∧ t.getV x = kk ∧ t.pc = s.pc ∧ KeepsAllBut [x] [] s t) ∧
    (∃ t, exec (.addImm x kk) s = .next t ∧ (t.getV x).toNat = ((s.getV x).toNat + kk.toNat) % 256 ∧
      t.pc = s.pc ∧ KeepsAllBut [x] [] s t) ∧
    (∃ t, exec (.ldReg x y) s = .next t ∧ t.getV x = s.getV y ∧ t.pc = s.pc ∧ KeepsAllBut [x] [] s t)

/-- R185, R186, R187, R188. -/
def Obligations.LogicOperations : Prop :=
  ∀ (hires : Bool) (x y : Nibble) (s : State) (p : Instr × Nibble × Byte),
    p ∈ [(.orReg x y, 1, s.getV x ||| s.getV y), (.andReg x y, 2, s.getV x &&& s.getV y),
      (.xorReg x y, 3, s.getV x ^^^ s.getV y)] →
    decode hires (0x8#4 ++ x ++ y ++ p.2.1) = .instr p.1 ∧
    ∃ t, exec p.1 s = .next t ∧ t.pc = s.pc ∧ KeepsAllBut [x, vF] [] s t ∧
      (x ≠ vF → t.getV x = p.2.2) ∧
      (s.flags.quirks.binOps = false → t.getV vF = 0) ∧
      (s.flags.quirks.binOps = true → t.getV vF = if x = vF then p.2.2 else s.getV vF)

/-- R189, R190, R192: the exact result modulo 256, and carry or NOT borrow in vF, which a destination vF keeps. -/
def Obligations.AddAndSubtract : Prop :=
  ∀ (hires : Bool) (x y : Nibble) (s : State) (p : Instr × Nibble × Nat × Bool),
    let a := (s.getV x).toNat
    let b := (s.getV y).toNat
    p ∈ [(.addReg x y, 4, (a + b) % 256, decide (a + b > 255)), (.sub x y, 5, (a + 256 - b) % 256, decide (a ≥ b)),
      (.subn x y, 7, (b + 256 - a) % 256, decide (b ≥ a))] →
    decode hires (0x8#4 ++ x ++ y ++ p.2.1) = .instr p.1 ∧
    ∃ t, exec p.1 s = .next t ∧ t.pc = s.pc ∧ KeepsAllBut [x, vF] [] s t ∧
      (x ≠ vF → (t.getV x).toNat = p.2.2.1) ∧ t.getV vF = (if p.2.2.2 then 1 else 0)

/-- R191, R193: the source by `quirks.shift`, and the bit shifted out in vF, which a destination vF keeps. -/
def Obligations.Shifts : Prop :=
  ∀ (hires : Bool) (x y : Nibble) (s : State) (p : Instr × Nibble × Nat × Nat),
    let src := (if s.flags.quirks.shift then s.getV x else s.getV y).toNat
    p ∈ [(.shr x y, 6, src / 2, src % 2), (.shl x y, 0xE, src * 2 % 256, src / 128)] →
    decode hires (0x8#4 ++ x ++ y ++ p.2.1) = .instr p.1 ∧
    ∃ t, exec p.1 s = .next t ∧ t.pc = s.pc ∧ KeepsAllBut [x, vF] [] s t ∧
      (x ≠ vF → (t.getV x).toNat = p.2.2.1) ∧ (t.getV vF).toNat = p.2.2.2

/-- One draw, and no bit outside the mask, whatever byte is drawn (R194). That the byte is `Config.rngByte` at the model's
own count of draws is log entry 2 (DESIGN CHOICE). -/
def Obligations.RandomUnderMask : Prop :=
  ∀ (hires : Bool) (x : Nibble) (kk : Byte) (s : State),
    decode hires (0xC#4 ++ x ++ kk) = .instr (.rnd x kk) ∧
    ∃ t, exec (.rnd x kk) s = .next t ∧ t.pc = s.pc ∧ t.rngDraws = s.rngDraws + 1 ∧
      t.getV x = Config.rngByte s.rngDraws &&& kk ∧ t.getV x &&& ~~~kk = 0 ∧ (t.getV x).toNat ≤ kk.toNat ∧
      KeepsAllBut [x] [.draws] s t

/-! ## Control flow (spec/41_control_flow.md) -/

/-- R154 and R161. -/
def Obligations.Jumps : Prop :=
  ∀ (hires : Bool) (nnn : Addr) (s : State),
    decode hires (0x1#4 ++ nnn) = .instr (.jp nnn) ∧ decode hires (0xB#4 ++ nnn) = .instr (.jpV0 nnn) ∧
    (∃ t, exec (.jp nnn) s = .next t ∧ t.pc.toNat = nnn.toNat ∧
      t.flags = { s.flags with pause := s.flags.pause || decide (nnn.toNat = (s.pc - 2).toNat) } ∧
      KeepsAllBut [] [.flags] s t) ∧
    (∃ t, exec (.jpV0 nnn) s = .next t ∧
      t.pc.toNat =
        (nnn.toNat + (s.getV (if s.flags.quirks.stupidJumps then BitVec.ofNat 4 (nnn.toNat / 256) else 0)).toNat)
          % 65536 ∧
      KeepsAllBut [] [] s t)

/-- R155 and the push of R150, with the fault of R282. -/
def Obligations.CallPushesReturnAddress : Prop :=
  ∀ (hires : Bool) (nnn : Addr) (s : State),
    decode hires (0x2#4 ++ nnn) = .instr (.call nnn) ∧
    ((Config.spBase - s.sp).toNat / 2 = 16 →
      exec (.call nnn) s = .fault (.stackOverflow (BitVec.ofNat 16 (0x2000 + nnn.toNat)) (s.pc - 2))) ∧
    ((Config.spBase - s.sp).toNat / 2 ≠ 16 →
      ∃ t, exec (.call nnn) s = .next t ∧ t.pc.toNat = nnn.toNat ∧ t.sp = s.sp - 2 ∧
        (s.sp.toNat + 2 ≤ s.memlen →
          (t.readByte s.sp.toNat).toNat = s.pc.toNat / 256 ∧ (t.readByte (s.sp.toNat + 1)).toNat = s.pc.toNat % 256) ∧
        (s.memlen < s.sp.toNat + 2 → ∀ a, t.readByte a = s.readByte a) ∧
        KeepsMemoryBut (fun a => a = s.sp.toNat ∨ a = s.sp.toNat + 1) s t ∧
        KeepsAllBut [] [.memory, .stackPtr] s t)

/-- R153 and the pop of R151, with the fault of R283. -/
def Obligations.ReturnPopsAddress : Prop :=
  ∀ (hires : Bool) (s : State),
    decode hires 0x00EE = .instr .ret ∧
    (s.sp = Config.spBase → exec .ret s = .fault (.stackUnderflow 0x00EE (s.pc - 2))) ∧
    (s.sp ≠ Config.spBase →
      ∃ t, exec .ret s = .next t ∧ t.sp = s.sp + 2 ∧
        t.pc.toNat =
          (if (s.sp + 2).toNat + 2 ≤ s.memlen then
            (s.readByte (s.sp + 2).toNat).toNat * 256 + (s.readByte ((s.sp + 2).toNat + 1)).toNat
          else 0) ∧
        KeepsAllBut [] [.stackPtr] s t)

/-- A call followed by a return comes back to the instruction after the call, with the stack as before (R155). -/
def Obligations.CallThenReturn : Prop :=
  ∀ (nnn : Addr) (s : State), StackOk s → s.depth < 16 → s.sp.toNat + 2 ≤ s.memlen →
    ∃ t u, exec (.call nnn) s = .next t ∧ exec .ret t = .next u ∧ u.pc = s.pc ∧ u.sp = s.sp

/-- R156, R157, R158, R159, R160. -/
def Obligations.RegisterSkips : Prop :=
  ∀ (hires : Bool) (x y : Nibble) (kk : Byte) (s : State) (p : Instr × Word × Bool),
    p ∈ [(.seImm x kk, 0x3#4 ++ x ++ kk, decide ((s.getV x).toNat = kk.toNat)),
      (.sneImm x kk, 0x4#4 ++ x ++ kk, decide ((s.getV x).toNat ≠ kk.toNat)),
      (.seReg x y, 0x5#4 ++ x ++ y ++ 0x0#4, decide ((s.getV x).toNat = (s.getV y).toNat)),
      (.sneReg x y, 0x9#4 ++ x ++ y ++ 0x0#4, decide ((s.getV x).toNat ≠ (s.getV y).toNat))] →
    decode hires p.2.1 = .instr p.1 ∧
    ∃ t, exec p.1 s = .next t ∧ t.pc.toNat = (if p.2.2 then (s.pc.toNat + 2) % 65536 else s.pc.toNat) ∧
      KeepsAllBut [] [] s t

/-! ## Timers and keys (spec/45_timers_keys.md) -/

/-- R260, R261, R262. -/
def Obligations.KeySkips : Prop :=
  ∀ (hires : Bool) (x : Nibble) (s : State) (p : Instr × Byte × Bool),
    p ∈ [(.skp x, 0x9E, s.getKey (BitVec.ofNat 4 ((s.getV x).toNat % 16))),
      (.sknp x, 0xA1, !s.getKey (BitVec.ofNat 4 ((s.getV x).toNat % 16)))] →
    decode hires (0xE#4 ++ x ++ p.2.1) = .instr p.1 ∧
    ∃ t, exec p.1 s = .next t ∧ t.pc = (if p.2.2 then s.pc + 2 else s.pc) ∧ KeepsAllBut [] [] s t

/-- R263, R265, R266. -/
def Obligations.TimerMoves : Prop :=
  ∀ (hires : Bool) (x : Nibble) (s : State),
    decode hires (0xF#4 ++ x ++ 0x07#8) = .instr (.ldVxDt x) ∧ decode hires (0xF#4 ++ x ++ 0x15#8) = .instr (.ldDtVx x) ∧
    decode hires (0xF#4 ++ x ++ 0x18#8) = .instr (.ldStVx x) ∧
    (∃ t, exec (.ldVxDt x) s = .next t ∧ t.getV x = s.delay ∧ t.pc = s.pc ∧ KeepsAllBut [x] [] s t) ∧
    (∃ t, exec (.ldDtVx x) s = .next t ∧ t.delay = s.getV x ∧ t.pc = s.pc ∧ KeepsAllBut [] [.delay] s t) ∧
    (∃ t, exec (.ldStVx x) s = .next t ∧ t.sound = s.getV x ∧ (t.soundActive = true ↔ t.sound ≠ 0) ∧ t.pc = s.pc ∧
      KeepsAllBut [] [.sound] s t)

/-- R264. -/
def Obligations.WaitForKey : Prop :=
  ∀ (hires : Bool) (x : Nibble) (s : State),
    decode hires (0xF#4 ++ x ++ 0x0A#8) = .instr (.ldVxK x) ∧
    (∀ k, s.lastkey = some k →
      ∃ t, exec (.ldVxK x) s = .next t ∧ (t.getV x).toNat = k.toNat ∧ t.lastkey = none ∧ t.pc = s.pc ∧
        KeepsAllBut [x] [.lastkey] s t) ∧
    (s.lastkey = none →
      ∃ t, exec (.ldVxK x) s = .next t ∧ t.pc = s.pc - 2 ∧ t.flags = { s.flags with keypause := true } ∧
        KeepsAllBut [] [.flags] s t)

/-- A wait for a key from its first tick to its end (R123, R264, R304): the first tick enters KeyWait with `pc` back
at the instruction, ticks are then Idle, a release ends the wait, and the next tick takes the key. -/
def Obligations.KeyWaitRoundTrip : Prop :=
  ∀ (hires : Bool) (s : State) (x : Nibble) (k : Nat),
    s.flags.pause = false → s.flags.keypause = false → s.flags.drawWait = false → s.lastkey = none →
    s.readWord s.pc.toNat = 0xF#4 ++ x ++ 0x0A#8 → s.pc ∉ s.breakpoints → k < 16 →
    let waiting := (tick hires s).2
    let released := hostRelease k waiting
    let taken := (tick hires released).2
    waiting.flags.keypause = true ∧ waiting.pc = s.pc ∧ tick hires waiting = (.idle, waiting) ∧
    released.flags.keypause = false ∧ released.lastkey = some (BitVec.ofNat 4 k) ∧
    (taken.getV x).toNat = k ∧ taken.lastkey = none ∧ taken.pc = s.pc + 2 ∧ taken.cycle = s.cycle + 2

/-! ## Index register and memory (spec/43_index_memory.md) -/

/-- R210, R211, R212. -/
def Obligations.IndexRegisterLoads : Prop :=
  ∀ (hires : Bool) (x : Nibble) (nnn : Addr) (s : State),
    decode hires (0xA#4 ++ nnn) = .instr (.ldI nnn) ∧ decode hires (0xF#4 ++ x ++ 0x1E#8) = .instr (.addI x) ∧
    decode hires (0xF#4 ++ x ++ 0x29#8) = .instr (.ldF x) ∧
    (∃ t, exec (.ldI nnn) s = .next t ∧ t.I.toNat = nnn.toNat ∧ t.pc = s.pc ∧ KeepsAllBut [] [.index] s t) ∧
    (∃ t, exec (.addI x) s = .next t ∧ t.I.toNat = (s.I.toNat + (s.getV x).toNat) % 65536 ∧ t.pc = s.pc ∧
      KeepsAllBut [] [.index] s t) ∧
    (∃ t, exec (.ldF x) s = .next t ∧ t.I.toNat = (0x50 + 5 * ((s.getV x).toNat % 16)) % 65536 ∧ t.pc = s.pc ∧
      KeepsAllBut [] [.index] s t)

/-- R213: the three digits at `I`, `I + 1` and `I + 2`, each dropped past the end of storage. -/
def Obligations.BcdStoresDigits : Prop :=
  ∀ (hires : Bool) (x : Nibble) (s : State),
    let addr := fun k : Nat => (s.I.toNat + k) % 65536
    let a := (s.getV x).toNat
    decode hires (0xF#4 ++ x ++ 0x33#8) = .instr (.ldB x) ∧
    ∃ t, exec (.ldB x) s = .next t ∧ t.pc = s.pc ∧ KeepsAllBut [] [.memory] s t ∧
      KeepsMemoryBut (fun b => b = addr 0 ∨ b = addr 1 ∨ b = addr 2) s t ∧
      (addr 0 < s.memlen → (t.readByte (addr 0)).toNat = a / 100) ∧
      (addr 1 < s.memlen → (t.readByte (addr 1)).toNat = a / 10 % 10) ∧
      (addr 2 < s.memlen → (t.readByte (addr 2)).toNat = a % 10)

/-- R214: `v0..vx` at `I .. I + x`, each byte dropped past the end of storage, and I by `quirks.dma_inc`. -/
def Obligations.StoreRegisterRange : Prop :=
  ∀ (hires : Bool) (x : Nibble) (s : State),
    let addr := fun i : Nat => (s.I.toNat + i) % 65536
    decode hires (0xF#4 ++ x ++ 0x55#8) = .instr (.ldMemI x) ∧
    ∃ t, exec (.ldMemI x) s = .next t ∧ t.pc = s.pc ∧ KeepsAllBut [] [.memory, .index] s t ∧
      KeepsMemoryBut (fun b => ∃ i, i ≤ x.toNat ∧ b = addr i) s t ∧
      (∀ i, i ≤ x.toNat → addr i < s.memlen → t.readByte (addr i) = s.getV (BitVec.ofNat 4 i)) ∧
      t.I.toNat = (if s.flags.quirks.dmaInc then s.I.toNat else (s.I.toNat + x.toNat + 1) % 65536)

/-- R215: `v0..vx` from `I .. I + x`, 0 past the end of storage, and I by `quirks.dma_inc`. -/
def Obligations.LoadRegisterRange : Prop :=
  ∀ (hires : Bool) (x : Nibble) (s : State),
    decode hires (0xF#4 ++ x ++ 0x65#8) = .instr (.ldRegI x) ∧
    ∃ t, exec (.ldRegI x) s = .next t ∧ t.pc = s.pc ∧
      (∀ r : Nibble, t.getV r =
        if r.toNat ≤ x.toNat then s.readByte ((s.I.toNat + r.toNat) % 65536) else s.getV r) ∧
      (∀ p : Part, p ≠ .index → p.Same s t) ∧
      t.I.toNat = (if s.flags.quirks.dmaInc then s.I.toNat else (s.I.toNat + x.toNat + 1) % 65536)

/-- Storing registers and loading them again from the same I restores them, whatever the registers hold in between
(R214, R215; spec/95_test_vectors.md S11). -/
def Obligations.DmaRoundTrip : Prop :=
  ∀ (x : Nibble) (s t : State) (between : Vector Byte 16), exec (.ldMemI x) s = .next t →
    (∀ i, i ≤ x.toNat → (s.I.toNat + i) % 65536 < s.memlen) →
    ∃ u, exec (.ldRegI x) { t with v := between, I := s.I } = .next u ∧
      ∀ r : Nibble, r.toNat ≤ x.toNat → u.getV r = s.getV r

/-! ## Display (spec/44_display.md) -/

/-- R232: the Screen region, when declared, reads 0, and no other byte changes. -/
def Obligations.ClearScreen : Prop :=
  ∀ (hires : Bool) (s : State), decode hires 0x00E0 = .instr .cls ∧
    ∃ t, exec .cls s = .next t ∧ t.pc = s.pc ∧ KeepsAllBut [] [.memory] s t ∧
    KeepsMemoryBut (fun a => ∃ r, s.regions.screen = some r ∧ r.start ≤ a ∧ a < r.stop) s t ∧
    (∀ r a, s.regions.screen = some r → r.start ≤ a → a < r.stop → t.readByte a = 0) ∧
    (ScreenOk s → ∀ a, 0xF00 ≤ a → a < 0xF00 + s.screenW * s.screenH / 8 → t.readByte a = 0)

/-- The pseudocode of R236 and R237: `draw_mode`, the Screen range, storage grown to it, and the new Screen 0; no other byte
changes. It is stated of every state. With Screen undeclared R289 calls 00FE and 00FF silent no-ops, and that they follow
the pseudocode there too is the model's choice (log entry 15, DESIGN CHOICE). -/
def Obligations.ResolutionSwitch : Prop :=
  ∀ (s : State) (p : Instr × Word × Bool × Nat), p ∈ [(.low, 0x00FE, false, 0x1000), (.high, 0x00FF, true, 0x1300)] →
    decode true p.2.1 = .instr p.1 ∧ decode false p.2.1 = .unimplemented p.2.1 ∧
    ∃ t, exec p.1 s = .next t ∧ t.pc = s.pc ∧ t.flags = { s.flags with drawMode := p.2.2.1 } ∧
      t.regions = { s.regions with screen := some ⟨0xF00, p.2.2.2⟩ } ∧ t.memlen = max s.memlen p.2.2.2 ∧
      (∀ a, t.readByte a = if 0xF00 ≤ a ∧ a < p.2.2.2 then 0 else s.readByte a) ∧
      KeepsAllBut [] [.memory, .regions, .flags] s t

/-- What a draw leaves alone and what it always does, whatever is on the screen (R233): I, every register but vF, every flag
but `draw_wait` and every byte outside the screen stay, vF is 0 or 1, `draw_wait` is set unless `quirks.draw_wait`, and
`n = 0` in lo-res draws nothing. -/
def Obligations.DrawFrame : Prop :=
  ∀ (x y n : Nibble) (s : State), ∃ t, exec (.drw x y n) s = .next t ∧ t.pc = s.pc ∧
    KeepsAllBut [vF] [.memory, .flags] s t ∧
    KeepsMemoryBut (fun a => 0xF00 ≤ a ∧ a < 0xF00 + s.screenW * s.screenH / 8) s t ∧
    (t.getV vF = 0 ∨ t.getV vF = 1) ∧
    t.flags = { s.flags with drawWait := s.flags.drawWait || !s.flags.quirks.drawWait } ∧
    (n = 0 → s.flags.drawMode = false → t.mem = s.mem ∧ t.getV vF = 0)

/-- R233, R234, R235: a draw completes, inverts exactly the screen pixels that a set sprite pixel touches, clipped or
wrapped as `quirks.screen_wrap` says, writes the collision bit to vF, waits unless `quirks.draw_wait`, and changes nothing
else. A pixel whose byte is past the end of storage (R63, R64) stays 0; R51.3 rules it out. -/
def Obligations.DrawXorsSprite : Prop :=
  ∀ (hires : Bool) (x y n : Nibble) (s : State),
    decode hires (0xD#4 ++ x ++ y ++ n) = .instr (.drw x y n) ∧
    ∃ t, exec (.drw x y n) s = .next t ∧ t.pc = s.pc ∧
      (∀ px py, px < s.screenW → py < s.screenH →
        ((spriteTouches s x y n px py ∧ pixelByte s.screenW px py < s.memlen → t.screenGet px py = !s.screenGet px py) ∧
         (¬ (spriteTouches s x y n px py ∧ pixelByte s.screenW px py < s.memlen) →
            t.screenGet px py = s.screenGet px py))) ∧
      ((∃ px py, px < s.screenW ∧ py < s.screenH ∧ spriteTouches s x y n px py ∧ s.screenGet px py = true) →
        t.getV vF = 1) ∧
      ((¬ ∃ px py, px < s.screenW ∧ py < s.screenH ∧ spriteTouches s x y n px py ∧ s.screenGet px py = true) →
        t.getV vF = 0) ∧
      t.flags = { s.flags with drawWait := s.flags.drawWait || !s.flags.quirks.drawWait } ∧
      KeepsMemoryBut (fun a => 0xF00 ≤ a ∧ a < 0xF00 + s.screenW * s.screenH / 8) s t ∧
      KeepsAllBut [vF] [.memory, .flags] s t

/-- Drawing the same sprite twice at the same place restores every screen pixel (a corner case of R233), and the second
draw reports a collision exactly when some pixel the sprite touches was not lit before the first, so on a blank screen
exactly when the sprite touches any. The first draw must change neither the coordinates nor the sprite: the coordinate
registers are not vF, and no sprite byte lies on the screen. -/
def Obligations.DrawTwiceRestoresScreen : Prop :=
  ∀ (x y n : Nibble) (s t u : State), ScreenOk s → RegionsCovered s → x ≠ vF → y ≠ vF →
    (∀ k, k < 32 → s.ea k < 0xF00 ∨ 0xF00 + s.screenW * s.screenH / 8 ≤ s.ea k) →
    exec (.drw x y n) s = .next t → exec (.drw x y n) t = .next u →
    (∀ px py, px < s.screenW → py < s.screenH → u.screenGet px py = s.screenGet px py) ∧
    (u.getV vF = 1 ↔
      ∃ px py, px < s.screenW ∧ py < s.screenH ∧ spriteTouches s x y n px py ∧ s.screenGet px py = false)

/-- A screen dump shows the screen's pixels (R72). -/
def Obligations.ScreenDumpShowsPixels : Prop :=
  ∀ s : State, ScreenOk s → RegionsCovered s →
    ∃ dump, s.getRegion .screen = some dump ∧ dumpWidth dump.length = s.screenW ∧
      dumpHeight dump.length = s.screenH ∧
      ∀ px py, px < s.screenW → py < s.screenH → dumpPixel dump py px = s.screenGet px py

/-! ## Memory and regions (spec/20_memory.md) -/

/-- Every access is big-endian and whole (R63, R64, R65): a read in storage is its bytes, the lower address more
significant; a value written in storage reads back and no other byte changes; past the end a read is 0 and a write is
dropped. -/
def Obligations.AccessesAreBigEndian : Prop :=
  ∀ (s : State) (a : Nat),
    let value := fun n : Nat => (List.range n).foldl (fun acc j => acc * 256 + (s.readByte (a + j)).toNat) 0
    let writes := fun (n : Nat) (t : State) => KeepsMemoryBut (fun b => a ≤ b ∧ b < a + n) s t ∧ KeepsAllBut [] [.memory] s t
    (s.readByte a = if a + 1 ≤ s.memlen then Memory.byteAt s.mem a else 0) ∧
    (s.readWord a).toNat = (if a + 2 ≤ s.memlen then value 2 else 0) ∧
    (s.read32 a).toNat = (if a + 4 ≤ s.memlen then value 4 else 0) ∧
    (s.read128 a).toNat = (if a + 16 ≤ s.memlen then value 16 else 0) ∧
    (∀ w, writes 1 (s.writeByte a w) ∧
      if a + 1 ≤ s.memlen then (s.writeByte a w).readByte a = w else s.writeByte a w = s) ∧
    (∀ w, writes 2 (s.writeWord a w) ∧
      if a + 2 ≤ s.memlen then (s.writeWord a w).readWord a = w else s.writeWord a w = s) ∧
    (∀ w, writes 4 (s.write32 a w) ∧
      if a + 4 ≤ s.memlen then (s.write32 a w).read32 a = w else s.write32 a w = s) ∧
    (∀ w, writes 16 (s.write128 a w) ∧
      if a + 16 ≤ s.memlen then (s.write128 a w).read128 a = w else s.write128 a w = s)

/-- Declaring a region changes no byte and never shrinks storage (R61); loading one copies data truncated to it
(R68); clearing one fills it with 0 (R69); both do nothing on an undeclared region; nothing else changes, `pc` and the
length of storage among it. That storage covers a declared region is R51.3; a region past it is log entry 11. -/
def Obligations.RegionOperations : Prop :=
  ∀ (s : State) (tag : RegionTag) (range : ByteRange) (data : List Byte),
    ((∀ other, (s.setRegion tag range).regions.get other = if other = tag then some range else s.regions.get other) ∧
      (s.setRegion tag range).memlen = max s.memlen range.stop ∧
      (∀ a, (s.setRegion tag range).readByte a = s.readByte a) ∧
      (s.setRegion tag range).pc = s.pc ∧ KeepsAllBut [] [.memory, .regions] s (s.setRegion tag range)) ∧
    (s.regions.get tag = none → s.loadRegion tag data = s ∧ s.clearRegion tag = s) ∧
    (s.loadRegion tag data).pc = s.pc ∧ (s.loadRegion tag data).memlen = s.memlen ∧
    KeepsAllBut [] [.memory] s (s.loadRegion tag data) ∧
    (s.clearRegion tag).pc = s.pc ∧ (s.clearRegion tag).memlen = s.memlen ∧
    KeepsAllBut [] [.memory] s (s.clearRegion tag) ∧
    (∀ r a, s.regions.get tag = some r → r.stop ≤ s.memlen →
      (s.loadRegion tag data).readByte a =
        (if r.start ≤ a ∧ a < r.stop ∧ a - r.start < data.length then data.getD (a - r.start) 0 else s.readByte a) ∧
      (s.clearRegion tag).readByte a = (if r.start ≤ a ∧ a < r.stop then 0 else s.readByte a))

/-! ## The host interface (spec/60_exceptions.md) -/

/-- R300. -/
def Obligations.TimerTick : Prop :=
  ∀ s : State,
    (hostTickTimer s).delay.toNat = s.delay.toNat - 1 ∧ (hostTickTimer s).sound.toNat = s.sound.toNat - 1 ∧
    (hostTickTimer s).flags = { s.flags with drawWait := false } ∧ (hostTickTimer s).pc = s.pc ∧
    KeepsAllBut [] [.delay, .sound, .flags] s (hostTickTimer s)

/-- R303 and R304. -/
def Obligations.KeyEvents : Prop :=
  ∀ (k : Nat) (s : State),
    (k ≥ 16 → hostPress k s = s ∧ hostRelease k s = s) ∧
    (k < 16 →
      (∀ q : Nibble, (hostPress k s).getKey q = (decide (q.toNat = k) || s.getKey q)) ∧
      (hostPress k s).pc = s.pc ∧ KeepsAllBut [] [.keys] s (hostPress k s) ∧
      (∀ q : Nibble, (hostRelease k s).getKey q = (!decide (q.toNat = k) && s.getKey q)) ∧
      (hostRelease k s).flags = { s.flags with keypause := false } ∧
      (hostRelease k s).lastkey = (if s.flags.keypause then some (BitVec.ofNat 4 k) else s.lastkey) ∧
      (hostRelease k s).pc = s.pc ∧ KeepsAllBut [] [.keys, .flags, .lastkey] s (hostRelease k s))

/-- R306: set semantics, and both operations idempotent. -/
def Obligations.BreakpointSet : Prop :=
  ∀ (a : Word) (s : State),
    (∀ b, b ∈ (hostSetBreak a s).breakpoints ↔ b = a ∨ b ∈ s.breakpoints) ∧
    (∀ b, b ∈ (hostUnsetBreak a s).breakpoints ↔ b ≠ a ∧ b ∈ s.breakpoints) ∧
    hostSetBreak a (hostSetBreak a s) = hostSetBreak a s ∧
    hostUnsetBreak a (hostUnsetBreak a s) = hostUnsetBreak a s ∧
    (s.breakpoints.Pairwise (fun b c => b < c) → (hostSetBreak a s).breakpoints.Nodup)

/-- R46 and R47: the presets, and toggling field by field, which is order-independent and undoes itself. -/
def Obligations.ModesAndQuirks : Prop :=
  (∀ (m : Mode) (s : State),
    (hostSetMode m s).flags = { s.flags with mode := m, quirks := (hostSetMode m s).flags.quirks } ∧
    (hostSetMode m s).flags.quirks =
      { binOps := decide (m ≠ .chip8), shift := decide (m = .schip), drawWait := decide (m ≠ .chip8)
        dmaInc := decide (m = .schip), stupidJumps := decide (m = .schip), screenWrap := false }) ∧
  (∀ (p q : Quirks) (s : State),
    (hostToggleQuirks p s).flags =
      { s.flags with quirks :=
        { binOps := s.flags.quirks.binOps ^^ p.binOps, shift := s.flags.quirks.shift ^^ p.shift
          drawWait := s.flags.quirks.drawWait ^^ p.drawWait, dmaInc := s.flags.quirks.dmaInc ^^ p.dmaInc
          stupidJumps := s.flags.quirks.stupidJumps ^^ p.stupidJumps
          screenWrap := s.flags.quirks.screenWrap ^^ p.screenWrap } } ∧
    hostToggleQuirks p (hostToggleQuirks q s) = hostToggleQuirks q (hostToggleQuirks p s) ∧
    hostToggleQuirks p (hostToggleQuirks p s) = s)

/-! ## Reset and boot (spec/70_reset_and_hazards.md) -/

/-- R320. -/
def Obligations.SoftReset : Prop :=
  ∀ s : State, (softReset s).pc = 0x0200 ∧ (softReset s).sp = 0x0EFE ∧ (softReset s).lastkey = none ∧
    (softReset s).flags = { s.flags with keypause := false, drawWait := false } ∧
    KeepsAllBut [] [.stackPtr, .lastkey, .flags] s (softReset s)

/-- R321. -/
def Obligations.HardReset : Prop :=
  ∀ (rom : List Byte) (s : State) (prog screen : ByteRange),
    s.regions.program = some prog → s.regions.screen = some screen → RegionsCovered s →
    let t := hardReset rom s
    (∀ r, t.getV r = 0) ∧ t.I = 0 ∧ t.pc = 0x0200 ∧ t.sp = 0x0EFE ∧ t.delay = 0 ∧ t.sound = 0 ∧
    (∀ k, t.getKey k = false) ∧ t.lastkey = none ∧ t.cycle = 0 ∧ t.flags = s.flags ∧
    (∀ b, b ∈ t.breakpoints ↔ b ∈ s.breakpoints) ∧ t.regions = s.regions ∧ t.memlen = s.memlen ∧
    ∀ a, t.readByte a =
      if screen.start ≤ a ∧ a < screen.stop then 0
      else if prog.start ≤ a ∧ a < prog.stop then rom.getD (a - prog.start) 0
      else s.readByte a

/-- The state after the boot (R323, R324, R325): the regions, the flags and breakpoints given, every register at its
construction value, and in memory the font, the ROM verbatim from 0x0200 and truncated to the Program region, the test-suite
word big-endian when the host pokes it, and 0 everywhere else. -/
def Obligations.BootState : Prop :=
  ∀ (rom : List Byte) (testWord : Option Word) (bps : List Word) (flags : Flags),
    let t := boot rom testWord bps flags
    t.regions = ⟨some ⟨0x50, 0xA0⟩, some ⟨0x200, 0xEE0⟩, some ⟨0xF00, if flags.drawMode then 0x1300 else 0x1000⟩,
      some ⟨0xEE0, 0xF00⟩⟩ ∧
    t.memlen = (if flags.drawMode then 0x1300 else 0x1000) ∧ t.flags = flags ∧ (∀ b, b ∈ t.breakpoints ↔ b ∈ bps) ∧
    (∀ r, t.getV r = 0) ∧ t.I = 0 ∧ t.pc = 0x0200 ∧ t.sp = 0x0EFE ∧ t.delay = 0 ∧ t.sound = 0 ∧
    (∀ k, t.getKey k = false) ∧ t.lastkey = none ∧ t.cycle = 0 ∧
    ∀ a, t.readByte a =
      if 0x50 ≤ a ∧ a < 0xA0 then font.getD (a - 0x50) 0
      else if a = 0x1FE then (testWord.elim 0 highByte)
      else if a = 0x1FF then (testWord.elim 0 lowByte)
      else if 0x200 ≤ a ∧ a < 0xEE0 then rom.getD (a - 0x200) 0
      else 0

/-- The state after reset (R50, R322), and that it is the boot with no ROM, no test word, no breakpoint and default
flags (the model's choice of those arguments: log entry 4). -/
def Obligations.ResetState : Prop :=
  (∀ r, State.reset.getV r = 0) ∧ State.reset.I = 0 ∧ State.reset.pc = 0x0200 ∧ State.reset.sp = 0x0EFE ∧
  State.reset.delay = 0 ∧ State.reset.sound = 0 ∧ (∀ k, State.reset.getKey k = false) ∧
  State.reset.lastkey = none ∧ State.reset.cycle = 0 ∧ State.reset.memlen = 0x1000 ∧
  (∀ a, State.reset.readByte a = if 0x50 ≤ a ∧ a < 0xA0 then font.getD (a - 0x50) 0 else 0) ∧
  boot [] none [] Flags.default = State.reset
end

