-- ==== Sys2Proof/Laws/Decode.lean ====
section
/-! SUPPORT. The fields of a word built by concatenation, as the encoder builds it (spec/30_encoding.md R92), and the
bytes of a word (R91). -/

namespace Sys2Proof

theorem fieldOp_immediate (a x : Nibble) (kk : Byte) : fieldOp (a ++ x ++ kk) = a := by
  unfold fieldOp
  apply BitVec.eq_of_getLsbD_eq
  intro k hk
  simp only [BitVec.getLsbD_extractLsb', BitVec.getLsbD_append]
  interval_cases k <;> simp

theorem fieldX_immediate (a x : Nibble) (kk : Byte) : fieldX (a ++ x ++ kk) = x := by
  unfold fieldX
  apply BitVec.eq_of_getLsbD_eq
  intro k hk
  simp only [BitVec.getLsbD_extractLsb', BitVec.getLsbD_append]
  interval_cases k <;> simp

theorem fieldKK_immediate (a x : Nibble) (kk : Byte) : fieldKK (a ++ x ++ kk) = kk := by
  unfold fieldKK
  apply BitVec.eq_of_getLsbD_eq
  intro k hk
  simp only [BitVec.getLsbD_extractLsb', BitVec.getLsbD_append]
  interval_cases k <;> simp

theorem fieldOp_address (a : Nibble) (nnn : Addr) : fieldOp (a ++ nnn) = a := by
  unfold fieldOp
  apply BitVec.eq_of_getLsbD_eq
  intro k hk
  simp only [BitVec.getLsbD_extractLsb', BitVec.getLsbD_append]
  interval_cases k <;> simp

theorem fieldNNN_address (a : Nibble) (nnn : Addr) : fieldNNN (a ++ nnn) = nnn := by
  unfold fieldNNN
  apply BitVec.eq_of_getLsbD_eq
  intro k hk
  simp only [BitVec.getLsbD_extractLsb', BitVec.getLsbD_append]
  interval_cases k <;> simp

theorem fieldOp_registers (a x y n : Nibble) : fieldOp (a ++ x ++ y ++ n) = a := by
  unfold fieldOp
  apply BitVec.eq_of_getLsbD_eq
  intro k hk
  simp only [BitVec.getLsbD_extractLsb', BitVec.getLsbD_append]
  interval_cases k <;> simp

theorem fieldX_registers (a x y n : Nibble) : fieldX (a ++ x ++ y ++ n) = x := by
  unfold fieldX
  apply BitVec.eq_of_getLsbD_eq
  intro k hk
  simp only [BitVec.getLsbD_extractLsb', BitVec.getLsbD_append]
  interval_cases k <;> simp

theorem fieldY_registers (a x y n : Nibble) : fieldY (a ++ x ++ y ++ n) = y := by
  unfold fieldY
  apply BitVec.eq_of_getLsbD_eq
  intro k hk
  simp only [BitVec.getLsbD_extractLsb', BitVec.getLsbD_append]
  interval_cases k <;> simp

theorem fieldN_registers (a x y n : Nibble) : fieldN (a ++ x ++ y ++ n) = n := by
  unfold fieldN
  apply BitVec.eq_of_getLsbD_eq
  intro k hk
  simp only [BitVec.getLsbD_extractLsb', BitVec.getLsbD_append]
  interval_cases k <;> simp

/-- The two bytes of a word make it again. -/
theorem wordOfBytes_bytes (w : Word) : wordOfBytes (highByte w) (lowByte w) = w := by
  apply BitVec.eq_of_getLsbD_eq
  intro k hk
  simp only [wordOfBytes, highByte, lowByte, BitVec.getLsbD_extractLsb', BitVec.getLsbD_append]
  interval_cases k <;> simp

/-- Decoding the bytes of a word is decoding the word. -/
theorem decodeBytes_word (hires : Bool) (w : Word) (rest : List Byte) :
    decodeBytes hires (highByte w :: lowByte w :: rest) = .word (decode hires w) rest := by
  rw [decodeBytes, wordOfBytes_bytes]

end Sys2Proof
end

