-- ==== Sys2Proof/Laws/Memory.lean ====
section
/-! SUPPORT. The laws of memory: what a byte reads as after each memory operation, and that every operation keeps the
canonical form (`Memory.wf`) and stays inside storage (`Memory.within`). None of the reading laws needs the canonical
form. Two canonical memories that read alike are equal. -/

namespace Sys2Proof.Machine

/-! ## Reading after an operation -/

theorem Memory.byteAt_insertCell (m : Memory) (a x : Nat) (b : Byte) :
    Memory.byteAt (Memory.insertCell m a b) x = if x = a then b else Memory.byteAt m x := by
  induction m with
  | nil =>
    by_cases h : x = a
    · simp [Memory.insertCell, Memory.byteAt, h]
    · simp [Memory.insertCell, Memory.byteAt, h, Ne.symm h]
  | cons c m ih =>
    obtain ⟨k, c⟩ := c
    unfold Memory.insertCell
    split
    · by_cases h : x = a
      · simp [Memory.byteAt, h]
      · simp [Memory.byteAt, h, Ne.symm h]
    · split
      · rename_i h1 h2; subst h2
        by_cases h : x = a
        · simp [Memory.byteAt, h]
        · simp [Memory.byteAt, h, Ne.symm h]
      · rename_i h1 h2
        by_cases hk : k = x
        · have : x ≠ a := fun e => h2 (e ▸ hk.symm)
          simp [Memory.byteAt, hk, this]
        · simp [Memory.byteAt, hk, ih]

/-- Filtering by address keeps what is kept and unlists the rest. -/
theorem Memory.byteAt_filter (m : Memory) (p : Nat → Bool) (x : Nat) :
    Memory.byteAt (m.filter (fun c => p c.1)) x = if p x then Memory.byteAt m x else bootByte x := by
  induction m with
  | nil => simp [Memory.byteAt]
  | cons c m ih =>
    obtain ⟨k, c⟩ := c
    by_cases hk : k = x
    · subst hk; by_cases h : p k <;> simp [Memory.byteAt, h, ih]
    · by_cases h : p k <;> simp [Memory.byteAt, h, ih, hk]

theorem Memory.byteAt_eraseCell (m : Memory) (a x : Nat) :
    Memory.byteAt (Memory.eraseCell m a) x = if x = a then bootByte x else Memory.byteAt m x := by
  unfold Memory.eraseCell
  rw [Memory.byteAt_filter m (fun k => decide (k ≠ a))]
  by_cases h : x = a <;> simp [h]

/-- A byte reads as last written, every other byte as before. -/
theorem Memory.byteAt_putByte (m : Memory) (a x : Nat) (b : Byte) :
    Memory.byteAt (Memory.putByte m a b) x = if x = a then b else Memory.byteAt m x := by
  unfold Memory.putByte
  split
  · rename_i h; rw [Memory.byteAt_eraseCell]; by_cases hx : x = a <;> simp [hx, h]
  · exact Memory.byteAt_insertCell m a x b

theorem bootByte_eq_zero_of_outside_font {k : Nat} (h : ¬ (0x50 ≤ k ∧ k < 0xA0)) : bootByte k = 0 := by
  unfold bootByte
  have hb : Config.fontBase.toNat = 0x50 := rfl
  have hl : font.length = 80 := rfl
  split
  · rename_i h1
    rw [List.getD_eq_default]
    rw [hb] at h1 ⊢; rw [hl]; omega
  · rfl

theorem mem_nonzeroBoot {a n k : Nat} :
    k ∈ nonzeroBoot a n ↔ (a ≤ k ∧ k < a + n) ∧ bootByte k ≠ 0 := by
  unfold nonzeroBoot
  have hb : Config.fontBase.toNat = 0x50 := rfl
  have hl : font.length = 80 := rfl
  simp only [List.mem_filter, List.mem_map, List.mem_range, Bool.and_eq_true, decide_eq_true_eq]
  constructor
  · rintro ⟨_, h⟩; exact h
  · rintro ⟨h, hne⟩
    refine ⟨?_, h, hne⟩
    have hin : 0x50 ≤ k ∧ k < 0xA0 := by
      by_contra hout; exact hne (bootByte_eq_zero_of_outside_font hout)
    exact ⟨k - 0x50, by omega, by omega⟩

theorem Memory.byteAt_insertZeros (ks : List Nat) (m : Memory) (x : Nat) :
    Memory.byteAt (ks.foldl (fun m k => Memory.insertCell m k 0) m) x
      = if x ∈ ks then 0 else Memory.byteAt m x := by
  induction ks generalizing m with
  | nil => simp
  | cons k ks ih =>
    rw [List.foldl_cons, ih, Memory.byteAt_insertCell]
    by_cases h1 : x ∈ ks <;> by_cases h2 : x = k <;> simp [h1, h2]

/-- Zero-filling a range: its bytes read 0, every other byte as before. -/
theorem Memory.byteAt_zeroFill (m : Memory) (a n x : Nat) :
    Memory.byteAt (Memory.zeroFill m a n) x = if a ≤ x ∧ x < a + n then 0 else Memory.byteAt m x := by
  unfold Memory.zeroFill
  rw [Memory.byteAt_insertZeros, Memory.byteAt_filter m (fun k => !(decide (a ≤ k) && decide (k < a + n)))]
  by_cases hr : a ≤ x ∧ x < a + n
  · by_cases hz : bootByte x = 0
    · have : x ∉ nonzeroBoot a n := fun h => (mem_nonzeroBoot.mp h).2 hz
      simp [this, hr, hz]
    · have : x ∈ nonzeroBoot a n := mem_nonzeroBoot.mpr ⟨hr, hz⟩
      simp [this, hr]
  · have : x ∉ nonzeroBoot a n := fun h => hr (mem_nonzeroBoot.mp h).1
    have hb : (decide (a ≤ x) && decide (x < a + n)) = false := by
      rw [Bool.and_eq_false_iff]; simp only [decide_eq_false_iff_not]; omega
    simp [this, hr, hb]

/-- Copying data in: its bytes read back in order, every other byte as before. -/
theorem Memory.byteAt_copyIn (data : List Byte) (m : Memory) (a x : Nat) :
    Memory.byteAt (Memory.copyIn m a data) x
      = if a ≤ x ∧ x < a + data.length then data.getD (x - a) 0 else Memory.byteAt m x := by
  induction data generalizing m a with
  | nil =>
    have : ¬ (a ≤ x ∧ x < a + ([] : List Byte).length) := by simp
    simp only [Memory.copyIn, this, if_false]
  | cons b data ih =>
    rw [Memory.copyIn, ih, Memory.byteAt_putByte]
    simp only [List.length_cons]
    by_cases h0 : x = a
    · subst h0
      simp
    · by_cases h1 : a + 1 ≤ x ∧ x < a + 1 + data.length
      · have h2 : a ≤ x ∧ x < a + (data.length + 1) := by omega
        have h3 : x - a = (x - (a + 1)) + 1 := by omega
        rw [if_pos h1, if_pos h2, h3]; rfl
      · have h2 : ¬ (a ≤ x ∧ x < a + (data.length + 1)) := by omega
        simp only [h1, h2, h0, if_false]

/-! ## The bounds-checked byte (R63, R64) -/

/-- Reading after a one-byte write: the byte written when it lies in storage, every other byte as before. -/
theorem Memory.read1_write1 (len : Nat) (m : Memory) (a x : Nat) (b : Byte) :
    Memory.read1 len (Memory.write1 len m a b) x
      = if x = a ∧ a + 1 ≤ len then b else Memory.read1 len m x := by
  unfold Memory.read1 Memory.write1
  by_cases ha : a + 1 ≤ len
  · simp only [ha, if_true, Memory.byteAt_putByte]
    by_cases hx : x = a <;> simp [hx, ha]
  · simp [ha]

/-! ## The canonical form is kept -/

theorem Memory.mem_insertCell {m : Memory} {a : Nat} {b : Byte} {c : Host.Cell}
    (h : c ∈ Memory.insertCell m a b) : c = (a, b) ∨ c ∈ m := by
  induction m with
  | nil => simpa [Memory.insertCell] using h
  | cons d m ih =>
    obtain ⟨k, d⟩ := d
    unfold Memory.insertCell at h
    split at h
    · simpa using h
    · split at h
      · rcases List.mem_cons.mp h with h | h
        · exact .inl h
        · exact .inr (List.mem_cons_of_mem _ h)
      · rcases List.mem_cons.mp h with h | h
        · exact .inr (h ▸ List.mem_cons_self)
        · exact (ih h).imp_right (List.mem_cons_of_mem _)

theorem Memory.wf_insertCell {m : Memory} {a : Nat} {b : Byte} (hm : Memory.wf m) (hb : b ≠ bootByte a) :
    Memory.wf (Memory.insertCell m a b) := by
  constructor
  · have hs := hm.1
    clear hm
    induction m with
    | nil => simp [Memory.insertCell]
    | cons d m ih =>
      obtain ⟨k, d⟩ := d
      rw [List.pairwise_cons] at hs
      unfold Memory.insertCell
      split
      · rename_i hlt
        refine List.pairwise_cons.mpr ⟨?_, List.pairwise_cons.mpr hs⟩
        intro c hc
        rcases List.mem_cons.mp hc with rfl | hc
        · exact hlt
        · exact lt_trans hlt (hs.1 c hc)
      · split
        · rename_i _ he; subst he; exact List.pairwise_cons.mpr hs
        · rename_i h1 h2
          refine List.pairwise_cons.mpr ⟨?_, ih hs.2⟩
          intro c hc
          rcases Memory.mem_insertCell hc with rfl | hc
          · change k < a; omega
          · exact hs.1 c hc
  · intro c hc
    rcases Memory.mem_insertCell hc with rfl | hc
    · exact hb
    · exact hm.2 c hc

theorem Memory.wf_filter {m : Memory} (p : Host.Cell → Bool) (hm : Memory.wf m) : Memory.wf (m.filter p) :=
  ⟨hm.1.filter p, fun c hc => hm.2 c (List.mem_of_mem_filter hc)⟩

theorem Memory.wf_putByte {m : Memory} (a : Nat) (b : Byte) (hm : Memory.wf m) :
    Memory.wf (Memory.putByte m a b) := by
  unfold Memory.putByte
  split
  · exact Memory.wf_filter _ hm
  · rename_i h; exact Memory.wf_insertCell hm h

theorem Memory.wf_zeroFill {m : Memory} (a n : Nat) (hm : Memory.wf m) : Memory.wf (Memory.zeroFill m a n) := by
  unfold Memory.zeroFill
  have key : ∀ (ks : List Nat) (m : Memory), Memory.wf m → (∀ k ∈ ks, bootByte k ≠ 0) →
      Memory.wf (ks.foldl (fun m k => Memory.insertCell m k 0) m) := by
    intro ks
    induction ks with
    | nil => intro m hm _; exact hm
    | cons k ks ih =>
      intro m hm hk
      exact ih _ (Memory.wf_insertCell hm (Ne.symm (hk k List.mem_cons_self)))
        (fun k' h => hk k' (List.mem_cons_of_mem _ h))
  exact key _ _ (Memory.wf_filter _ hm) (fun k hk => (mem_nonzeroBoot.mp hk).2)

theorem Memory.wf_copyIn (data : List Byte) {m : Memory} (a : Nat) (hm : Memory.wf m) :
    Memory.wf (Memory.copyIn m a data) := by
  induction data generalizing m a with
  | nil => exact hm
  | cons b data ih => exact ih _ (Memory.wf_putByte a b hm)

theorem Memory.wf_write1 {m : Memory} (len a : Nat) (b : Byte) (hm : Memory.wf m) :
    Memory.wf (Memory.write1 len m a b) := by
  unfold Memory.write1; split
  · exact Memory.wf_putByte a b hm
  · exact hm

theorem Memory.wf_put16 {m : Memory} (a : Nat) (w : BitVec 16) (hm : Memory.wf m) :
    Memory.wf (Memory.put16 m a w) := Memory.wf_putByte _ _ (Memory.wf_putByte _ _ hm)

theorem Memory.wf_put32 {m : Memory} (a : Nat) (w : BitVec 32) (hm : Memory.wf m) :
    Memory.wf (Memory.put32 m a w) := Memory.wf_put16 _ _ (Memory.wf_put16 _ _ hm)

theorem Memory.wf_put64 {m : Memory} (a : Nat) (w : BitVec 64) (hm : Memory.wf m) :
    Memory.wf (Memory.put64 m a w) := Memory.wf_put32 _ _ (Memory.wf_put32 _ _ hm)

theorem Memory.wf_put128 {m : Memory} (a : Nat) (w : BitVec 128) (hm : Memory.wf m) :
    Memory.wf (Memory.put128 m a w) := Memory.wf_put64 _ _ (Memory.wf_put64 _ _ hm)

/-! ## Nothing is listed past storage -/

theorem Memory.within_mono {m : Memory} {len len' : Nat} (h : Memory.within m len) (hl : len ≤ len') :
    Memory.within m len' := fun c hc => lt_of_lt_of_le (h c hc) hl

theorem Memory.within_putByte {m : Memory} {len a : Nat} (b : Byte) (h : Memory.within m len) (ha : a < len) :
    Memory.within (Memory.putByte m a b) len := by
  unfold Memory.putByte
  split
  · exact fun c hc => h c (List.mem_of_mem_filter hc)
  · intro c hc
    rcases Memory.mem_insertCell hc with rfl | hc
    · exact ha
    · exact h c hc

theorem Memory.within_zeroFill {m : Memory} {len a n : Nat} (h : Memory.within m len) (ha : n = 0 ∨ a + n ≤ len) :
    Memory.within (Memory.zeroFill m a n) len := by
  unfold Memory.zeroFill
  have key : ∀ (ks : List Nat) (m : Memory), Memory.within m len → (∀ k ∈ ks, k < len) →
      Memory.within (ks.foldl (fun m k => Memory.insertCell m k 0) m) len := by
    intro ks
    induction ks with
    | nil => intro m hm _; exact hm
    | cons k ks ih =>
      intro m hm hk
      refine ih _ ?_ (fun k' h => hk k' (List.mem_cons_of_mem _ h))
      intro c hc
      rcases Memory.mem_insertCell hc with rfl | hc
      · exact hk k List.mem_cons_self
      · exact hm c hc
  refine key _ _ (fun c hc => h c (List.mem_of_mem_filter hc)) ?_
  intro k hk
  have := (mem_nonzeroBoot.mp hk).1
  omega

theorem Memory.within_copyIn (data : List Byte) {m : Memory} {len a : Nat} (h : Memory.within m len)
    (ha : data = [] ∨ a + data.length ≤ len) : Memory.within (Memory.copyIn m a data) len := by
  induction data generalizing m a with
  | nil => exact h
  | cons b data ih =>
    have hle : a + (data.length + 1) ≤ len := by simpa using ha
    exact ih (Memory.within_putByte b h (by omega)) (.inr (by omega))

theorem Memory.within_write1 {m : Memory} {len : Nat} (a : Nat) (b : Byte) (h : Memory.within m len) :
    Memory.within (Memory.write1 len m a b) len := by
  unfold Memory.write1; split
  · exact Memory.within_putByte b h (by omega)
  · exact h

theorem Memory.within_put16 {m : Memory} {len a : Nat} (w : BitVec 16) (h : Memory.within m len)
    (ha : a + 2 ≤ len) : Memory.within (Memory.put16 m a w) len :=
  Memory.within_putByte _ (Memory.within_putByte _ h (by omega)) (by omega)

theorem Memory.within_put32 {m : Memory} {len a : Nat} (w : BitVec 32) (h : Memory.within m len)
    (ha : a + 4 ≤ len) : Memory.within (Memory.put32 m a w) len :=
  Memory.within_put16 _ (Memory.within_put16 _ h (by omega)) (by omega)

theorem Memory.within_put64 {m : Memory} {len a : Nat} (w : BitVec 64) (h : Memory.within m len)
    (ha : a + 8 ≤ len) : Memory.within (Memory.put64 m a w) len :=
  Memory.within_put32 _ (Memory.within_put32 _ h (by omega)) (by omega)

theorem Memory.within_put128 {m : Memory} {len a : Nat} (w : BitVec 128) (h : Memory.within m len)
    (ha : a + 16 ≤ len) : Memory.within (Memory.put128 m a w) len :=
  Memory.within_put64 _ (Memory.within_put64 _ h (by omega)) (by omega)

/-! ## Equal readings are equal data -/

theorem Memory.byteAt_of_not_listed {m : Memory} {x : Nat} (h : ∀ c ∈ m, c.1 ≠ x) :
    Memory.byteAt m x = bootByte x := by
  induction m with
  | nil => rfl
  | cons c m ih =>
    obtain ⟨k, b⟩ := c
    have h1 : k ≠ x := h (k, b) List.mem_cons_self
    simp only [Memory.byteAt, h1, if_false]
    exact ih (fun c hc => h c (List.mem_cons_of_mem _ hc))

/-- Two memories in canonical form that read alike everywhere are the same list. -/
theorem Memory.eq_of_byteAt_eq {m n : Memory} (hm : Memory.wf m) (hn : Memory.wf n)
    (h : ∀ x, Memory.byteAt m x = Memory.byteAt n x) : m = n := by
  have first : ∀ {k : Nat} {b : Byte} {m n : Memory}, Memory.wf ((k, b) :: m) →
      (∀ x, Memory.byteAt ((k, b) :: m) x = Memory.byteAt n x) → ∃ c ∈ n, c.1 = k := by
    intro k b m n hm h
    by_contra hno
    have hx := h k
    rw [Memory.byteAt_of_not_listed (m := n) (fun c hc e => hno ⟨c, hc, e⟩)] at hx
    simp only [Memory.byteAt, if_true] at hx
    exact hm.2 (k, b) List.mem_cons_self hx
  induction m generalizing n with
  | nil =>
    cases n with
    | nil => rfl
    | cons c n =>
      obtain ⟨c', hc, _⟩ := first hn (fun x => (h x).symm)
      cases hc
  | cons c m ih =>
    obtain ⟨k, b⟩ := c
    cases n with
    | nil => obtain ⟨c', hc, _⟩ := first hm h; cases hc
    | cons d n =>
      obtain ⟨j, d⟩ := d
      have hms := List.pairwise_cons.mp hm.1
      have hns := List.pairwise_cons.mp hn.1
      have hkj : k = j := by
        obtain ⟨c1, hc1, e1⟩ := first hm h
        obtain ⟨c2, hc2, e2⟩ := first hn (fun x => (h x).symm)
        have l1 : j ≤ k := by
          rcases List.mem_cons.mp hc1 with rfl | hc1
          · exact le_of_eq e1
          · have := hns.1 c1 hc1; simp only at this; omega
        have l2 : k ≤ j := by
          rcases List.mem_cons.mp hc2 with rfl | hc2
          · exact le_of_eq e2
          · have := hms.1 c2 hc2; simp only at this; omega
        omega
      subst hkj
      have hbd : b = d := by have := h k; simpa [Memory.byteAt] using this
      subst hbd
      have tails : ∀ x, Memory.byteAt m x = Memory.byteAt n x := by
        intro x
        by_cases hx : x = k
        · subst hx
          rw [Memory.byteAt_of_not_listed (fun c hc => ne_of_gt (hms.1 c hc)),
            Memory.byteAt_of_not_listed (fun c hc => ne_of_gt (hns.1 c hc))]
        · have := h x
          simpa only [Memory.byteAt, Ne.symm hx, if_false] using this
      rw [ih ⟨hms.2, fun c hc => hm.2 c (List.mem_cons_of_mem _ hc)⟩
        ⟨hns.2, fun c hc => hn.2 c (List.mem_cons_of_mem _ hc)⟩ tails]

end Sys2Proof.Machine
end

