-- ==== Sys2Proof/Laws/State.lean ====
section
/-! SUPPORT. What each update of State does to each field (one lemma per field per update, true by unfolding once), and
what each update leaves of the derived reads `getV`, `getKey`, `readByte` and `readWord`. -/

namespace Sys2Proof.Machine

variable (s : State)

/-! ## setI -/

@[simp] theorem State.setI_v (w : Word) : (s.setI w).v = s.v := rfl
@[simp] theorem State.setI_pc (w : Word) : (s.setI w).pc = s.pc := rfl
@[simp] theorem State.setI_sp (w : Word) : (s.setI w).sp = s.sp := rfl
@[simp] theorem State.setI_delay (w : Word) : (s.setI w).delay = s.delay := rfl
@[simp] theorem State.setI_sound (w : Word) : (s.setI w).sound = s.sound := rfl
@[simp] theorem State.setI_keys (w : Word) : (s.setI w).keys = s.keys := rfl
@[simp] theorem State.setI_lastkey (w : Word) : (s.setI w).lastkey = s.lastkey := rfl
@[simp] theorem State.setI_mem (w : Word) : (s.setI w).mem = s.mem := rfl
@[simp] theorem State.setI_memlen (w : Word) : (s.setI w).memlen = s.memlen := rfl
@[simp] theorem State.setI_regions (w : Word) : (s.setI w).regions = s.regions := rfl
@[simp] theorem State.setI_cycle (w : Word) : (s.setI w).cycle = s.cycle := rfl
@[simp] theorem State.setI_breakpoints (w : Word) : (s.setI w).breakpoints = s.breakpoints := rfl
@[simp] theorem State.setI_flags (w : Word) : (s.setI w).flags = s.flags := rfl
@[simp] theorem State.setI_rngDraws (w : Word) : (s.setI w).rngDraws = s.rngDraws := rfl
@[simp] theorem State.setI_I (w : Word) : (s.setI w).I = w := rfl
@[simp] theorem State.setI_getV (w : Word) (x : Nibble) : (s.setI w).getV x = s.getV x := rfl
@[simp] theorem State.setI_getKey (w : Word) (q : Nibble) : (s.setI w).getKey q = s.getKey q := rfl
@[simp] theorem State.setI_readByte (w : Word) (a : Nat) : (s.setI w).readByte a = s.readByte a := rfl
@[simp] theorem State.setI_readWord (w : Word) (a : Nat) : (s.setI w).readWord a = s.readWord a := rfl

/-! ## setPc -/

@[simp] theorem State.setPc_v (w : Word) : (s.setPc w).v = s.v := rfl
@[simp] theorem State.setPc_I (w : Word) : (s.setPc w).I = s.I := rfl
@[simp] theorem State.setPc_sp (w : Word) : (s.setPc w).sp = s.sp := rfl
@[simp] theorem State.setPc_delay (w : Word) : (s.setPc w).delay = s.delay := rfl
@[simp] theorem State.setPc_sound (w : Word) : (s.setPc w).sound = s.sound := rfl
@[simp] theorem State.setPc_keys (w : Word) : (s.setPc w).keys = s.keys := rfl
@[simp] theorem State.setPc_lastkey (w : Word) : (s.setPc w).lastkey = s.lastkey := rfl
@[simp] theorem State.setPc_mem (w : Word) : (s.setPc w).mem = s.mem := rfl
@[simp] theorem State.setPc_memlen (w : Word) : (s.setPc w).memlen = s.memlen := rfl
@[simp] theorem State.setPc_regions (w : Word) : (s.setPc w).regions = s.regions := rfl
@[simp] theorem State.setPc_cycle (w : Word) : (s.setPc w).cycle = s.cycle := rfl
@[simp] theorem State.setPc_breakpoints (w : Word) : (s.setPc w).breakpoints = s.breakpoints := rfl
@[simp] theorem State.setPc_flags (w : Word) : (s.setPc w).flags = s.flags := rfl
@[simp] theorem State.setPc_rngDraws (w : Word) : (s.setPc w).rngDraws = s.rngDraws := rfl
@[simp] theorem State.setPc_pc (w : Word) : (s.setPc w).pc = w := rfl
@[simp] theorem State.setPc_getV (w : Word) (x : Nibble) : (s.setPc w).getV x = s.getV x := rfl
@[simp] theorem State.setPc_getKey (w : Word) (q : Nibble) : (s.setPc w).getKey q = s.getKey q := rfl
@[simp] theorem State.setPc_readByte (w : Word) (a : Nat) : (s.setPc w).readByte a = s.readByte a := rfl
@[simp] theorem State.setPc_readWord (w : Word) (a : Nat) : (s.setPc w).readWord a = s.readWord a := rfl

/-! ## setSp -/

@[simp] theorem State.setSp_v (w : Word) : (s.setSp w).v = s.v := rfl
@[simp] theorem State.setSp_I (w : Word) : (s.setSp w).I = s.I := rfl
@[simp] theorem State.setSp_pc (w : Word) : (s.setSp w).pc = s.pc := rfl
@[simp] theorem State.setSp_delay (w : Word) : (s.setSp w).delay = s.delay := rfl
@[simp] theorem State.setSp_sound (w : Word) : (s.setSp w).sound = s.sound := rfl
@[simp] theorem State.setSp_keys (w : Word) : (s.setSp w).keys = s.keys := rfl
@[simp] theorem State.setSp_lastkey (w : Word) : (s.setSp w).lastkey = s.lastkey := rfl
@[simp] theorem State.setSp_mem (w : Word) : (s.setSp w).mem = s.mem := rfl
@[simp] theorem State.setSp_memlen (w : Word) : (s.setSp w).memlen = s.memlen := rfl
@[simp] theorem State.setSp_regions (w : Word) : (s.setSp w).regions = s.regions := rfl
@[simp] theorem State.setSp_cycle (w : Word) : (s.setSp w).cycle = s.cycle := rfl
@[simp] theorem State.setSp_breakpoints (w : Word) : (s.setSp w).breakpoints = s.breakpoints := rfl
@[simp] theorem State.setSp_flags (w : Word) : (s.setSp w).flags = s.flags := rfl
@[simp] theorem State.setSp_rngDraws (w : Word) : (s.setSp w).rngDraws = s.rngDraws := rfl
@[simp] theorem State.setSp_sp (w : Word) : (s.setSp w).sp = w := rfl
@[simp] theorem State.setSp_getV (w : Word) (x : Nibble) : (s.setSp w).getV x = s.getV x := rfl
@[simp] theorem State.setSp_getKey (w : Word) (q : Nibble) : (s.setSp w).getKey q = s.getKey q := rfl
@[simp] theorem State.setSp_readByte (w : Word) (a : Nat) : (s.setSp w).readByte a = s.readByte a := rfl
@[simp] theorem State.setSp_readWord (w : Word) (a : Nat) : (s.setSp w).readWord a = s.readWord a := rfl

/-! ## setDelay -/

@[simp] theorem State.setDelay_v (b : Byte) : (s.setDelay b).v = s.v := rfl
@[simp] theorem State.setDelay_I (b : Byte) : (s.setDelay b).I = s.I := rfl
@[simp] theorem State.setDelay_pc (b : Byte) : (s.setDelay b).pc = s.pc := rfl
@[simp] theorem State.setDelay_sp (b : Byte) : (s.setDelay b).sp = s.sp := rfl
@[simp] theorem State.setDelay_sound (b : Byte) : (s.setDelay b).sound = s.sound := rfl
@[simp] theorem State.setDelay_keys (b : Byte) : (s.setDelay b).keys = s.keys := rfl
@[simp] theorem State.setDelay_lastkey (b : Byte) : (s.setDelay b).lastkey = s.lastkey := rfl
@[simp] theorem State.setDelay_mem (b : Byte) : (s.setDelay b).mem = s.mem := rfl
@[simp] theorem State.setDelay_memlen (b : Byte) : (s.setDelay b).memlen = s.memlen := rfl
@[simp] theorem State.setDelay_regions (b : Byte) : (s.setDelay b).regions = s.regions := rfl
@[simp] theorem State.setDelay_cycle (b : Byte) : (s.setDelay b).cycle = s.cycle := rfl
@[simp] theorem State.setDelay_breakpoints (b : Byte) : (s.setDelay b).breakpoints = s.breakpoints := rfl
@[simp] theorem State.setDelay_flags (b : Byte) : (s.setDelay b).flags = s.flags := rfl
@[simp] theorem State.setDelay_rngDraws (b : Byte) : (s.setDelay b).rngDraws = s.rngDraws := rfl
@[simp] theorem State.setDelay_delay (b : Byte) : (s.setDelay b).delay = b := rfl
@[simp] theorem State.setDelay_getV (b : Byte) (x : Nibble) : (s.setDelay b).getV x = s.getV x := rfl
@[simp] theorem State.setDelay_getKey (b : Byte) (q : Nibble) : (s.setDelay b).getKey q = s.getKey q := rfl
@[simp] theorem State.setDelay_readByte (b : Byte) (a : Nat) : (s.setDelay b).readByte a = s.readByte a := rfl
@[simp] theorem State.setDelay_readWord (b : Byte) (a : Nat) : (s.setDelay b).readWord a = s.readWord a := rfl

/-! ## setSound -/

@[simp] theorem State.setSound_v (b : Byte) : (s.setSound b).v = s.v := rfl
@[simp] theorem State.setSound_I (b : Byte) : (s.setSound b).I = s.I := rfl
@[simp] theorem State.setSound_pc (b : Byte) : (s.setSound b).pc = s.pc := rfl
@[simp] theorem State.setSound_sp (b : Byte) : (s.setSound b).sp = s.sp := rfl
@[simp] theorem State.setSound_delay (b : Byte) : (s.setSound b).delay = s.delay := rfl
@[simp] theorem State.setSound_keys (b : Byte) : (s.setSound b).keys = s.keys := rfl
@[simp] theorem State.setSound_lastkey (b : Byte) : (s.setSound b).lastkey = s.lastkey := rfl
@[simp] theorem State.setSound_mem (b : Byte) : (s.setSound b).mem = s.mem := rfl
@[simp] theorem State.setSound_memlen (b : Byte) : (s.setSound b).memlen = s.memlen := rfl
@[simp] theorem State.setSound_regions (b : Byte) : (s.setSound b).regions = s.regions := rfl
@[simp] theorem State.setSound_cycle (b : Byte) : (s.setSound b).cycle = s.cycle := rfl
@[simp] theorem State.setSound_breakpoints (b : Byte) : (s.setSound b).breakpoints = s.breakpoints := rfl
@[simp] theorem State.setSound_flags (b : Byte) : (s.setSound b).flags = s.flags := rfl
@[simp] theorem State.setSound_rngDraws (b : Byte) : (s.setSound b).rngDraws = s.rngDraws := rfl
@[simp] theorem State.setSound_sound (b : Byte) : (s.setSound b).sound = b := rfl
@[simp] theorem State.setSound_getV (b : Byte) (x : Nibble) : (s.setSound b).getV x = s.getV x := rfl
@[simp] theorem State.setSound_getKey (b : Byte) (q : Nibble) : (s.setSound b).getKey q = s.getKey q := rfl
@[simp] theorem State.setSound_readByte (b : Byte) (a : Nat) : (s.setSound b).readByte a = s.readByte a := rfl
@[simp] theorem State.setSound_readWord (b : Byte) (a : Nat) : (s.setSound b).readWord a = s.readWord a := rfl

/-! ## setKeys -/

@[simp] theorem State.setKeys_v (k : Vector Bool 16) : (s.setKeys k).v = s.v := rfl
@[simp] theorem State.setKeys_I (k : Vector Bool 16) : (s.setKeys k).I = s.I := rfl
@[simp] theorem State.setKeys_pc (k : Vector Bool 16) : (s.setKeys k).pc = s.pc := rfl
@[simp] theorem State.setKeys_sp (k : Vector Bool 16) : (s.setKeys k).sp = s.sp := rfl
@[simp] theorem State.setKeys_delay (k : Vector Bool 16) : (s.setKeys k).delay = s.delay := rfl
@[simp] theorem State.setKeys_sound (k : Vector Bool 16) : (s.setKeys k).sound = s.sound := rfl
@[simp] theorem State.setKeys_lastkey (k : Vector Bool 16) : (s.setKeys k).lastkey = s.lastkey := rfl
@[simp] theorem State.setKeys_mem (k : Vector Bool 16) : (s.setKeys k).mem = s.mem := rfl
@[simp] theorem State.setKeys_memlen (k : Vector Bool 16) : (s.setKeys k).memlen = s.memlen := rfl
@[simp] theorem State.setKeys_regions (k : Vector Bool 16) : (s.setKeys k).regions = s.regions := rfl
@[simp] theorem State.setKeys_cycle (k : Vector Bool 16) : (s.setKeys k).cycle = s.cycle := rfl
@[simp] theorem State.setKeys_breakpoints (k : Vector Bool 16) : (s.setKeys k).breakpoints = s.breakpoints := rfl
@[simp] theorem State.setKeys_flags (k : Vector Bool 16) : (s.setKeys k).flags = s.flags := rfl
@[simp] theorem State.setKeys_rngDraws (k : Vector Bool 16) : (s.setKeys k).rngDraws = s.rngDraws := rfl
@[simp] theorem State.setKeys_keys (k : Vector Bool 16) : (s.setKeys k).keys = k := rfl
@[simp] theorem State.setKeys_getV (k : Vector Bool 16) (x : Nibble) : (s.setKeys k).getV x = s.getV x := rfl
@[simp] theorem State.setKeys_readByte (k : Vector Bool 16) (a : Nat) : (s.setKeys k).readByte a = s.readByte a := rfl
@[simp] theorem State.setKeys_readWord (k : Vector Bool 16) (a : Nat) : (s.setKeys k).readWord a = s.readWord a := rfl

/-! ## setLastkey -/

@[simp] theorem State.setLastkey_v (k : Option Nibble) : (s.setLastkey k).v = s.v := rfl
@[simp] theorem State.setLastkey_I (k : Option Nibble) : (s.setLastkey k).I = s.I := rfl
@[simp] theorem State.setLastkey_pc (k : Option Nibble) : (s.setLastkey k).pc = s.pc := rfl
@[simp] theorem State.setLastkey_sp (k : Option Nibble) : (s.setLastkey k).sp = s.sp := rfl
@[simp] theorem State.setLastkey_delay (k : Option Nibble) : (s.setLastkey k).delay = s.delay := rfl
@[simp] theorem State.setLastkey_sound (k : Option Nibble) : (s.setLastkey k).sound = s.sound := rfl
@[simp] theorem State.setLastkey_keys (k : Option Nibble) : (s.setLastkey k).keys = s.keys := rfl
@[simp] theorem State.setLastkey_mem (k : Option Nibble) : (s.setLastkey k).mem = s.mem := rfl
@[simp] theorem State.setLastkey_memlen (k : Option Nibble) : (s.setLastkey k).memlen = s.memlen := rfl
@[simp] theorem State.setLastkey_regions (k : Option Nibble) : (s.setLastkey k).regions = s.regions := rfl
@[simp] theorem State.setLastkey_cycle (k : Option Nibble) : (s.setLastkey k).cycle = s.cycle := rfl
@[simp] theorem State.setLastkey_breakpoints (k : Option Nibble) : (s.setLastkey k).breakpoints = s.breakpoints := rfl
@[simp] theorem State.setLastkey_flags (k : Option Nibble) : (s.setLastkey k).flags = s.flags := rfl
@[simp] theorem State.setLastkey_rngDraws (k : Option Nibble) : (s.setLastkey k).rngDraws = s.rngDraws := rfl
@[simp] theorem State.setLastkey_lastkey (k : Option Nibble) : (s.setLastkey k).lastkey = k := rfl
@[simp] theorem State.setLastkey_getV (k : Option Nibble) (x : Nibble) : (s.setLastkey k).getV x = s.getV x := rfl
@[simp] theorem State.setLastkey_getKey (k : Option Nibble) (q : Nibble) : (s.setLastkey k).getKey q = s.getKey q := rfl
@[simp] theorem State.setLastkey_readByte (k : Option Nibble) (a : Nat) : (s.setLastkey k).readByte a = s.readByte a := rfl
@[simp] theorem State.setLastkey_readWord (k : Option Nibble) (a : Nat) : (s.setLastkey k).readWord a = s.readWord a := rfl

/-! ## setMem -/

@[simp] theorem State.setMem_v (m : Memory) : (s.setMem m).v = s.v := rfl
@[simp] theorem State.setMem_I (m : Memory) : (s.setMem m).I = s.I := rfl
@[simp] theorem State.setMem_pc (m : Memory) : (s.setMem m).pc = s.pc := rfl
@[simp] theorem State.setMem_sp (m : Memory) : (s.setMem m).sp = s.sp := rfl
@[simp] theorem State.setMem_delay (m : Memory) : (s.setMem m).delay = s.delay := rfl
@[simp] theorem State.setMem_sound (m : Memory) : (s.setMem m).sound = s.sound := rfl
@[simp] theorem State.setMem_keys (m : Memory) : (s.setMem m).keys = s.keys := rfl
@[simp] theorem State.setMem_lastkey (m : Memory) : (s.setMem m).lastkey = s.lastkey := rfl
@[simp] theorem State.setMem_memlen (m : Memory) : (s.setMem m).memlen = s.memlen := rfl
@[simp] theorem State.setMem_regions (m : Memory) : (s.setMem m).regions = s.regions := rfl
@[simp] theorem State.setMem_cycle (m : Memory) : (s.setMem m).cycle = s.cycle := rfl
@[simp] theorem State.setMem_breakpoints (m : Memory) : (s.setMem m).breakpoints = s.breakpoints := rfl
@[simp] theorem State.setMem_flags (m : Memory) : (s.setMem m).flags = s.flags := rfl
@[simp] theorem State.setMem_rngDraws (m : Memory) : (s.setMem m).rngDraws = s.rngDraws := rfl
@[simp] theorem State.setMem_mem (m : Memory) : (s.setMem m).mem = m := rfl
@[simp] theorem State.setMem_getV (m : Memory) (x : Nibble) : (s.setMem m).getV x = s.getV x := rfl
@[simp] theorem State.setMem_getKey (m : Memory) (q : Nibble) : (s.setMem m).getKey q = s.getKey q := rfl

/-! ## setMemlen -/

@[simp] theorem State.setMemlen_v (n : Nat) : (s.setMemlen n).v = s.v := rfl
@[simp] theorem State.setMemlen_I (n : Nat) : (s.setMemlen n).I = s.I := rfl
@[simp] theorem State.setMemlen_pc (n : Nat) : (s.setMemlen n).pc = s.pc := rfl
@[simp] theorem State.setMemlen_sp (n : Nat) : (s.setMemlen n).sp = s.sp := rfl
@[simp] theorem State.setMemlen_delay (n : Nat) : (s.setMemlen n).delay = s.delay := rfl
@[simp] theorem State.setMemlen_sound (n : Nat) : (s.setMemlen n).sound = s.sound := rfl
@[simp] theorem State.setMemlen_keys (n : Nat) : (s.setMemlen n).keys = s.keys := rfl
@[simp] theorem State.setMemlen_lastkey (n : Nat) : (s.setMemlen n).lastkey = s.lastkey := rfl
@[simp] theorem State.setMemlen_mem (n : Nat) : (s.setMemlen n).mem = s.mem := rfl
@[simp] theorem State.setMemlen_regions (n : Nat) : (s.setMemlen n).regions = s.regions := rfl
@[simp] theorem State.setMemlen_cycle (n : Nat) : (s.setMemlen n).cycle = s.cycle := rfl
@[simp] theorem State.setMemlen_breakpoints (n : Nat) : (s.setMemlen n).breakpoints = s.breakpoints := rfl
@[simp] theorem State.setMemlen_flags (n : Nat) : (s.setMemlen n).flags = s.flags := rfl
@[simp] theorem State.setMemlen_rngDraws (n : Nat) : (s.setMemlen n).rngDraws = s.rngDraws := rfl
@[simp] theorem State.setMemlen_memlen (n : Nat) : (s.setMemlen n).memlen = n := rfl
@[simp] theorem State.setMemlen_getV (n : Nat) (x : Nibble) : (s.setMemlen n).getV x = s.getV x := rfl
@[simp] theorem State.setMemlen_getKey (n : Nat) (q : Nibble) : (s.setMemlen n).getKey q = s.getKey q := rfl

/-! ## setRegions -/

@[simp] theorem State.setRegions_v (r : Regions) : (s.setRegions r).v = s.v := rfl
@[simp] theorem State.setRegions_I (r : Regions) : (s.setRegions r).I = s.I := rfl
@[simp] theorem State.setRegions_pc (r : Regions) : (s.setRegions r).pc = s.pc := rfl
@[simp] theorem State.setRegions_sp (r : Regions) : (s.setRegions r).sp = s.sp := rfl
@[simp] theorem State.setRegions_delay (r : Regions) : (s.setRegions r).delay = s.delay := rfl
@[simp] theorem State.setRegions_sound (r : Regions) : (s.setRegions r).sound = s.sound := rfl
@[simp] theorem State.setRegions_keys (r : Regions) : (s.setRegions r).keys = s.keys := rfl
@[simp] theorem State.setRegions_lastkey (r : Regions) : (s.setRegions r).lastkey = s.lastkey := rfl
@[simp] theorem State.setRegions_mem (r : Regions) : (s.setRegions r).mem = s.mem := rfl
@[simp] theorem State.setRegions_memlen (r : Regions) : (s.setRegions r).memlen = s.memlen := rfl
@[simp] theorem State.setRegions_cycle (r : Regions) : (s.setRegions r).cycle = s.cycle := rfl
@[simp] theorem State.setRegions_breakpoints (r : Regions) : (s.setRegions r).breakpoints = s.breakpoints := rfl
@[simp] theorem State.setRegions_flags (r : Regions) : (s.setRegions r).flags = s.flags := rfl
@[simp] theorem State.setRegions_rngDraws (r : Regions) : (s.setRegions r).rngDraws = s.rngDraws := rfl
@[simp] theorem State.setRegions_regions (r : Regions) : (s.setRegions r).regions = r := rfl
@[simp] theorem State.setRegions_getV (r : Regions) (x : Nibble) : (s.setRegions r).getV x = s.getV x := rfl
@[simp] theorem State.setRegions_getKey (r : Regions) (q : Nibble) : (s.setRegions r).getKey q = s.getKey q := rfl
@[simp] theorem State.setRegions_readByte (r : Regions) (a : Nat) : (s.setRegions r).readByte a = s.readByte a := rfl
@[simp] theorem State.setRegions_readWord (r : Regions) (a : Nat) : (s.setRegions r).readWord a = s.readWord a := rfl

/-! ## setCycle -/

@[simp] theorem State.setCycle_v (n : Nat) : (s.setCycle n).v = s.v := rfl
@[simp] theorem State.setCycle_I (n : Nat) : (s.setCycle n).I = s.I := rfl
@[simp] theorem State.setCycle_pc (n : Nat) : (s.setCycle n).pc = s.pc := rfl
@[simp] theorem State.setCycle_sp (n : Nat) : (s.setCycle n).sp = s.sp := rfl
@[simp] theorem State.setCycle_delay (n : Nat) : (s.setCycle n).delay = s.delay := rfl
@[simp] theorem State.setCycle_sound (n : Nat) : (s.setCycle n).sound = s.sound := rfl
@[simp] theorem State.setCycle_keys (n : Nat) : (s.setCycle n).keys = s.keys := rfl
@[simp] theorem State.setCycle_lastkey (n : Nat) : (s.setCycle n).lastkey = s.lastkey := rfl
@[simp] theorem State.setCycle_mem (n : Nat) : (s.setCycle n).mem = s.mem := rfl
@[simp] theorem State.setCycle_memlen (n : Nat) : (s.setCycle n).memlen = s.memlen := rfl
@[simp] theorem State.setCycle_regions (n : Nat) : (s.setCycle n).regions = s.regions := rfl
@[simp] theorem State.setCycle_breakpoints (n : Nat) : (s.setCycle n).breakpoints = s.breakpoints := rfl
@[simp] theorem State.setCycle_flags (n : Nat) : (s.setCycle n).flags = s.flags := rfl
@[simp] theorem State.setCycle_rngDraws (n : Nat) : (s.setCycle n).rngDraws = s.rngDraws := rfl
@[simp] theorem State.setCycle_cycle (n : Nat) : (s.setCycle n).cycle = n := rfl
@[simp] theorem State.setCycle_getV (n : Nat) (x : Nibble) : (s.setCycle n).getV x = s.getV x := rfl
@[simp] theorem State.setCycle_getKey (n : Nat) (q : Nibble) : (s.setCycle n).getKey q = s.getKey q := rfl
@[simp] theorem State.setCycle_readByte (n : Nat) (a : Nat) : (s.setCycle n).readByte a = s.readByte a := rfl
@[simp] theorem State.setCycle_readWord (n : Nat) (a : Nat) : (s.setCycle n).readWord a = s.readWord a := rfl

/-! ## setBreakpoints -/

@[simp] theorem State.setBreakpoints_v (b : List Word) : (s.setBreakpoints b).v = s.v := rfl
@[simp] theorem State.setBreakpoints_I (b : List Word) : (s.setBreakpoints b).I = s.I := rfl
@[simp] theorem State.setBreakpoints_pc (b : List Word) : (s.setBreakpoints b).pc = s.pc := rfl
@[simp] theorem State.setBreakpoints_sp (b : List Word) : (s.setBreakpoints b).sp = s.sp := rfl
@[simp] theorem State.setBreakpoints_delay (b : List Word) : (s.setBreakpoints b).delay = s.delay := rfl
@[simp] theorem State.setBreakpoints_sound (b : List Word) : (s.setBreakpoints b).sound = s.sound := rfl
@[simp] theorem State.setBreakpoints_keys (b : List Word) : (s.setBreakpoints b).keys = s.keys := rfl
@[simp] theorem State.setBreakpoints_lastkey (b : List Word) : (s.setBreakpoints b).lastkey = s.lastkey := rfl
@[simp] theorem State.setBreakpoints_mem (b : List Word) : (s.setBreakpoints b).mem = s.mem := rfl
@[simp] theorem State.setBreakpoints_memlen (b : List Word) : (s.setBreakpoints b).memlen = s.memlen := rfl
@[simp] theorem State.setBreakpoints_regions (b : List Word) : (s.setBreakpoints b).regions = s.regions := rfl
@[simp] theorem State.setBreakpoints_cycle (b : List Word) : (s.setBreakpoints b).cycle = s.cycle := rfl
@[simp] theorem State.setBreakpoints_flags (b : List Word) : (s.setBreakpoints b).flags = s.flags := rfl
@[simp] theorem State.setBreakpoints_rngDraws (b : List Word) : (s.setBreakpoints b).rngDraws = s.rngDraws := rfl
@[simp] theorem State.setBreakpoints_breakpoints (b : List Word) : (s.setBreakpoints b).breakpoints = b := rfl
@[simp] theorem State.setBreakpoints_getV (b : List Word) (x : Nibble) : (s.setBreakpoints b).getV x = s.getV x := rfl
@[simp] theorem State.setBreakpoints_getKey (b : List Word) (q : Nibble) : (s.setBreakpoints b).getKey q = s.getKey q := rfl
@[simp] theorem State.setBreakpoints_readByte (b : List Word) (a : Nat) : (s.setBreakpoints b).readByte a = s.readByte a := rfl
@[simp] theorem State.setBreakpoints_readWord (b : List Word) (a : Nat) : (s.setBreakpoints b).readWord a = s.readWord a := rfl

/-! ## setFlags -/

@[simp] theorem State.setFlags_v (f : Flags) : (s.setFlags f).v = s.v := rfl
@[simp] theorem State.setFlags_I (f : Flags) : (s.setFlags f).I = s.I := rfl
@[simp] theorem State.setFlags_pc (f : Flags) : (s.setFlags f).pc = s.pc := rfl
@[simp] theorem State.setFlags_sp (f : Flags) : (s.setFlags f).sp = s.sp := rfl
@[simp] theorem State.setFlags_delay (f : Flags) : (s.setFlags f).delay = s.delay := rfl
@[simp] theorem State.setFlags_sound (f : Flags) : (s.setFlags f).sound = s.sound := rfl
@[simp] theorem State.setFlags_keys (f : Flags) : (s.setFlags f).keys = s.keys := rfl
@[simp] theorem State.setFlags_lastkey (f : Flags) : (s.setFlags f).lastkey = s.lastkey := rfl
@[simp] theorem State.setFlags_mem (f : Flags) : (s.setFlags f).mem = s.mem := rfl
@[simp] theorem State.setFlags_memlen (f : Flags) : (s.setFlags f).memlen = s.memlen := rfl
@[simp] theorem State.setFlags_regions (f : Flags) : (s.setFlags f).regions = s.regions := rfl
@[simp] theorem State.setFlags_cycle (f : Flags) : (s.setFlags f).cycle = s.cycle := rfl
@[simp] theorem State.setFlags_breakpoints (f : Flags) : (s.setFlags f).breakpoints = s.breakpoints := rfl
@[simp] theorem State.setFlags_rngDraws (f : Flags) : (s.setFlags f).rngDraws = s.rngDraws := rfl
@[simp] theorem State.setFlags_flags (f : Flags) : (s.setFlags f).flags = f := rfl
@[simp] theorem State.setFlags_getV (f : Flags) (x : Nibble) : (s.setFlags f).getV x = s.getV x := rfl
@[simp] theorem State.setFlags_getKey (f : Flags) (q : Nibble) : (s.setFlags f).getKey q = s.getKey q := rfl
@[simp] theorem State.setFlags_readByte (f : Flags) (a : Nat) : (s.setFlags f).readByte a = s.readByte a := rfl
@[simp] theorem State.setFlags_readWord (f : Flags) (a : Nat) : (s.setFlags f).readWord a = s.readWord a := rfl

/-! ## setRngDraws -/

@[simp] theorem State.setRngDraws_v (n : Nat) : (s.setRngDraws n).v = s.v := rfl
@[simp] theorem State.setRngDraws_I (n : Nat) : (s.setRngDraws n).I = s.I := rfl
@[simp] theorem State.setRngDraws_pc (n : Nat) : (s.setRngDraws n).pc = s.pc := rfl
@[simp] theorem State.setRngDraws_sp (n : Nat) : (s.setRngDraws n).sp = s.sp := rfl
@[simp] theorem State.setRngDraws_delay (n : Nat) : (s.setRngDraws n).delay = s.delay := rfl
@[simp] theorem State.setRngDraws_sound (n : Nat) : (s.setRngDraws n).sound = s.sound := rfl
@[simp] theorem State.setRngDraws_keys (n : Nat) : (s.setRngDraws n).keys = s.keys := rfl
@[simp] theorem State.setRngDraws_lastkey (n : Nat) : (s.setRngDraws n).lastkey = s.lastkey := rfl
@[simp] theorem State.setRngDraws_mem (n : Nat) : (s.setRngDraws n).mem = s.mem := rfl
@[simp] theorem State.setRngDraws_memlen (n : Nat) : (s.setRngDraws n).memlen = s.memlen := rfl
@[simp] theorem State.setRngDraws_regions (n : Nat) : (s.setRngDraws n).regions = s.regions := rfl
@[simp] theorem State.setRngDraws_cycle (n : Nat) : (s.setRngDraws n).cycle = s.cycle := rfl
@[simp] theorem State.setRngDraws_breakpoints (n : Nat) : (s.setRngDraws n).breakpoints = s.breakpoints := rfl
@[simp] theorem State.setRngDraws_flags (n : Nat) : (s.setRngDraws n).flags = s.flags := rfl
@[simp] theorem State.setRngDraws_rngDraws (n : Nat) : (s.setRngDraws n).rngDraws = n := rfl
@[simp] theorem State.setRngDraws_getV (n : Nat) (x : Nibble) : (s.setRngDraws n).getV x = s.getV x := rfl
@[simp] theorem State.setRngDraws_getKey (n : Nat) (q : Nibble) : (s.setRngDraws n).getKey q = s.getKey q := rfl
@[simp] theorem State.setRngDraws_readByte (n : Nat) (a : Nat) : (s.setRngDraws n).readByte a = s.readByte a := rfl
@[simp] theorem State.setRngDraws_readWord (n : Nat) (a : Nat) : (s.setRngDraws n).readWord a = s.readWord a := rfl

/-! ## setPause -/

@[simp] theorem State.setPause_v (b : Bool) : (s.setPause b).v = s.v := rfl
@[simp] theorem State.setPause_I (b : Bool) : (s.setPause b).I = s.I := rfl
@[simp] theorem State.setPause_pc (b : Bool) : (s.setPause b).pc = s.pc := rfl
@[simp] theorem State.setPause_sp (b : Bool) : (s.setPause b).sp = s.sp := rfl
@[simp] theorem State.setPause_delay (b : Bool) : (s.setPause b).delay = s.delay := rfl
@[simp] theorem State.setPause_sound (b : Bool) : (s.setPause b).sound = s.sound := rfl
@[simp] theorem State.setPause_keys (b : Bool) : (s.setPause b).keys = s.keys := rfl
@[simp] theorem State.setPause_lastkey (b : Bool) : (s.setPause b).lastkey = s.lastkey := rfl
@[simp] theorem State.setPause_mem (b : Bool) : (s.setPause b).mem = s.mem := rfl
@[simp] theorem State.setPause_memlen (b : Bool) : (s.setPause b).memlen = s.memlen := rfl
@[simp] theorem State.setPause_regions (b : Bool) : (s.setPause b).regions = s.regions := rfl
@[simp] theorem State.setPause_cycle (b : Bool) : (s.setPause b).cycle = s.cycle := rfl
@[simp] theorem State.setPause_breakpoints (b : Bool) : (s.setPause b).breakpoints = s.breakpoints := rfl
@[simp] theorem State.setPause_rngDraws (b : Bool) : (s.setPause b).rngDraws = s.rngDraws := rfl
@[simp] theorem State.setPause_flags (b : Bool) : (s.setPause b).flags = { s.flags with pause := b } := rfl
@[simp] theorem State.setPause_getV (b : Bool) (x : Nibble) : (s.setPause b).getV x = s.getV x := rfl
@[simp] theorem State.setPause_getKey (b : Bool) (q : Nibble) : (s.setPause b).getKey q = s.getKey q := rfl
@[simp] theorem State.setPause_readByte (b : Bool) (a : Nat) : (s.setPause b).readByte a = s.readByte a := rfl
@[simp] theorem State.setPause_readWord (b : Bool) (a : Nat) : (s.setPause b).readWord a = s.readWord a := rfl

/-! ## setKeypause -/

@[simp] theorem State.setKeypause_v (b : Bool) : (s.setKeypause b).v = s.v := rfl
@[simp] theorem State.setKeypause_I (b : Bool) : (s.setKeypause b).I = s.I := rfl
@[simp] theorem State.setKeypause_pc (b : Bool) : (s.setKeypause b).pc = s.pc := rfl
@[simp] theorem State.setKeypause_sp (b : Bool) : (s.setKeypause b).sp = s.sp := rfl
@[simp] theorem State.setKeypause_delay (b : Bool) : (s.setKeypause b).delay = s.delay := rfl
@[simp] theorem State.setKeypause_sound (b : Bool) : (s.setKeypause b).sound = s.sound := rfl
@[simp] theorem State.setKeypause_keys (b : Bool) : (s.setKeypause b).keys = s.keys := rfl
@[simp] theorem State.setKeypause_lastkey (b : Bool) : (s.setKeypause b).lastkey = s.lastkey := rfl
@[simp] theorem State.setKeypause_mem (b : Bool) : (s.setKeypause b).mem = s.mem := rfl
@[simp] theorem State.setKeypause_memlen (b : Bool) : (s.setKeypause b).memlen = s.memlen := rfl
@[simp] theorem State.setKeypause_regions (b : Bool) : (s.setKeypause b).regions = s.regions := rfl
@[simp] theorem State.setKeypause_cycle (b : Bool) : (s.setKeypause b).cycle = s.cycle := rfl
@[simp] theorem State.setKeypause_breakpoints (b : Bool) : (s.setKeypause b).breakpoints = s.breakpoints := rfl
@[simp] theorem State.setKeypause_rngDraws (b : Bool) : (s.setKeypause b).rngDraws = s.rngDraws := rfl
@[simp] theorem State.setKeypause_flags (b : Bool) : (s.setKeypause b).flags = { s.flags with keypause := b } := rfl
@[simp] theorem State.setKeypause_getV (b : Bool) (x : Nibble) : (s.setKeypause b).getV x = s.getV x := rfl
@[simp] theorem State.setKeypause_getKey (b : Bool) (q : Nibble) : (s.setKeypause b).getKey q = s.getKey q := rfl
@[simp] theorem State.setKeypause_readByte (b : Bool) (a : Nat) : (s.setKeypause b).readByte a = s.readByte a := rfl
@[simp] theorem State.setKeypause_readWord (b : Bool) (a : Nat) : (s.setKeypause b).readWord a = s.readWord a := rfl

/-! ## setDrawWait -/

@[simp] theorem State.setDrawWait_v (b : Bool) : (s.setDrawWait b).v = s.v := rfl
@[simp] theorem State.setDrawWait_I (b : Bool) : (s.setDrawWait b).I = s.I := rfl
@[simp] theorem State.setDrawWait_pc (b : Bool) : (s.setDrawWait b).pc = s.pc := rfl
@[simp] theorem State.setDrawWait_sp (b : Bool) : (s.setDrawWait b).sp = s.sp := rfl
@[simp] theorem State.setDrawWait_delay (b : Bool) : (s.setDrawWait b).delay = s.delay := rfl
@[simp] theorem State.setDrawWait_sound (b : Bool) : (s.setDrawWait b).sound = s.sound := rfl
@[simp] theorem State.setDrawWait_keys (b : Bool) : (s.setDrawWait b).keys = s.keys := rfl
@[simp] theorem State.setDrawWait_lastkey (b : Bool) : (s.setDrawWait b).lastkey = s.lastkey := rfl
@[simp] theorem State.setDrawWait_mem (b : Bool) : (s.setDrawWait b).mem = s.mem := rfl
@[simp] theorem State.setDrawWait_memlen (b : Bool) : (s.setDrawWait b).memlen = s.memlen := rfl
@[simp] theorem State.setDrawWait_regions (b : Bool) : (s.setDrawWait b).regions = s.regions := rfl
@[simp] theorem State.setDrawWait_cycle (b : Bool) : (s.setDrawWait b).cycle = s.cycle := rfl
@[simp] theorem State.setDrawWait_breakpoints (b : Bool) : (s.setDrawWait b).breakpoints = s.breakpoints := rfl
@[simp] theorem State.setDrawWait_rngDraws (b : Bool) : (s.setDrawWait b).rngDraws = s.rngDraws := rfl
@[simp] theorem State.setDrawWait_flags (b : Bool) : (s.setDrawWait b).flags = { s.flags with drawWait := b } := rfl
@[simp] theorem State.setDrawWait_getV (b : Bool) (x : Nibble) : (s.setDrawWait b).getV x = s.getV x := rfl
@[simp] theorem State.setDrawWait_getKey (b : Bool) (q : Nibble) : (s.setDrawWait b).getKey q = s.getKey q := rfl
@[simp] theorem State.setDrawWait_readByte (b : Bool) (a : Nat) : (s.setDrawWait b).readByte a = s.readByte a := rfl
@[simp] theorem State.setDrawWait_readWord (b : Bool) (a : Nat) : (s.setDrawWait b).readWord a = s.readWord a := rfl

/-! ## setDrawMode -/

@[simp] theorem State.setDrawMode_v (b : Bool) : (s.setDrawMode b).v = s.v := rfl
@[simp] theorem State.setDrawMode_I (b : Bool) : (s.setDrawMode b).I = s.I := rfl
@[simp] theorem State.setDrawMode_pc (b : Bool) : (s.setDrawMode b).pc = s.pc := rfl
@[simp] theorem State.setDrawMode_sp (b : Bool) : (s.setDrawMode b).sp = s.sp := rfl
@[simp] theorem State.setDrawMode_delay (b : Bool) : (s.setDrawMode b).delay = s.delay := rfl
@[simp] theorem State.setDrawMode_sound (b : Bool) : (s.setDrawMode b).sound = s.sound := rfl
@[simp] theorem State.setDrawMode_keys (b : Bool) : (s.setDrawMode b).keys = s.keys := rfl
@[simp] theorem State.setDrawMode_lastkey (b : Bool) : (s.setDrawMode b).lastkey = s.lastkey := rfl
@[simp] theorem State.setDrawMode_mem (b : Bool) : (s.setDrawMode b).mem = s.mem := rfl
@[simp] theorem State.setDrawMode_memlen (b : Bool) : (s.setDrawMode b).memlen = s.memlen := rfl
@[simp] theorem State.setDrawMode_regions (b : Bool) : (s.setDrawMode b).regions = s.regions := rfl
@[simp] theorem State.setDrawMode_cycle (b : Bool) : (s.setDrawMode b).cycle = s.cycle := rfl
@[simp] theorem State.setDrawMode_breakpoints (b : Bool) : (s.setDrawMode b).breakpoints = s.breakpoints := rfl
@[simp] theorem State.setDrawMode_rngDraws (b : Bool) : (s.setDrawMode b).rngDraws = s.rngDraws := rfl
@[simp] theorem State.setDrawMode_flags (b : Bool) : (s.setDrawMode b).flags = { s.flags with drawMode := b } := rfl
@[simp] theorem State.setDrawMode_getV (b : Bool) (x : Nibble) : (s.setDrawMode b).getV x = s.getV x := rfl
@[simp] theorem State.setDrawMode_getKey (b : Bool) (q : Nibble) : (s.setDrawMode b).getKey q = s.getKey q := rfl
@[simp] theorem State.setDrawMode_readByte (b : Bool) (a : Nat) : (s.setDrawMode b).readByte a = s.readByte a := rfl
@[simp] theorem State.setDrawMode_readWord (b : Bool) (a : Nat) : (s.setDrawMode b).readWord a = s.readWord a := rfl

/-! ## setV -/

@[simp] theorem State.setV_I (x : Nibble) (b : Byte) : (s.setV x b).I = s.I := rfl
@[simp] theorem State.setV_pc (x : Nibble) (b : Byte) : (s.setV x b).pc = s.pc := rfl
@[simp] theorem State.setV_sp (x : Nibble) (b : Byte) : (s.setV x b).sp = s.sp := rfl
@[simp] theorem State.setV_delay (x : Nibble) (b : Byte) : (s.setV x b).delay = s.delay := rfl
@[simp] theorem State.setV_sound (x : Nibble) (b : Byte) : (s.setV x b).sound = s.sound := rfl
@[simp] theorem State.setV_keys (x : Nibble) (b : Byte) : (s.setV x b).keys = s.keys := rfl
@[simp] theorem State.setV_lastkey (x : Nibble) (b : Byte) : (s.setV x b).lastkey = s.lastkey := rfl
@[simp] theorem State.setV_mem (x : Nibble) (b : Byte) : (s.setV x b).mem = s.mem := rfl
@[simp] theorem State.setV_memlen (x : Nibble) (b : Byte) : (s.setV x b).memlen = s.memlen := rfl
@[simp] theorem State.setV_regions (x : Nibble) (b : Byte) : (s.setV x b).regions = s.regions := rfl
@[simp] theorem State.setV_cycle (x : Nibble) (b : Byte) : (s.setV x b).cycle = s.cycle := rfl
@[simp] theorem State.setV_breakpoints (x : Nibble) (b : Byte) : (s.setV x b).breakpoints = s.breakpoints := rfl
@[simp] theorem State.setV_flags (x : Nibble) (b : Byte) : (s.setV x b).flags = s.flags := rfl
@[simp] theorem State.setV_rngDraws (x : Nibble) (b : Byte) : (s.setV x b).rngDraws = s.rngDraws := rfl
@[simp] theorem State.setV_v (x : Nibble) (b : Byte) : (s.setV x b).v = s.v.set x.toNat b x.isLt := rfl
@[simp] theorem State.setV_getKey (x : Nibble) (b : Byte) (q : Nibble) : (s.setV x b).getKey q = s.getKey q := rfl
@[simp] theorem State.setV_readByte (x : Nibble) (b : Byte) (a : Nat) : (s.setV x b).readByte a = s.readByte a := rfl
@[simp] theorem State.setV_readWord (x : Nibble) (b : Byte) (a : Nat) : (s.setV x b).readWord a = s.readWord a := rfl

/-! ## setKey -/

@[simp] theorem State.setKey_v (k : Nibble) (b : Bool) : (s.setKey k b).v = s.v := rfl
@[simp] theorem State.setKey_I (k : Nibble) (b : Bool) : (s.setKey k b).I = s.I := rfl
@[simp] theorem State.setKey_pc (k : Nibble) (b : Bool) : (s.setKey k b).pc = s.pc := rfl
@[simp] theorem State.setKey_sp (k : Nibble) (b : Bool) : (s.setKey k b).sp = s.sp := rfl
@[simp] theorem State.setKey_delay (k : Nibble) (b : Bool) : (s.setKey k b).delay = s.delay := rfl
@[simp] theorem State.setKey_sound (k : Nibble) (b : Bool) : (s.setKey k b).sound = s.sound := rfl
@[simp] theorem State.setKey_lastkey (k : Nibble) (b : Bool) : (s.setKey k b).lastkey = s.lastkey := rfl
@[simp] theorem State.setKey_mem (k : Nibble) (b : Bool) : (s.setKey k b).mem = s.mem := rfl
@[simp] theorem State.setKey_memlen (k : Nibble) (b : Bool) : (s.setKey k b).memlen = s.memlen := rfl
@[simp] theorem State.setKey_regions (k : Nibble) (b : Bool) : (s.setKey k b).regions = s.regions := rfl
@[simp] theorem State.setKey_cycle (k : Nibble) (b : Bool) : (s.setKey k b).cycle = s.cycle := rfl
@[simp] theorem State.setKey_breakpoints (k : Nibble) (b : Bool) : (s.setKey k b).breakpoints = s.breakpoints := rfl
@[simp] theorem State.setKey_flags (k : Nibble) (b : Bool) : (s.setKey k b).flags = s.flags := rfl
@[simp] theorem State.setKey_rngDraws (k : Nibble) (b : Bool) : (s.setKey k b).rngDraws = s.rngDraws := rfl
@[simp] theorem State.setKey_keys (k : Nibble) (b : Bool) : (s.setKey k b).keys = s.keys.set k.toNat b k.isLt := rfl
@[simp] theorem State.setKey_getV (k : Nibble) (b : Bool) (x : Nibble) : (s.setKey k b).getV x = s.getV x := rfl
@[simp] theorem State.setKey_readByte (k : Nibble) (b : Bool) (a : Nat) : (s.setKey k b).readByte a = s.readByte a := rfl
@[simp] theorem State.setKey_readWord (k : Nibble) (b : Bool) (a : Nat) : (s.setKey k b).readWord a = s.readWord a := rfl

/-! ## The register file and the keypad -/

theorem State.getV_setV (x r : Nibble) (b : Byte) :
    (s.setV x b).getV r = if r = x then b else s.getV r := by
  unfold State.getV State.setV
  by_cases h : r = x
  · subst h; simp
  · have : x.toNat ≠ r.toNat := fun e => h (BitVec.eq_of_toNat_eq e.symm)
    simp [h, this]

@[simp] theorem State.getV_setV_same (x : Nibble) (b : Byte) : (s.setV x b).getV x = b := by
  simp [State.getV_setV]

theorem State.getV_setV_ne {x r : Nibble} (b : Byte) (h : r ≠ x) : (s.setV x b).getV r = s.getV r := by
  simp [State.getV_setV, h]

theorem State.getKey_setKey (k q : Nibble) (b : Bool) :
    (s.setKey k b).getKey q = if q = k then b else s.getKey q := by
  unfold State.getKey State.setKey State.setKeys
  by_cases h : q = k
  · subst h; simp
  · have : k.toNat ≠ q.toNat := fun e => h (BitVec.eq_of_toNat_eq e.symm)
    simp [h, this]

end Sys2Proof.Machine
end

