-- ==== Sys2Proof/Laws/Ops.lean ====
section
/-! SUPPORT. One specification per shared operation: everything it can do, said once, for proofs to cite instead of
unfolding it. -/

namespace Sys2Proof.Machine

variable (s : State)

/-! ## Bytes and words -/

/-- Memory is canonical and lists nothing past storage. -/
def State.MemOk (s : State) : Prop := Memory.wf s.mem ∧ Memory.within s.mem s.memlen

theorem State.writeByte_eq (a : Nat) (b : Byte) :
    s.writeByte a b = s.setMem (Memory.write1 s.memlen s.mem a b) := rfl

theorem State.readByte_writeByte (a x : Nat) (b : Byte) :
    (s.writeByte a b).readByte x = if x = a ∧ a + 1 ≤ s.memlen then b else s.readByte x :=
  Memory.read1_write1 s.memlen s.mem a x b

theorem State.writeByte_memOk (a : Nat) (b : Byte) (h : s.MemOk) : (s.writeByte a b).MemOk :=
  ⟨Memory.wf_write1 _ _ _ h.1, Memory.within_write1 _ _ h.2⟩

theorem State.readByte_past_end {a : Nat} (h : s.memlen ≤ a) : s.readByte a = 0 := by
  unfold State.readByte Memory.read1; rw [if_neg (by omega)]

theorem State.readByte_in_storage {a : Nat} (h : a < s.memlen) : s.readByte a = Memory.byteAt s.mem a := by
  unfold State.readByte Memory.read1; rw [if_pos (by omega)]

/-- A word in storage is its two bytes, the lower address first (R65). -/
theorem State.readWord_in_storage {a : Nat} (h : a + 2 ≤ s.memlen) :
    s.readWord a = s.readByte a ++ s.readByte (a + 1) := by
  unfold State.readWord
  rw [if_pos h, s.readByte_in_storage (by omega), s.readByte_in_storage (by omega)]; rfl

theorem State.readWord_past_end {a : Nat} (h : s.memlen < a + 2) : s.readWord a = 0 := by
  unfold State.readWord; rw [if_neg (by omega)]

theorem State.writeWord_past_end {a : Nat} (w : Word) (h : s.memlen < a + 2) : s.writeWord a w = s := by
  unfold State.writeWord; rw [if_neg (by omega)]

/-- A word write is the memory write of its two bytes, or nothing. -/
theorem State.writeWord_eq (a : Nat) (w : Word) :
    s.writeWord a w = s.setMem (if a + 2 ≤ s.memlen then Memory.put16 s.mem a w else s.mem) := by
  unfold State.writeWord; split <;> rfl

theorem State.readByte_writeWord (a x : Nat) (w : Word) :
    (s.writeWord a w).readByte x =
      if a + 2 ≤ s.memlen then
        (if x = a then highByte w else if x = a + 1 then lowByte w else s.readByte x)
      else s.readByte x := by
  rw [State.writeWord_eq]
  by_cases h : a + 2 ≤ s.memlen
  · simp only [h, if_true, State.readByte, State.setMem_mem, State.setMem_memlen, Memory.read1, Memory.put16,
      Memory.byteAt_putByte]
    by_cases h0 : x = a
    · subst h0; simp [show x + 1 ≤ s.memlen by omega, highByte]
    · by_cases h1 : x = a + 1
      · subst h1; simp [show a + 1 + 1 ≤ s.memlen by omega, lowByte]
      · simp [h0, h1]
  · simp [h, State.readByte]

theorem State.writeWord_memOk (a : Nat) (w : Word) (h : s.MemOk) : (s.writeWord a w).MemOk := by
  unfold State.writeWord; split
  · rename_i ha; exact ⟨Memory.wf_put16 _ _ h.1, Memory.within_put16 _ h.2 ha⟩
  · exact h

/-- A word's two bytes make the word. -/
theorem highByte_append_lowByte (w : Word) : (highByte w ++ lowByte w : Word) = w := by
  apply BitVec.eq_of_getLsbD_eq
  intro i hi
  rw [BitVec.getLsbD_append]
  unfold highByte lowByte
  by_cases h : i < 8
  · simp [h]
  · have : 8 + (i - 8) = i := by omega
    simp [h, this, show i - 8 < 8 by omega]

/-- A word in storage reads back as written. -/
theorem State.readWord_writeWord_same (a : Nat) (w : Word) (h : a + 2 ≤ s.memlen) :
    (s.writeWord a w).readWord a = w := by
  rw [State.readWord_in_storage _ (by rw [State.writeWord_eq]; exact h), State.readByte_writeWord,
    State.readByte_writeWord]
  simp [h, highByte_append_lowByte]

/-! ## Growth and regions -/

theorem State.growTo_eq (e : Nat) :
    s.growTo e = (s.setMem (s.growTo e).mem).setMemlen (max s.memlen e) := by
  unfold State.growTo; split
  · rename_i h; rw [max_eq_left h]; rfl
  · rename_i h; rw [max_eq_right (by omega)]; rfl

@[simp] theorem State.growTo_memlen (e : Nat) : (s.growTo e).memlen = max s.memlen e := by
  rw [State.growTo_eq]; rfl

/-- Growth changes no byte: the new bytes read 0, as reads past the end did (R61, R63). -/
theorem State.growTo_readByte (e x : Nat) : (s.growTo e).readByte x = s.readByte x := by
  unfold State.growTo
  split
  · rfl
  · rename_i h
    by_cases hx : x + 1 ≤ s.memlen
    · have h1 : x + 1 ≤ e := by omega
      have h2 : ¬ (s.memlen ≤ x ∧ x < s.memlen + (e - s.memlen)) := by omega
      simp [State.readByte, Memory.read1, h1, hx, Memory.byteAt_zeroFill, h2]
    · by_cases h1 : x + 1 ≤ e
      · have h2 : s.memlen ≤ x ∧ x < s.memlen + (e - s.memlen) := by omega
        simp [State.readByte, Memory.read1, h1, hx, Memory.byteAt_zeroFill, h2]
      · simp [State.readByte, Memory.read1, h1, hx]

theorem State.growTo_memOk (e : Nat) (h : s.MemOk) : (s.growTo e).MemOk := by
  unfold State.growTo
  split
  · exact h
  · rename_i he
    exact ⟨Memory.wf_zeroFill _ _ h.1,
      Memory.within_zeroFill (Memory.within_mono h.2 (by simp only [State.setMemlen_memlen]; omega))
        (.inr (by simp only [State.setMemlen_memlen]; omega))⟩

theorem State.setRegion_eq (tag : RegionTag) (r : ByteRange) :
    s.setRegion tag r =
      ((s.setMem (s.growTo r.stop).mem).setMemlen (max s.memlen r.stop)).setRegions (s.regions.put tag r) := by
  unfold State.setRegion; rw [State.growTo_eq]; rfl

theorem State.setRegion_readByte (tag : RegionTag) (r : ByteRange) (x : Nat) :
    (s.setRegion tag r).readByte x = s.readByte x := s.growTo_readByte r.stop x

theorem State.setRegion_memOk (tag : RegionTag) (r : ByteRange) (h : s.MemOk) : (s.setRegion tag r).MemOk :=
  s.growTo_memOk r.stop h

theorem Regions.get_put (r : Regions) (tag tag' : RegionTag) (range : ByteRange) :
    (r.put tag range).get tag' = if tag' = tag then some range else r.get tag' := by
  cases tag <;> cases tag' <;> rfl

/-- Clearing a region changes memory only. -/
theorem State.clearRegion_eq (tag : RegionTag) : s.clearRegion tag = s.setMem (s.clearRegion tag).mem := by
  unfold State.clearRegion; split <;> rfl

theorem State.clearRegion_undeclared {tag : RegionTag} (h : s.regions.get tag = none) : s.clearRegion tag = s := by
  unfold State.clearRegion; rw [h]

/-- A cleared region reads 0, every other byte as before (R69). -/
theorem State.clearRegion_readByte {tag : RegionTag} {r : ByteRange} (h : s.regions.get tag = some r) (x : Nat) :
    (s.clearRegion tag).readByte x = if r.start ≤ x ∧ x < r.stop then 0 else s.readByte x := by
  unfold State.clearRegion
  rw [h]
  simp only [State.readByte, State.setMem_mem, State.setMem_memlen, Memory.read1, Memory.byteAt_zeroFill]
  by_cases hx : x + 1 ≤ s.memlen
  · by_cases hr : r.start ≤ x ∧ x < r.stop
    · rw [if_pos hx, if_pos (by omega), if_pos hr]
    · rw [if_pos hx, if_neg (by omega), if_neg hr, if_pos hx]
  · simp [hx]

theorem State.clearRegion_memOk (tag : RegionTag) (h : s.MemOk) : (s.clearRegion tag).MemOk := by
  unfold State.clearRegion
  split
  · exact h
  · exact ⟨Memory.wf_zeroFill _ _ h.1, Memory.within_zeroFill h.2 (by simp only [State.setMem_memlen]; omega)⟩

/-- Loading a region changes memory only. -/
theorem State.loadRegion_eq (tag : RegionTag) (data : List Byte) :
    s.loadRegion tag data = s.setMem (s.loadRegion tag data).mem := by
  unfold State.loadRegion; split <;> rfl

theorem State.loadRegion_undeclared {tag : RegionTag} (data : List Byte) (h : s.regions.get tag = none) :
    s.loadRegion tag data = s := by
  unfold State.loadRegion; rw [h]

/-- A loaded region holds the data from its start, truncated to the region; every other byte reads as before
(R68). -/
theorem State.loadRegion_readByte {tag : RegionTag} {r : ByteRange} (data : List Byte)
    (h : s.regions.get tag = some r) (x : Nat) :
    (s.loadRegion tag data).readByte x =
      if r.start ≤ x ∧ x < r.stop ∧ x < r.start + data.length ∧ x < s.memlen then data.getD (x - r.start) 0
      else s.readByte x := by
  unfold State.loadRegion
  rw [h]
  simp only [State.readByte, State.setMem_mem, State.setMem_memlen, Memory.read1, Memory.byteAt_copyIn,
    List.length_take]
  by_cases hx : x + 1 ≤ s.memlen
  · by_cases hr : r.start ≤ x ∧ x < r.stop ∧ x < r.start + data.length ∧ x < s.memlen
    · rw [if_pos hx, if_pos (by omega), if_pos hr]
      rw [List.getD_eq_getElem?_getD, List.getD_eq_getElem?_getD, List.getElem?_take_of_lt (by omega)]
    · rw [if_pos hx, if_neg (by omega), if_neg hr, if_pos hx]
  · rw [if_neg hx, if_neg (by omega), if_neg hx]

theorem State.loadRegion_memOk (tag : RegionTag) (data : List Byte) (h : s.MemOk) :
    (s.loadRegion tag data).MemOk := by
  unfold State.loadRegion
  split
  · exact h
  · rename_i r _
    refine ⟨Memory.wf_copyIn _ _ h.1, Memory.within_copyIn _ h.2 ?_⟩
    simp only [State.setMem_memlen]
    by_cases h0 : min r.stop s.memlen - r.start = 0
    · left; rw [h0]; rfl
    · right; rw [List.length_take]; omega

/-- Everything the resolution switch does (R236, R237, R309): `draw_mode`, the Screen region, storage grown to it, and
the Screen bytes 0; no other byte and no other field changes. -/
theorem State.switchResolution_eq (hires : Bool) :
    s.switchResolution hires =
      ((((s.setDrawMode hires).setMem (s.switchResolution hires).mem).setMemlen
        (max s.memlen (screenRange hires).stop)).setRegions (s.regions.put .screen (screenRange hires))) := by
  unfold State.switchResolution
  rw [State.clearRegion_eq, State.setRegion_eq]; rfl

theorem State.switchResolution_readByte (hires : Bool) (x : Nat) :
    (s.switchResolution hires).readByte x =
      if (screenRange hires).start ≤ x ∧ x < (screenRange hires).stop then 0 else s.readByte x := by
  unfold State.switchResolution
  rw [State.clearRegion_readByte (r := screenRange hires) _ rfl, State.setRegion_readByte]
  rfl

theorem State.switchResolution_memOk (hires : Bool) (h : s.MemOk) : (s.switchResolution hires).MemOk :=
  State.clearRegion_memOk _ _ (State.setRegion_memOk (s.setDrawMode hires) _ _ h)

/-! ## Stack, skip, flags -/

theorem push_full (word val : Word) (k : State → Out) (h : s.depth = Config.stackDepth) :
    push word val s k = .fault (.stackOverflow word (s.pc - 2)) := by
  unfold push; rw [if_pos h]; rfl

theorem push_room (word val : Word) (k : State → Out) (h : s.depth ≠ Config.stackDepth) :
    push word val s k = k ((s.writeWord s.sp.toNat val).setSp (s.sp - 2)) := by
  unfold push; rw [if_neg h]

theorem pop_empty (word : Word) (k : Word → State → Out) (h : s.sp = Config.spBase) :
    pop word s k = .fault (.stackUnderflow word (s.pc - 2)) := by
  unfold pop; rw [if_pos h]; rfl

theorem pop_entry (word : Word) (k : Word → State → Out) (h : s.sp ≠ Config.spBase) :
    pop word s k = k (s.readWord (s.sp + 2).toNat) (s.setSp (s.sp + 2)) := by
  unfold pop; rw [if_neg h]; rfl

/-- A skip changes nothing but `pc`, by 2 when taken (R156). -/
theorem State.skipIf_eq (c : Bool) : s.skipIf c = s.setPc (if c then s.pc + 2 else s.pc) := by
  unfold State.skipIf; split <;> rfl

/-- After a result and its flag, vF holds the flag and `v[x]`, when it is not vF, the result (R181). -/
theorem State.writeResultFlag_getV (x r : Nibble) (result flag : Byte) :
    (s.writeResultFlag x result flag).getV r =
      if r = vF then flag else if r = x then result else s.getV r := by
  unfold State.writeResultFlag; rw [State.getV_setV, State.getV_setV]

theorem State.writeResultFlag_eq (x : Nibble) (result flag : Byte) :
    s.writeResultFlag x result flag = { s with v := (s.writeResultFlag x result flag).v } := rfl

/-- After a logic operation (R185). -/
theorem State.writeLogic_getV (x r : Nibble) (result : Byte) :
    (s.writeLogic x result).getV r =
      if r = vF ∧ s.flags.quirks.binOps = false then 0 else if r = x then result else s.getV r := by
  unfold State.writeLogic
  cases s.flags.quirks.binOps
  · simp [State.writeResultFlag_getV]
  · simp [State.getV_setV]

theorem State.writeLogic_eq (x : Nibble) (result : Byte) :
    s.writeLogic x result = { s with v := (s.writeLogic x result).v } := by
  unfold State.writeLogic; split <;> rfl

/-! ## Register ranges -/

theorem ofNat4_inj {i j : Nat} (hi : i < 16) (hj : j < 16) : BitVec.ofNat 4 i = BitVec.ofNat 4 j ↔ i = j := by
  constructor
  · intro h; have := congrArg BitVec.toNat h; simp only [BitVec.toNat_ofNat] at this; omega
  · rintro rfl; rfl

/-- Effective addresses of distinct small offsets are distinct (R217). -/
theorem State.ea_inj {i j : Nat} (hi : i < 65536) (hj : j < 65536) : s.ea i = s.ea j ↔ i = j := by
  unfold State.ea
  constructor
  · intro h
    have h1 : s.I + BitVec.ofNat 16 i = s.I + BitVec.ofNat 16 j := BitVec.eq_of_toNat_eq h
    have h2 : BitVec.ofNat 16 i = BitVec.ofNat 16 j := by simpa using h1
    have := congrArg BitVec.toNat h2
    simp only [BitVec.toNat_ofNat] at this; omega
  · rintro rfl; rfl

/-- Storing registers changes memory only. -/
theorem State.storeRegs_eq (n : Nat) : s.storeRegs n = s.setMem (s.storeRegs n).mem := by
  induction n with
  | zero => rfl
  | succ n ih => rw [State.storeRegs, ih]; rfl

@[simp] theorem State.storeRegs_memlen (n : Nat) : (s.storeRegs n).memlen = s.memlen := by
  rw [State.storeRegs_eq]; rfl

/-- The byte at `I + i` holds `v[i]` for `i < n`, when it lies in storage (R214). -/
theorem State.storeRegs_readByte_stored {n i : Nat} (hn : n ≤ 16) (hi : i < n) (hs : s.ea i < s.memlen) :
    (s.storeRegs n).readByte (s.ea i) = s.getV (BitVec.ofNat 4 i) := by
  induction n with
  | zero => omega
  | succ n ih =>
    rw [State.storeRegs, State.readByte_writeByte, State.storeRegs_memlen]
    by_cases he : i = n
    · subst he; rw [if_pos ⟨rfl, hs⟩]
    · rw [if_neg (fun h => he ((s.ea_inj (by omega) (by omega)).mp h.1))]
      exact ih (by omega) (by omega)

/-- Every byte that is not at some `I + i` with `i < n` reads as before (R214). -/
theorem State.storeRegs_readByte_other {n x : Nat} (h : ∀ i, i < n → s.ea i ≠ x) :
    (s.storeRegs n).readByte x = s.readByte x := by
  induction n with
  | zero => rfl
  | succ n ih =>
    rw [State.storeRegs, State.readByte_writeByte, if_neg (fun e => h n (by omega) e.1.symm)]
    exact ih (fun i hi => h i (by omega))

theorem State.storeRegs_memOk (n : Nat) (h : s.MemOk) : (s.storeRegs n).MemOk := by
  induction n with
  | zero => exact h
  | succ n ih => exact State.writeByte_memOk _ _ _ ih

/-- Loading registers changes the V registers only. -/
theorem State.loadRegs_eq (n : Nat) : s.loadRegs n = { s with v := (s.loadRegs n).v } := by
  induction n with
  | zero => rfl
  | succ n ih => rw [State.loadRegs, ih]; rfl

/-- `v[i]` holds the byte at `I + i` for `i < n`, every other register is as before (R215). -/
theorem State.loadRegs_getV (n : Nat) (hn : n ≤ 16) (r : Nibble) :
    (s.loadRegs n).getV r = if r.toNat < n then s.readByte (s.ea r.toNat) else s.getV r := by
  induction n with
  | zero => rfl
  | succ n ih =>
    rw [State.loadRegs, State.getV_setV, ih (by omega)]
    by_cases h : r = BitVec.ofNat 4 n
    · have hr : r.toNat = n := by rw [h, BitVec.toNat_ofNat]; omega
      rw [if_pos h, if_pos (by omega), hr]
    · have hr : r.toNat ≠ n := by
        intro e; apply h; apply BitVec.eq_of_toNat_eq; rw [BitVec.toNat_ofNat, e]; omega
      rw [if_neg h]
      by_cases h2 : r.toNat < n
      · rw [if_pos h2, if_pos (by omega)]
      · rw [if_neg h2, if_neg (by omega)]

/-- The I update of Fx55 and Fx65 changes I only (R214, R215). -/
theorem State.dmaAdvance_eq (x : Nibble) :
    s.dmaAdvance x =
      s.setI (if s.flags.quirks.dmaInc then s.I else s.I + BitVec.ofNat 16 (x.toNat + 1)) := by
  unfold State.dmaAdvance; split <;> rfl

/-! ## Pixels -/

/-- A flipped pixel is inverted, every other pixel of the screen is as before, when the screen is in storage
(R230, R231). -/
theorem Memory.pixelAt_flipPixel (len w : Nat) (m : Memory) (px py qx qy : Nat) (hw : 8 ∣ w) (hp : px < w)
    (hq : qx < w) (hs : pixelByte w qx qy + 1 ≤ len) :
    Memory.pixelAt len w (Memory.flipPixel len w m qx qy) px py =
      (Memory.pixelAt len w m px py ^^ decide (px = qx ∧ py = qy)) := by
  unfold Memory.pixelAt Memory.flipPixel
  rw [Memory.read1_write1]
  have hdiv : ∀ z, z < w → z / 8 < w / 8 := fun z hz => by
    obtain ⟨k, rfl⟩ := hw; omega
  by_cases hb : pixelByte w px py = pixelByte w qx qy
  · rw [if_pos ⟨hb, hs⟩, hb]
    unfold pixelByte at hb
    have h1 := hdiv px hp
    have h2 := hdiv qx hq
    have hyy : py = qy := by
      have hk : py * (w / 8) + px / 8 = qy * (w / 8) + qx / 8 := by omega
      have e1 : (py * (w / 8) + px / 8) / (w / 8) = py := by
        rw [Nat.mul_comm, Nat.mul_add_div (by omega), Nat.div_eq_of_lt h1, Nat.add_zero]
      have e2 : (qy * (w / 8) + qx / 8) / (w / 8) = qy := by
        rw [Nat.mul_comm, Nat.mul_add_div (by omega), Nat.div_eq_of_lt h2, Nat.add_zero]
      rw [← e1, hk, e2]
    subst hyy
    have hxx : px / 8 = qx / 8 := by omega
    simp only [BitVec.getLsbD_xor, BitVec.getLsbD_shiftLeft, pixelBit, and_true]
    congr 1
    have hl : 7 - px % 8 < 8 := by omega
    by_cases he : px = qx
    · subst he; simp [hl]
    · have hne : px % 8 ≠ qx % 8 := by omega
      rw [decide_eq_false he]
      by_cases hlt : 7 - px % 8 < 7 - qx % 8
      · simp [hlt]
      · have : 7 - px % 8 - (7 - qx % 8) ≠ 0 := by omega
        have h0 : (1#8).getLsbD (7 - px % 8 - (7 - qx % 8)) = false := by
          rw [BitVec.getLsbD_one]; simp only [this, decide_false, Bool.and_false]
        simp [h0]
  · rw [if_neg (fun h => hb h.1)]
    have : ¬ (px = qx ∧ py = qy) := by rintro ⟨rfl, rfl⟩; exact hb rfl
    simp [this]

/-- A flip changes no byte but the pixel's. -/
theorem Memory.read1_flipPixel_ne (len w : Nat) (m : Memory) (qx qy x : Nat) (h : x ≠ pixelByte w qx qy) :
    Memory.read1 len (Memory.flipPixel len w m qx qy) x = Memory.read1 len m x := by
  unfold Memory.flipPixel; rw [Memory.read1_write1, if_neg (fun e => h e.1)]

/-- A property of memory that every flip keeps, the whole draw keeps. -/
theorem State.drawSprite_induction {P : Memory → Prop} (x y n : Nibble)
    (step : ∀ m qx qy, P m → P (Memory.flipPixel s.memlen s.screenW m qx qy)) (h : P s.mem) :
    P (s.drawSprite x y n).2 := by
  have pixel : ∀ px py acc, P acc.2 → P (s.drawPixel px py acc).2 := by
    intro px py acc hacc
    unfold State.drawPixel; split
    · exact hacc
    · exact step _ _ _ hacc
  have row : ∀ r c acc, P acc.2 → P (s.drawRow n (s.originX x) (s.originY y) r c acc).2 := by
    intro r c acc hacc
    induction c with
    | zero => exact hacc
    | succ c ih =>
      unfold State.drawRow
      split
      · exact pixel _ _ _ ih
      · exact ih
  have rows : ∀ k, P (s.drawRows n (s.originX x) (s.originY y) k (false, s.mem)).2 := by
    intro k
    induction k with
    | zero => exact h
    | succ k ih => exact row _ _ _ ih
  exact rows _

/-- A draw keeps memory canonical and inside storage. -/
theorem State.drawSprite_memOk (x y n : Nibble) (h : s.MemOk) :
    (s.setMem (s.drawSprite x y n).2).MemOk :=
  s.drawSprite_induction (P := fun m => Memory.wf m ∧ Memory.within m s.memlen) x y n
    (fun _ _ _ hm => ⟨Memory.wf_write1 _ _ _ hm.1, Memory.within_write1 _ _ hm.2⟩) h

/-! ## Around an instruction -/

@[simp] theorem State.setCycle_atBreakpoint (n : Nat) : (s.setCycle n).atBreakpoint = s.atBreakpoint := rfl

/-- What retiring leaves (R121): one more cycle, and Paused at a breakpoint. -/
theorem retire_state :
    (retire s).2 =
      if s.atBreakpoint then (s.setCycle (s.cycle + 1)).setPause true else s.setCycle (s.cycle + 1) := by
  unfold retire
  by_cases hb : s.atBreakpoint = true <;> by_cases hp : s.flags.pause = true <;> simp [hb, hp]

/-- Retiring reports Ran or Stopped, never Idle, a fault or a refusal. -/
theorem retire_outcome :
    (retire s).1 =
      if s.atBreakpoint then .stopped .breakpoint s.pc
      else if s.flags.pause then .stopped .selfJump s.pc else .ran := by
  unfold retire
  by_cases hb : s.atBreakpoint = true <;> by_cases hp : s.flags.pause = true <;> simp [hb, hp]

/-- Everything a tick can do (R121, R286): nothing when stalled; else its instruction's next state retired; else a
fault or a refusal with `pc` advanced and nothing else changed. -/
theorem tick_cases (hires : Bool) :
    (s.stalled = true ∧ tick hires s = (.idle, s)) ∨
    (s.stalled = false ∧ ∃ t, execDecoded (decode hires s.fetch) s.advance = .next t ∧ tick hires s = retire t) ∨
    (s.stalled = false ∧ ∃ f, execDecoded (decode hires s.fetch) s.advance = .fault f ∧
      tick hires s = (.fault f, s.advance)) ∨
    (s.stalled = false ∧ ∃ r, execDecoded (decode hires s.fetch) s.advance = .refused r ∧
      tick hires s = (.refused r, s.advance)) := by
  cases hs : s.stalled
  · right
    cases he : execDecoded (decode hires s.fetch) s.advance with
    | next t => left; exact ⟨rfl, t, rfl, by unfold tick; rw [hs, he]; rfl⟩
    | fault f => right; left; exact ⟨rfl, f, rfl, by unfold tick; rw [hs, he]; rfl⟩
    | refused r => right; right; exact ⟨rfl, r, rfl, by unfold tick; rw [hs, he]; rfl⟩
  · left; exact ⟨rfl, by unfold tick; rw [hs]; rfl⟩

/-! ## Breakpoints -/

theorem mem_insertAddr {a b : Word} {l : List Word} : b ∈ insertAddr a l ↔ b = a ∨ b ∈ l := by
  induction l with
  | nil => simp [insertAddr]
  | cons c l ih =>
    unfold insertAddr
    split
    · simp
    · split
      · rename_i h; subst h; simp
      · simp [ih]; tauto

theorem sorted_insertAddr {a : Word} {l : List Word} (h : l.Pairwise (fun a b => a < b)) :
    (insertAddr a l).Pairwise (fun a b => a < b) := by
  induction l with
  | nil => simp [insertAddr]
  | cons c l ih =>
    rw [List.pairwise_cons] at h
    unfold insertAddr
    split
    · rename_i hlt
      refine List.pairwise_cons.mpr ⟨?_, List.pairwise_cons.mpr h⟩
      intro d hd
      rcases List.mem_cons.mp hd with rfl | hd
      · exact hlt
      · exact BitVec.lt_trans hlt (h.1 d hd)
    · split
      · rename_i he; subst he; exact List.pairwise_cons.mpr h
      · rename_i h1 h2
        refine List.pairwise_cons.mpr ⟨?_, ih h.2⟩
        intro d hd
        rcases mem_insertAddr.mp hd with rfl | hd
        · have : d.toNat ≠ c.toNat := fun e => h2 (BitVec.eq_of_toNat_eq e)
          rw [BitVec.lt_def] at h1 ⊢; omega
        · exact h.1 d hd

theorem sorted_sortAddrs (l : List Word) : (sortAddrs l).Pairwise (fun a b => a < b) := by
  induction l with
  | nil => exact List.Pairwise.nil
  | cons a l ih => exact sorted_insertAddr ih

theorem mem_sortAddrs {b : Word} {l : List Word} : b ∈ sortAddrs l ↔ b ∈ l := by
  induction l with
  | nil => simp [sortAddrs]
  | cons a l ih =>
    change b ∈ insertAddr a (sortAddrs l) ↔ _
    rw [mem_insertAddr, ih, List.mem_cons]

end Sys2Proof.Machine
end

