-- ==== Sys2Proof/Laws/Host.lean ====
section
/-! SUPPORT. What a host call can do to a wait (spec/60_exceptions.md R295), and what a run keeps (spec/40_engine.md
R131). -/

namespace Sys2Proof.Machine

variable {hires : Bool} {c : HostCall} {s t : State} {reply : HostReply} {r r' : Run}

/-! ## A stalled engine -/

theorem tick_stalled (h : s.stalled = true) : tick hires s = (.idle, s) := by
  unfold tick
  rw [h]
  rfl

theorem multistep_stalled (h : s.stalled = true) (n : Nat) : multistep hires n s = (.budgetExhausted, s) := by
  induction n with
  | zero => rfl
  | succ n ih =>
    unfold multistep
    rw [tick_stalled h]
    exact ih

theorem stalled_of_pause (h : s.flags.pause = true) : s.stalled = true := by simp [State.stalled, h]
theorem stalled_of_keypause (h : s.flags.keypause = true) : s.stalled = true := by simp [State.stalled, h]
theorem stalled_of_drawWait (h : s.flags.drawWait = true) : s.stalled = true := by simp [State.stalled, h]

/-- A single step of an engine in KeyWait or Draw-wait executes nothing. -/
theorem singlestep_waiting (h : s.flags.keypause = true ∨ s.flags.drawWait = true) :
    singlestep hires s = (.idle, (s.setPause false).setPause true) := by
  unfold singlestep
  rw [tick_stalled (by cases h <;> simp [State.stalled, *])]

theorem hostMove_eq (h : hostMove hires c s = some (reply, t)) : c.allowed s = true ∧ hostCall hires c s = (reply, t) := by
  unfold hostMove at h
  split at h
  · exact ⟨‹_›, Option.some.inj h⟩
  · cases h

/-! ## Which flags an operation leaves -/

@[simp] theorem State.clearRegion_flags (s : State) (tag : RegionTag) : (s.clearRegion tag).flags = s.flags := by
  rw [State.clearRegion_eq]
  rfl

@[simp] theorem State.loadRegion_flags (s : State) (tag : RegionTag) (data : List Byte) :
    (s.loadRegion tag data).flags = s.flags := by
  rw [State.loadRegion_eq]
  rfl

@[simp] theorem State.growTo_flags (s : State) (e : Nat) : (s.growTo e).flags = s.flags := by
  unfold State.growTo
  split <;> rfl

@[simp] theorem State.setRegion_flags (s : State) (tag : RegionTag) (range : ByteRange) :
    (s.setRegion tag range).flags = s.flags := by
  simp [State.setRegion]

@[simp] theorem State.switchResolution_flags (s : State) (h : Bool) :
    (s.switchResolution h).flags = { s.flags with drawMode := h } := by
  simp [State.switchResolution]

@[simp] theorem State.putSlice_flags (s : State) (range : ByteRange) (data : List Byte) :
    (s.putSlice range data).flags = s.flags := by
  unfold State.putSlice
  split <;> rfl

@[simp] theorem State.putRegion_flags (s : State) (tag : RegionTag) (data : List Byte) :
    (s.putRegion tag data).flags = s.flags := by
  unfold State.putRegion
  split <;> simp

@[simp] theorem State.writeByte_flags (s : State) (a : Nat) (b : Byte) : (s.writeByte a b).flags = s.flags := rfl

@[simp] theorem State.writeWord_flags (s : State) (a : Nat) (w : Word) : (s.writeWord a w).flags = s.flags := by
  unfold State.writeWord
  split <;> rfl

@[simp] theorem State.write32_flags (s : State) (a : Nat) (w : BitVec 32) : (s.write32 a w).flags = s.flags := by
  unfold State.write32
  split <;> rfl

@[simp] theorem State.write128_flags (s : State) (a : Nat) (w : BitVec 128) : (s.write128 a w).flags = s.flags := by
  unfold State.write128
  split <;> rfl

@[simp] theorem hostPress_flags (s : State) (k : Nat) : (hostPress k s).flags = s.flags := by
  unfold hostPress
  split <;> rfl

theorem hostRelease_flags (s : State) (k : Nat) :
    (hostRelease k s).flags = if k < 16 then { s.flags with keypause := false } else s.flags := by
  unfold hostRelease
  split
  · cases hk : s.flags.keypause <;> simp [State.setKey, hk]
    cases hf : s.flags
    simp_all
  · rfl

theorem hostRelease_keypause (s : State) (k : Nat) :
    (hostRelease k s).flags.keypause = (s.flags.keypause && !decide (k < 16)) := by
  rw [hostRelease_flags]
  split <;> simp [*]

@[simp] theorem hostRelease_drawWait (s : State) (k : Nat) : (hostRelease k s).flags.drawWait = s.flags.drawWait := by
  rw [hostRelease_flags]
  split <;> rfl

@[simp] theorem hostRelease_pause (s : State) (k : Nat) : (hostRelease k s).flags.pause = s.flags.pause := by
  rw [hostRelease_flags]
  split <;> rfl

@[simp] theorem hardReset_flags (s : State) (rom : List Byte) : (hardReset rom s).flags = s.flags := by
  simp [hardReset, construct]

/-! ## Only the duty of R295 ends a wait -/

/-- Only a release of a key, a soft reset or a new construction ends a KeyWait. -/
theorem hostMove_keypause (h : hostMove hires c s = some (reply, t)) (hk : s.flags.keypause = true) :
    t.flags.keypause = true ∨ (∃ k, k < 16 ∧ c = .release k) ∨ c = .softReset ∨ ∃ b f, c = .new b f := by
  obtain ⟨ha, h⟩ := hostMove_eq h
  have hs := stalled_of_keypause hk
  cases c <;> simp only [hostCall, tick_stalled hs, multistep_stalled hs, singlestep_waiting (.inl hk), Prod.mk.injEq] at h <;>
    obtain ⟨-, rfl⟩ := h <;>
    simp_all [hostTickTimer, hostRelease_keypause, HostCall.allowed, endsWait, hostTogglePause, hostToggleDebug, hostSetQuirks,
      hostToggleQuirks, hostSetMode, hostSetBreak, hostUnsetBreak]
  omega

/-- Only a timer tick, a soft reset or a new construction ends a Draw-wait. -/
theorem hostMove_drawWait (h : hostMove hires c s = some (reply, t)) (hw : s.flags.drawWait = true) :
    t.flags.drawWait = true ∨ c = .tickTimer ∨ c = .softReset ∨ ∃ b f, c = .new b f := by
  obtain ⟨ha, h⟩ := hostMove_eq h
  have hs := stalled_of_drawWait hw
  cases c <;> simp only [hostCall, tick_stalled hs, multistep_stalled hs, singlestep_waiting (.inr hw), Prod.mk.injEq] at h <;>
    obtain ⟨-, rfl⟩ := h <;>
    simp_all [HostCall.allowed, endsWait, hostTogglePause, hostToggleDebug, hostSetQuirks,
      hostToggleQuirks, hostSetMode, hostSetBreak, hostUnsetBreak]

/-- Only the `pause()` toggle or a new construction leaves a paused engine not paused (a single step unpauses it for one
tick and pauses it again). -/
theorem hostMove_pause (h : hostMove hires c s = some (reply, t)) (hp : s.flags.pause = true) :
    t.flags.pause = true ∨ c = .togglePause ∨ ∃ b f, c = .new b f := by
  obtain ⟨ha, h⟩ := hostMove_eq h
  have hs := stalled_of_pause hp
  cases c <;> simp only [hostCall, tick_stalled hs, multistep_stalled hs, Prod.mk.injEq] at h <;>
    obtain ⟨-, rfl⟩ := h <;>
    simp_all [hostTickTimer, HostCall.allowed, endsWait, hostToggleDebug, hostSetQuirks,
      hostToggleQuirks, hostSetMode, hostSetBreak, hostUnsetBreak, softReset, singlestep]

/-! ## Runs (R131) -/

theorem Run.move_eq (h : r.move hires c = some r') :
    ∃ reply t, hostMove hires c r.state = some (reply, t) ∧ r' = r.after c reply t := by
  obtain ⟨⟨reply, t⟩, hm, rfl⟩ := Option.map_eq_some_iff.mp h
  exact ⟨reply, t, hm, rfl⟩

/-- A fault is kept for the rest of the run. -/
theorem Run.move_fault {f : Fault} (h : r.move hires c = some r') (hf : r.fault = some f) : r'.fault = some f := by
  obtain ⟨reply, t, -, rfl⟩ := Run.move_eq h
  simp [Run.after, hf]

/-- What a halted run is. -/
theorem runStatus_halted (h : runStatus r = .halted) :
    r.fault = none ∧ r.state.flags.pause = true ∧ r.state.flags.keypause = false ∧ r.state.flags.drawWait = false ∧
      r.selfJump = some r.state.pc ∧ r.state.atSelfJump = true := by
  unfold runStatus at h
  split at h
  · cases h
  · split at h
    · cases h
    · split at h
      · split at h <;> simp_all
      · cases h

end Sys2Proof.Machine
end

