-- ==== Sys2Proof/Laws/PerInstr.lean ====
section
/-! SUPPORT. Per instruction: the word the encoder gives agrees with the instruction's row of spec/opcode_table.json, that
is it holds the row's `match` value in the bits of the row's `mask` (spec/30_encoding.md R107). -/

namespace Sys2Proof.Laws.EncodingMatchesTable

/-- The `mask` of the instruction's row: the bits that do not vary. -/
def tableMask (i : Instr) : Word :=
  match i with
  | .cls => 0xFFFF
  | .ret => 0xFFFF
  | .low => 0xFFFF
  | .high => 0xFFFF
  | .jp _ => 0xF000
  | .call _ => 0xF000
  | .seImm _ _ => 0xF000
  | .sneImm _ _ => 0xF000
  | .seReg _ _ => 0xF00F
  | .ldImm _ _ => 0xF000
  | .addImm _ _ => 0xF000
  | .ldReg _ _ => 0xF00F
  | .orReg _ _ => 0xF00F
  | .andReg _ _ => 0xF00F
  | .xorReg _ _ => 0xF00F
  | .addReg _ _ => 0xF00F
  | .sub _ _ => 0xF00F
  | .shr _ _ => 0xF00F
  | .subn _ _ => 0xF00F
  | .shl _ _ => 0xF00F
  | .sneReg _ _ => 0xF00F
  | .ldI _ => 0xF000
  | .jpV0 _ => 0xF000
  | .rnd _ _ => 0xF000
  | .drw _ _ _ => 0xF000
  | .skp _ => 0xF0FF
  | .sknp _ => 0xF0FF
  | .ldVxDt _ => 0xF0FF
  | .ldVxK _ => 0xF0FF
  | .ldDtVx _ => 0xF0FF
  | .ldStVx _ => 0xF0FF
  | .addI _ => 0xF0FF
  | .ldF _ => 0xF0FF
  | .ldB _ => 0xF0FF
  | .ldMemI _ => 0xF0FF
  | .ldRegI _ => 0xF0FF

/-- The `match` value of the instruction's row. -/
def tableMatch (i : Instr) : Word :=
  match i with
  | .cls => 0x00E0
  | .ret => 0x00EE
  | .low => 0x00FE
  | .high => 0x00FF
  | .jp _ => 0x1000
  | .call _ => 0x2000
  | .seImm _ _ => 0x3000
  | .sneImm _ _ => 0x4000
  | .seReg _ _ => 0x5000
  | .ldImm _ _ => 0x6000
  | .addImm _ _ => 0x7000
  | .ldReg _ _ => 0x8000
  | .orReg _ _ => 0x8001
  | .andReg _ _ => 0x8002
  | .xorReg _ _ => 0x8003
  | .addReg _ _ => 0x8004
  | .sub _ _ => 0x8005
  | .shr _ _ => 0x8006
  | .subn _ _ => 0x8007
  | .shl _ _ => 0x800E
  | .sneReg _ _ => 0x9000
  | .ldI _ => 0xA000
  | .jpV0 _ => 0xB000
  | .rnd _ _ => 0xC000
  | .drw _ _ _ => 0xD000
  | .skp _ => 0xE09E
  | .sknp _ => 0xE0A1
  | .ldVxDt _ => 0xF007
  | .ldVxK _ => 0xF00A
  | .ldDtVx _ => 0xF015
  | .ldStVx _ => 0xF018
  | .addI _ => 0xF01E
  | .ldF _ => 0xF029
  | .ldB _ => 0xF033
  | .ldMemI _ => 0xF055
  | .ldRegI _ => 0xF065

/-- The instruction's word holds its row's `match` in the bits of its row's `mask`. -/
def Statement (i : Instr) : Prop := encode i &&& tableMask i = tableMatch i

theorem cls : Statement .cls := by unfold Statement; decide

theorem ret : Statement .ret := by unfold Statement; decide

theorem low : Statement .low := by unfold Statement; decide

theorem high : Statement .high := by unfold Statement; decide

theorem jp (nnn : Addr) : Statement (.jp nnn) := by
  apply BitVec.eq_of_getLsbD_eq
  intro k hk
  simp only [encode, tableMask, tableMatch, BitVec.getLsbD_and, BitVec.getLsbD_append]
  interval_cases k <;> simp

theorem call (nnn : Addr) : Statement (.call nnn) := by
  apply BitVec.eq_of_getLsbD_eq
  intro k hk
  simp only [encode, tableMask, tableMatch, BitVec.getLsbD_and, BitVec.getLsbD_append]
  interval_cases k <;> simp

theorem seImm (x : Nibble) (kk : Byte) : Statement (.seImm x kk) := by
  apply BitVec.eq_of_getLsbD_eq
  intro k hk
  simp only [encode, tableMask, tableMatch, BitVec.getLsbD_and, BitVec.getLsbD_append]
  interval_cases k <;> simp

theorem sneImm (x : Nibble) (kk : Byte) : Statement (.sneImm x kk) := by
  apply BitVec.eq_of_getLsbD_eq
  intro k hk
  simp only [encode, tableMask, tableMatch, BitVec.getLsbD_and, BitVec.getLsbD_append]
  interval_cases k <;> simp

theorem seReg (x : Nibble) (y : Nibble) : Statement (.seReg x y) := by
  apply BitVec.eq_of_getLsbD_eq
  intro k hk
  simp only [encode, tableMask, tableMatch, BitVec.getLsbD_and, BitVec.getLsbD_append]
  interval_cases k <;> simp

theorem ldImm (x : Nibble) (kk : Byte) : Statement (.ldImm x kk) := by
  apply BitVec.eq_of_getLsbD_eq
  intro k hk
  simp only [encode, tableMask, tableMatch, BitVec.getLsbD_and, BitVec.getLsbD_append]
  interval_cases k <;> simp

theorem addImm (x : Nibble) (kk : Byte) : Statement (.addImm x kk) := by
  apply BitVec.eq_of_getLsbD_eq
  intro k hk
  simp only [encode, tableMask, tableMatch, BitVec.getLsbD_and, BitVec.getLsbD_append]
  interval_cases k <;> simp

theorem ldReg (x : Nibble) (y : Nibble) : Statement (.ldReg x y) := by
  apply BitVec.eq_of_getLsbD_eq
  intro k hk
  simp only [encode, tableMask, tableMatch, BitVec.getLsbD_and, BitVec.getLsbD_append]
  interval_cases k <;> simp

theorem orReg (x : Nibble) (y : Nibble) : Statement (.orReg x y) := by
  apply BitVec.eq_of_getLsbD_eq
  intro k hk
  simp only [encode, tableMask, tableMatch, BitVec.getLsbD_and, BitVec.getLsbD_append]
  interval_cases k <;> simp

theorem andReg (x : Nibble) (y : Nibble) : Statement (.andReg x y) := by
  apply BitVec.eq_of_getLsbD_eq
  intro k hk
  simp only [encode, tableMask, tableMatch, BitVec.getLsbD_and, BitVec.getLsbD_append]
  interval_cases k <;> simp

theorem xorReg (x : Nibble) (y : Nibble) : Statement (.xorReg x y) := by
  apply BitVec.eq_of_getLsbD_eq
  intro k hk
  simp only [encode, tableMask, tableMatch, BitVec.getLsbD_and, BitVec.getLsbD_append]
  interval_cases k <;> simp

theorem addReg (x : Nibble) (y : Nibble) : Statement (.addReg x y) := by
  apply BitVec.eq_of_getLsbD_eq
  intro k hk
  simp only [encode, tableMask, tableMatch, BitVec.getLsbD_and, BitVec.getLsbD_append]
  interval_cases k <;> simp

theorem sub (x : Nibble) (y : Nibble) : Statement (.sub x y) := by
  apply BitVec.eq_of_getLsbD_eq
  intro k hk
  simp only [encode, tableMask, tableMatch, BitVec.getLsbD_and, BitVec.getLsbD_append]
  interval_cases k <;> simp

theorem shr (x : Nibble) (y : Nibble) : Statement (.shr x y) := by
  apply BitVec.eq_of_getLsbD_eq
  intro k hk
  simp only [encode, tableMask, tableMatch, BitVec.getLsbD_and, BitVec.getLsbD_append]
  interval_cases k <;> simp

theorem subn (x : Nibble) (y : Nibble) : Statement (.subn x y) := by
  apply BitVec.eq_of_getLsbD_eq
  intro k hk
  simp only [encode, tableMask, tableMatch, BitVec.getLsbD_and, BitVec.getLsbD_append]
  interval_cases k <;> simp

theorem shl (x : Nibble) (y : Nibble) : Statement (.shl x y) := by
  apply BitVec.eq_of_getLsbD_eq
  intro k hk
  simp only [encode, tableMask, tableMatch, BitVec.getLsbD_and, BitVec.getLsbD_append]
  interval_cases k <;> simp

theorem sneReg (x : Nibble) (y : Nibble) : Statement (.sneReg x y) := by
  apply BitVec.eq_of_getLsbD_eq
  intro k hk
  simp only [encode, tableMask, tableMatch, BitVec.getLsbD_and, BitVec.getLsbD_append]
  interval_cases k <;> simp

theorem ldI (nnn : Addr) : Statement (.ldI nnn) := by
  apply BitVec.eq_of_getLsbD_eq
  intro k hk
  simp only [encode, tableMask, tableMatch, BitVec.getLsbD_and, BitVec.getLsbD_append]
  interval_cases k <;> simp

theorem jpV0 (nnn : Addr) : Statement (.jpV0 nnn) := by
  apply BitVec.eq_of_getLsbD_eq
  intro k hk
  simp only [encode, tableMask, tableMatch, BitVec.getLsbD_and, BitVec.getLsbD_append]
  interval_cases k <;> simp

theorem rnd (x : Nibble) (kk : Byte) : Statement (.rnd x kk) := by
  apply BitVec.eq_of_getLsbD_eq
  intro k hk
  simp only [encode, tableMask, tableMatch, BitVec.getLsbD_and, BitVec.getLsbD_append]
  interval_cases k <;> simp

theorem drw (x : Nibble) (y : Nibble) (n : Nibble) : Statement (.drw x y n) := by
  apply BitVec.eq_of_getLsbD_eq
  intro k hk
  simp only [encode, tableMask, tableMatch, BitVec.getLsbD_and, BitVec.getLsbD_append]
  interval_cases k <;> simp

theorem skp (x : Nibble) : Statement (.skp x) := by
  apply BitVec.eq_of_getLsbD_eq
  intro k hk
  simp only [encode, tableMask, tableMatch, BitVec.getLsbD_and, BitVec.getLsbD_append]
  interval_cases k <;> simp

theorem sknp (x : Nibble) : Statement (.sknp x) := by
  apply BitVec.eq_of_getLsbD_eq
  intro k hk
  simp only [encode, tableMask, tableMatch, BitVec.getLsbD_and, BitVec.getLsbD_append]
  interval_cases k <;> simp

theorem ldVxDt (x : Nibble) : Statement (.ldVxDt x) := by
  apply BitVec.eq_of_getLsbD_eq
  intro k hk
  simp only [encode, tableMask, tableMatch, BitVec.getLsbD_and, BitVec.getLsbD_append]
  interval_cases k <;> simp

theorem ldVxK (x : Nibble) : Statement (.ldVxK x) := by
  apply BitVec.eq_of_getLsbD_eq
  intro k hk
  simp only [encode, tableMask, tableMatch, BitVec.getLsbD_and, BitVec.getLsbD_append]
  interval_cases k <;> simp

theorem ldDtVx (x : Nibble) : Statement (.ldDtVx x) := by
  apply BitVec.eq_of_getLsbD_eq
  intro k hk
  simp only [encode, tableMask, tableMatch, BitVec.getLsbD_and, BitVec.getLsbD_append]
  interval_cases k <;> simp

theorem ldStVx (x : Nibble) : Statement (.ldStVx x) := by
  apply BitVec.eq_of_getLsbD_eq
  intro k hk
  simp only [encode, tableMask, tableMatch, BitVec.getLsbD_and, BitVec.getLsbD_append]
  interval_cases k <;> simp

theorem addI (x : Nibble) : Statement (.addI x) := by
  apply BitVec.eq_of_getLsbD_eq
  intro k hk
  simp only [encode, tableMask, tableMatch, BitVec.getLsbD_and, BitVec.getLsbD_append]
  interval_cases k <;> simp

theorem ldF (x : Nibble) : Statement (.ldF x) := by
  apply BitVec.eq_of_getLsbD_eq
  intro k hk
  simp only [encode, tableMask, tableMatch, BitVec.getLsbD_and, BitVec.getLsbD_append]
  interval_cases k <;> simp

theorem ldB (x : Nibble) : Statement (.ldB x) := by
  apply BitVec.eq_of_getLsbD_eq
  intro k hk
  simp only [encode, tableMask, tableMatch, BitVec.getLsbD_and, BitVec.getLsbD_append]
  interval_cases k <;> simp

theorem ldMemI (x : Nibble) : Statement (.ldMemI x) := by
  apply BitVec.eq_of_getLsbD_eq
  intro k hk
  simp only [encode, tableMask, tableMatch, BitVec.getLsbD_and, BitVec.getLsbD_append]
  interval_cases k <;> simp

theorem ldRegI (x : Nibble) : Statement (.ldRegI x) := by
  apply BitVec.eq_of_getLsbD_eq
  intro k hk
  simp only [encode, tableMask, tableMatch, BitVec.getLsbD_and, BitVec.getLsbD_append]
  interval_cases k <;> simp

end Sys2Proof.Laws.EncodingMatchesTable
end

