-- ==== Sys2Proof/Tests/Slice0.lean ====
section
/-! SUPPORT. The model's own tests: well-formedness, decoding of words written bit by bit, one-step vectors of
spec/95_test_vectors.md, host operations, and for every obligation with hypotheses a witness that meets them. -/

namespace Sys2Proof.Tests

open Sys2Proof.Machine

/-! ## Well-formedness: the one check refuses the two instructions it is about (R95, R102) -/

theorem test_low_ill_formed : Instr.wellFormed false .low = false := by decide
theorem test_high_ill_formed : Instr.wellFormed false .high = false := by decide
theorem test_low_high_well_formed : Instr.wellFormed true .low = true ∧ Instr.wellFormed true .high = true := by decide
theorem test_others_well_formed : Instr.wellFormed false .cls = true ∧ Instr.wellFormed false (.drw 0xF 0xF 0xF) = true := by
  decide

/-! ## Decoding: the word of every row of the opcode table, from its pattern and the fields
x = A, y = 5, n = C, kk = 93, nnn = 6B1 -/

theorem test_decode_cls : decode true 0b0000000011100000 = .instr .cls := by decide
theorem test_decode_ret : decode true 0b0000000011101110 = .instr .ret := by decide
theorem test_decode_low : decode true 0b0000000011111110 = .instr .low := by decide
theorem test_decode_high : decode true 0b0000000011111111 = .instr .high := by decide
theorem test_decode_jp : decode true 0b0001011010110001 = .instr (.jp 0x6B1) := by decide
theorem test_decode_call : decode true 0b0010011010110001 = .instr (.call 0x6B1) := by decide
theorem test_decode_seImm : decode true 0b0011101010010011 = .instr (.seImm 0xA 0x93) := by decide
theorem test_decode_sneImm : decode true 0b0100101010010011 = .instr (.sneImm 0xA 0x93) := by decide
theorem test_decode_seReg : decode true 0b0101101001010000 = .instr (.seReg 0xA 0x5) := by decide
theorem test_decode_ldImm : decode true 0b0110101010010011 = .instr (.ldImm 0xA 0x93) := by decide
theorem test_decode_addImm : decode true 0b0111101010010011 = .instr (.addImm 0xA 0x93) := by decide
theorem test_decode_ldReg : decode true 0b1000101001010000 = .instr (.ldReg 0xA 0x5) := by decide
theorem test_decode_orReg : decode true 0b1000101001010001 = .instr (.orReg 0xA 0x5) := by decide
theorem test_decode_andReg : decode true 0b1000101001010010 = .instr (.andReg 0xA 0x5) := by decide
theorem test_decode_xorReg : decode true 0b1000101001010011 = .instr (.xorReg 0xA 0x5) := by decide
theorem test_decode_addReg : decode true 0b1000101001010100 = .instr (.addReg 0xA 0x5) := by decide
theorem test_decode_sub : decode true 0b1000101001010101 = .instr (.sub 0xA 0x5) := by decide
theorem test_decode_shr : decode true 0b1000101001010110 = .instr (.shr 0xA 0x5) := by decide
theorem test_decode_subn : decode true 0b1000101001010111 = .instr (.subn 0xA 0x5) := by decide
theorem test_decode_shl : decode true 0b1000101001011110 = .instr (.shl 0xA 0x5) := by decide
theorem test_decode_sneReg : decode true 0b1001101001010000 = .instr (.sneReg 0xA 0x5) := by decide
theorem test_decode_ldI : decode true 0b1010011010110001 = .instr (.ldI 0x6B1) := by decide
theorem test_decode_jpV0 : decode true 0b1011011010110001 = .instr (.jpV0 0x6B1) := by decide
theorem test_decode_rnd : decode true 0b1100101010010011 = .instr (.rnd 0xA 0x93) := by decide
theorem test_decode_drw : decode true 0b1101101001011100 = .instr (.drw 0xA 0x5 0xC) := by decide
theorem test_decode_skp : decode true 0b1110101010011110 = .instr (.skp 0xA) := by decide
theorem test_decode_sknp : decode true 0b1110101010100001 = .instr (.sknp 0xA) := by decide
theorem test_decode_ldVxDt : decode true 0b1111101000000111 = .instr (.ldVxDt 0xA) := by decide
theorem test_decode_ldVxK : decode true 0b1111101000001010 = .instr (.ldVxK 0xA) := by decide
theorem test_decode_ldDtVx : decode true 0b1111101000010101 = .instr (.ldDtVx 0xA) := by decide
theorem test_decode_ldStVx : decode true 0b1111101000011000 = .instr (.ldStVx 0xA) := by decide
theorem test_decode_addI : decode true 0b1111101000011110 = .instr (.addI 0xA) := by decide
theorem test_decode_ldF : decode true 0b1111101000101001 = .instr (.ldF 0xA) := by decide
theorem test_decode_ldB : decode true 0b1111101000110011 = .instr (.ldB 0xA) := by decide
theorem test_decode_ldMemI : decode true 0b1111101001010101 = .instr (.ldMemI 0xA) := by decide
theorem test_decode_ldRegI : decode true 0b1111101001100101 = .instr (.ldRegI 0xA) := by decide

/-- The samples of spec/95_test_vectors.md part 2.8 that are unimplemented. -/
theorem test_decode_unimplemented :
    ([0x0000, 0x0123, 0x00C1, 0x00FB, 0x00E1, 0x00EF, 0x5001, 0x8008, 0x800F, 0xE09F, 0xF000, 0xF001, 0xF030, 0xF075,
      0xF085, 0xFFFF, 0x5121, 0x9121] : List Word).all (fun w => decide (decode true w = .unimplemented w)) = true := by
  decide

theorem test_decode_gate : decode false 0x00FE = .unimplemented 0x00FE ∧ decode false 0x00FF = .unimplemented 0x00FF := by
  decide

theorem test_encode_words :
    encode (.addReg 1 2) = 0x8124 ∧ encode (.shl 0xF 1) = 0x8F1E ∧ encode (.drw 0 1 5) = 0xD015 ∧
    encode (.ldMemI 2) = 0xF255 ∧ encode (.call 0x300) = 0x2300 ∧ encode (.sknp 2) = 0xE2A1 := by decide

theorem test_decode_bytes :
    decodeBytes true [0x12, 0x34, 0x56] = .word (.instr (.jp 0x234)) [0x56] ∧ decodeBytes true [0x12] = .truncated := by
  decide

theorem test_table_word : decodeTableWord 16 0x812E = some (.shl 1 2) ∧ decodeTableWord 16 0x8128 = none := by decide

/-- R105: the inval marker keeps the word, an instruction its syntax. -/
theorem test_disassemble :
    disassemble true 0x5121 = .inval 0x5121 ∧ disassemble true 0xF255 = .text "LD" [.name "[I]", .reg 2] := by decide

/-! ## One step. Each state is the reset state with the changes the vector lists, and the word at 0x0200 -/

/-- The reset state with `v1 = a`, `v2 = b` and `vF = f`. -/
def withRegs (a b f : Byte) : State := ((State.reset.setV 1 a).setV 2 b).setV 0xF f

/-- A state with these quirks. -/
def withQuirks (q : Quirks) (s : State) : State := hostSetQuirks q s

/-- `quirks.shift` alone. -/
def shiftQuirk : Quirks := ⟨false, true, false, false, false, false⟩

/-- `quirks.bin_ops` alone. -/
def binOpsQuirk : Quirks := ⟨true, false, false, false, false, false⟩

/-- One tick of `w` placed at `pc`: its outcome and the state after. -/
def tickOn (w : Word) (s : State) : TickOutcome × State := tick true (s.placeFetchWord w)

/-- The state after one tick of `w` placed at `pc`. -/
def after (w : Word) (s : State) : State := (tickOn w s).2

/-- `v1` and `vF`. -/
def v1F (s : State) : Byte × Byte := (s.getV 1, s.getV 0xF)

/-! ### Arithmetic and logic (parts S1 to S3 and 2.1) -/

theorem test_ld_imm : (after 0x6A5C State.reset).getV 0xA = 0x5C := by decide
theorem test_add_imm_wraps : v1F (after 0x71FF (withRegs 0x02 0 0x09)) = (0x01, 0x09) := by decide
theorem test_add_imm_vf : (after 0x7FFF (withRegs 0 0 0x02)).getV 0xF = 0x01 := by decide
theorem test_ld_reg : v1F (after 0x81F0 (withRegs 0 0 0x42)) = (0x42, 0x42) := by decide
theorem test_or :
    v1F (after 0x8121 (withRegs 0x3C 0x0F 0x55)) = (0x3F, 0x00) ∧
    v1F (after 0x8121 (withQuirks binOpsQuirk (withRegs 0x3C 0x0F 0x55))) = (0x3F, 0x55) := by decide
/-- x = F: 55 OR 0F. -/
theorem test_or_vf_quirk :
    (after 0x8F21 (withQuirks binOpsQuirk (withRegs 0x3C 0x0F 0x55))).getV 0xF = 0x5F := by decide
theorem test_and : v1F (after 0x8122 (withRegs 0x3C 0x0F 0x55)) = (0x0C, 0x00) := by decide
theorem test_and_quirk :
    v1F (after 0x8122 (withQuirks binOpsQuirk (withRegs 0x3C 0x0F 0x55))) = (0x0C, 0x55) := by decide
theorem test_xor : v1F (after 0x8123 (withRegs 0x3C 0x0F 0x55)) = (0x33, 0x00) := by decide
theorem test_xor_quirk :
    v1F (after 0x8123 (withQuirks binOpsQuirk (withRegs 0x3C 0x0F 0x55))) = (0x33, 0x55) := by decide
theorem test_add_carry : v1F (after 0x8124 (withRegs 0xC8 0x64 0)) = (0x2C, 0x01) := by decide
/-- x = F: the sum 03 is overwritten by the flag 0. -/
theorem test_add_vf : (after 0x8F14 (withRegs 0x02 0 0x01)).getV 0xF = 0x00 := by decide
theorem test_sub_borrow : v1F (after 0x8125 (withRegs 0x03 0x05 0)) = (0xFE, 0x00) := by decide
theorem test_sub_equal : v1F (after 0x8125 (withRegs 0x07 0x07 0)) = (0x00, 0x01) := by decide
theorem test_shr_from_vy : v1F (after 0x8126 (withRegs 0x05 0x0C 0)) = (0x06, 0x00) := by decide
theorem test_shr_from_vx :
    v1F (after 0x8126 (withQuirks shiftQuirk (withRegs 0x05 0x0C 0))) = (0x02, 0x01) := by decide
theorem test_subn : v1F (after 0x8127 (withRegs 0x03 0x05 0)) = (0x02, 0x01) := by decide
theorem test_subn_borrow : v1F (after 0x8127 (withRegs 0x05 0x03 0)) = (0xFE, 0x00) := by decide
theorem test_shl_from_vy : v1F (after 0x812E (withRegs 0x81 0x40 0)) = (0x80, 0x00) := by decide
theorem test_shl_from_vx :
    v1F (after 0x812E (withQuirks shiftQuirk (withRegs 0x81 0x40 0))) = (0x02, 0x01) := by decide
/-- Whatever byte is drawn. -/
theorem test_rnd_masks : (after 0xC30F State.reset).getV 3 = Config.rngByte 0 &&& 0x0F := by rfl

/-! ### Control flow (parts S4 to S6 and 2.2) -/

theorem test_se_imm_skips : (after 0x3105 (withRegs 0x05 0 0)).pc = 0x0204 := by decide
theorem test_se_imm_falls_through : (after 0x3105 (withRegs 0x04 0 0)).pc = 0x0202 := by decide
theorem test_sne_imm_falls_through : (after 0x4105 (withRegs 0x05 0 0)).pc = 0x0202 := by decide
theorem test_sne_imm_skips : (after 0x4105 (withRegs 0x04 0 0)).pc = 0x0204 := by decide
theorem test_se_reg_skips : (after 0x5120 (withRegs 0x09 0x09 0)).pc = 0x0204 := by decide
theorem test_sne_reg_skips : (after 0x9120 (withRegs 0x09 0x08 0)).pc = 0x0204 := by decide
theorem test_jp_v0 : (after 0xB300 (State.reset.setV 0 0x05)).pc = 0x0305 := by decide
/-- The sum is not masked (D17). -/
theorem test_jp_v0_quirk :
    (after 0xBFFF (withQuirks ⟨false, false, false, false, true, false⟩ (withRegs 0 0 0xFF))).pc = 0x10FE := by decide
theorem test_jp_odd : (tickOn 0x1201 State.reset).1 = .ran ∧ (after 0x1201 State.reset).pc = 0x0201 := by decide
theorem test_jp_self :
    (tickOn 0x1200 State.reset).1 = .stopped .selfJump 0x0200 ∧ (after 0x1200 State.reset).flags.pause = true := by decide
theorem test_call :
    (after 0x2300 State.reset).pc = 0x0300 ∧ (after 0x2300 State.reset).sp = 0x0EFC ∧
    (after 0x2300 State.reset).readWord 0x0EFE = 0x0202 := by decide
/-- Program P5: the 17th call. -/
theorem test_call_full :
    (tickOn 0x2200 (State.reset.setSp 0x0EDE)).1 = .fault (.stackOverflow 0x2200 0x0200) := by decide
theorem test_ret : (after 0x00EE ((State.reset.writeWord 0x0EFE 0x0202).setSp 0x0EFC)).pc = 0x0202 := by decide
/-- Program P6. -/
theorem test_ret_empty :
    tickOn 0x00EE State.reset =
      (.fault (.stackUnderflow 0x00EE 0x0200), (State.reset.placeFetchWord 0x00EE).setPc 0x0202) := by decide

/-! ### Index, font, BCD and DMA (part 2.3) -/

theorem test_ld_i : (after 0xA2F0 State.reset).I = 0x02F0 := by decide
theorem test_add_i_wraps :
    (after 0xF01E ((State.reset.setI 0xFFFF).setV 0 1)).I = 0 ∧
    (after 0xF01E ((State.reset.setI 0xFFFF).setV 0 1)).getV 0xF = 0 := by decide
theorem test_ld_f : (after 0xF029 (State.reset.setV 0 0x0F)).I = 0x009B := by decide
theorem test_ld_f_low_nibble : (after 0xF029 (State.reset.setV 0 0x1A)).I = 0x0082 := by decide
theorem test_ld_b :
    (after 0xF033 ((State.reset.setI 0x300).setV 0 0xFF)).getSlice ⟨0x300, 0x303⟩ = some [2, 5, 5] := by decide
/-- The writes to 0x1000 and 0x1001 are dropped (R64). -/
theorem test_ld_b_past_end :
    (after 0xF033 ((State.reset.setI 0xFFF).setV 0 0x7B)).getSlice ⟨0xFFF, 0x1000⟩ = some [1] ∧
    (after 0xF033 ((State.reset.setI 0xFFF).setV 0 0x7B)).memlen = 0x1000 := by decide
/-- The reset state with `v0..v2 = 01 02 03` and `I = 0400`. -/
def dmaStart : State := (((State.reset.setV 0 1).setV 1 2).setV 2 3).setI 0x400

theorem test_ld_mem_i :
    (after 0xF255 dmaStart).getSlice ⟨0x400, 0x403⟩ = some [1, 2, 3] ∧ (after 0xF255 dmaStart).I = 0x0403 := by decide
theorem test_ld_mem_i_quirk : (after 0xF255 (withQuirks (preset .schip) dmaStart)).I = 0x0400 := by decide
/-- The font bytes 0 to 15. -/
theorem test_ld_reg_i :
    (after 0xFF65 (State.reset.setI 0x50)).v.toList =
      [0xF0, 0x90, 0x90, 0x90, 0xF0, 0x20, 0x60, 0x20, 0x20, 0x70, 0xF0, 0x10, 0xF0, 0x80, 0xF0, 0xF0] ∧
    (after 0xFF65 (State.reset.setI 0x50)).I = 0x0060 := by decide
theorem test_ld_reg_i_past_end :
    (after 0xF165 (State.reset.setI 0xFFF)).getV 1 = 0 ∧ (after 0xF165 (State.reset.setI 0xFFF)).I = 0x1001 := by decide

/-! ### Display (part 2.4) -/

/-- The reset state with `v0 = a`, `v1 = b` and `I` at glyph 0. -/
def glyph0At (a b : Byte) : State := ((State.reset.setV 0 a).setV 1 b).setI 0x50

/-- The bytes listed in memory from `lo` on. -/
def listedFrom (lo : Nat) (s : State) : List Host.Cell := s.mem.filter (fun c => decide (lo ≤ c.1))

/-- Hi-res with `v0 = 120`, `v1 = 62`, and two sprite rows FF 01 at `I = 0300`. -/
def wideStart : State :=
  (((((State.reset.switchResolution true).setV 0 0x78).setV 1 0x3E).setI 0x300).writeWord 0x300 0xFF01).writeWord 0x302
    0xFF01

/-- Clipped, and wrapped in x, in y and in both. -/
theorem test_drw_edges :
    listedFrom 0xF00 (after 0xD012 (glyph0At 0x3E 0x1F)) = [(0xFFF, 0x03)] ∧
    (after 0xD012 (glyph0At 0x3E 0x1F)).getV 0xF = 0 ∧ (after 0xD012 (glyph0At 0x3E 0x1F)).flags.drawWait = true ∧
    listedFrom 0xF00 (after 0xD012 (withQuirks ⟨false, false, false, false, false, true⟩ (glyph0At 0x3E 0x1F))) =
      [(0xF00, 0x40), (0xF07, 0x02), (0xFF8, 0xC0), (0xFFF, 0x03)] := by decide +kernel
/-- Glyph 0 row 0 (F0) over a lit byte, by hand FF XOR F0; and the 16×16 sprite, rows from 64 on and the column past 127
clipped. -/
theorem test_drw_collides_and_wide :
    (let t := after 0xD011 ((glyph0At 0 0).writeByte 0xF00 0xFF); (t.getV 0xF, t.readByte 0xF00)) =
      ((0x01, 0x0F) : Byte × Byte) ∧
    listedFrom 0xF00 (after 0xD010 wideStart) = [(0x12EF, 0xFF), (0x12FF, 0xFF)] := by decide +kernel
theorem test_cls :
    (after 0x00E0 (State.reset.writeByte 0xF00 0xFF)).readByte 0xF00 = 0 ∧
    (after 0x00E0 (State.reset.writeByte 0xEFF 0xFF)).readByte 0xEFF = 0xFF := by decide +kernel
theorem test_high :
    (after 0x00FF State.reset).flags.drawMode = true ∧ (after 0x00FF State.reset).memlen = 0x1300 ∧
    (after 0x00FF State.reset).regions.screen = some ⟨0xF00, 0x1300⟩ := by decide +kernel
theorem test_low_unimplemented :
    (tick false (State.reset.placeFetchWord 0x00FE)).1 = .fault (.unimplemented 0x00FE 0x0200) := by decide
/-- Storage never shrinks (R61). -/
theorem test_low :
    (after 0x00FE (State.reset.switchResolution true)).regions.screen = some ⟨0xF00, 0x1000⟩ ∧
    (after 0x00FE (State.reset.switchResolution true)).memlen = 0x1300 := by decide +kernel

/-! ### Timers and keys (part 2.5) -/

/-- Key 5 = 15 AND 0F (D13). -/
theorem test_skp : (after 0xE29E ((withRegs 0 0x15 0).setKey 5 true)).pc = 0x0204 := by decide
theorem test_skp_up : (after 0xE29E (withRegs 0 0x05 0)).pc = 0x0202 := by decide
theorem test_sknp : (after 0xE2A1 ((withRegs 0 0x15 0).setKey 5 true)).pc = 0x0202 := by decide
theorem test_sknp_up : (after 0xE2A1 (withRegs 0 0x05 0)).pc = 0x0204 := by decide
theorem test_ld_vx_dt : (after 0xF307 (State.reset.setDelay 0x3C)).getV 3 = 0x3C := by decide
theorem test_ld_dt_vx : (after 0xF115 (withRegs 0x10 0 0)).delay = 0x10 := by decide
theorem test_ld_st_vx :
    (after 0xF118 (withRegs 0x02 0 0)).soundActive = true ∧ (after 0xF118 (withRegs 0x02 0 0)).sound = 0x02 := by decide
/-- A held key does not satisfy the wait (D14). -/
theorem test_ld_vx_k_waits :
    (after 0xF50A (State.reset.setKey 3 true)).flags.keypause = true ∧
    (after 0xF50A (State.reset.setKey 3 true)).pc = 0x0200 ∧ (after 0xF50A (State.reset.setKey 3 true)).cycle = 1 := by decide
theorem test_ld_vx_k_takes :
    (after 0xF50A (State.reset.setLastkey (some 7))).getV 5 = 7 ∧
    (after 0xF50A (State.reset.setLastkey (some 7))).lastkey = none ∧
    (after 0xF50A (State.reset.setLastkey (some 7))).pc = 0x0202 := by decide

/-! ### Engine (part 2.6), memory (part 2.7) -/

/-- With no ROM the word at 0x0200 is 0000. -/
theorem test_reset_step_faults :
    tick true State.reset = (.fault (.unimplemented 0x0000 0x0200), State.reset.setPc 0x0202) := by decide
theorem test_single_step :
    let r := singlestep true ((State.reset.placeFetchWord 0x6105).setPause true)
    r.1 = .ran ∧ r.2.getV 1 = 0x05 ∧ r.2.pc = 0x0202 ∧ r.2.cycle = 1 ∧ r.2.flags.pause = true := by decide
theorem test_multistep_stalled :
    multistep true 5 (State.reset.setDrawWait true) = (.budgetExhausted, State.reset.setDrawWait true) := by decide
/-- The stop carries the decode of the word at `pc`. -/
theorem test_multistep_stops :
    let r := multistep true 9 ((State.reset.placeFetchWord 0x6105).setBreakpoints [0x202])
    r.1 = .stopped .breakpoint 0x202 (.unimplemented 0x0000) ∧ r.2.cycle = 1 := by decide
theorem test_breakpoint :
    (tickOn 0x6105 (State.reset.setBreakpoints [0x202])).1 = .stopped .breakpoint 0x202 := by decide
/-- Both apply, and the cause is the breakpoint (R128). -/
theorem test_breakpoint_over_self_jump :
    (tickOn 0x1200 (State.reset.setBreakpoints [0x200])).1 = .stopped .breakpoint 0x200 := by decide
theorem test_read_straddles : (State.reset.writeByte 0xFFF 0x34).readWord 0xFFF = 0 := by decide
theorem test_read_big_endian :
    ((State.reset.writeByte 0xFFE 0x12).writeByte 0xFFF 0x34).readWord 0xFFE = 0x1234 := by decide
theorem test_write_straddles : State.reset.writeWord 0xFFF 0xABCD = State.reset := by decide
theorem test_read_128 :
    (State.reset.write128 0xFF0 0x000102030405060708090A0B0C0D0E0F).readByte 0xFFE = 0x0E ∧
    (State.reset.write128 0xFF0 0x000102030405060708090A0B0C0D0E0F).read32 0xFF4 = 0x04050607 := by decide
/-- A byte equal to the boot contents (the font, F0 at 0x50) is not listed. -/
theorem test_memory_canonical :
    (State.reset.writeByte 0x50 0xF0).mem = [] ∧ (State.reset.writeByte 0x50 0x00).mem = [(0x50, 0x00)] := by decide

/-! ## Host operations and resets (part 4) -/

theorem test_tick_timer :
    let t := hostTickTimer (((State.reset.setDelay 1).setSound 5).setDrawWait true)
    t.delay = 0 ∧ t.sound = 4 ∧ t.flags.drawWait = false := by decide
theorem test_tick_timer_saturates : hostTickTimer State.reset = State.reset := by decide
theorem test_press_16 : hostPress 16 State.reset = State.reset := by decide
theorem test_release_latches :
    let t := hostRelease 3 (State.reset.setKeypause true)
    t.lastkey = some 3 ∧ t.flags.keypause = false := by decide
theorem test_release_without_wait :
    (hostRelease 3 (State.reset.setKey 3 true)).lastkey = none ∧ hostRelease 3 (State.reset.setKey 3 true) = State.reset := by decide
theorem test_soft_reset :
    let t := softReset ((((State.reset.setPc 0x234).setSp 0xEFC).setKeypause true).setV 0 5)
    t.pc = 0x0200 ∧ t.sp = 0x0EFE ∧ t.flags.keypause = false ∧ t.getV 0 = 5 := by decide
theorem test_hard_reset :
    let t := hardReset [0x12, 0x00] ((((State.reset.setV 0 5).writeByte 0xF00 0xFF).writeByte 0x300 0x77).setPause true)
    t.getV 0 = 0 ∧ t.flags.pause = true ∧ t.readByte 0xF00 = 0 ∧ t.readByte 0x300 = 0 ∧ t.readWord 0x200 = 0x1200 := by decide +kernel
theorem test_set_mode : (hostSetMode .schip State.reset).flags.quirks.stupidJumps = true := by decide
/-- The default flags carry the preset of the default mode (R46). -/
theorem test_default_quirks : Flags.default.quirks = preset .chip8 := by decide
/-- The map of R70. -/
theorem test_default_regions :
    Regions.default =
      ⟨some ⟨0x50, 0xA0⟩, some ⟨0x200, 0xEE0⟩, some ⟨0xF00, 0x1000⟩, some ⟨0xEE0, 0xF00⟩⟩ := by decide
theorem test_boot_test_word :
    (boot [0x12, 0x34] (some 0xABCD) [] Flags.default).getSlice ⟨0x1FE, 0x202⟩ = some [0xAB, 0xCD, 0x12, 0x34] := by decide +kernel
/-- R72. -/
theorem test_dump_geometry :
    (dumpWidth 256, dumpHeight 256) = (64, 32) ∧ (dumpWidth 1024, dumpHeight 1024) = (128, 64) := by decide
/-- A state paused at a self-jump. -/
def atJump : State := (State.reset.placeFetchWord 0x1200).setPause true

/-- R131: a self-jump halts, and a pause of another source waits on the host. -/
theorem test_run_halts :
    ((Run.start (State.reset.placeFetchWord 0x1200)).move true .tick).map runStatus = some .halted ∧
    runStatus ⟨atJump, none, some 0x200⟩ = .halted ∧ runStatus ⟨atJump, none, none⟩ = .waitsOnHost := by decide
/-- Log entry 13: pc moved off, the jump overwritten, KeyWait set by the host, and the unpause. -/
theorem test_run_not_halted :
    runStatus ⟨atJump.setPc 0x202, none, some 0x200⟩ = .waitsOnHost ∧
    runStatus ⟨atJump.writeWord 0x200 0x6105, none, some 0x200⟩ = .waitsOnHost ∧
    runStatus ⟨atJump.setKeypause true, none, some 0x200⟩ = .waitsOnHost ∧
    ((Run.mk atJump none (some 0x200)).move true .togglePause).map (fun r => (r.selfJump, runStatus r)) = some (none, .running) := by decide
theorem test_run_keeps_fault :
    ((Run.start State.reset).move true .tick).map runStatus = some .faulted ∧
    ((Run.mk State.reset (some (.unimplemented 0 0x1FE)) none).move true .softReset).map runStatus = some .faulted := by decide
/-- R295. -/
theorem test_flag_write_ends_no_wait :
    (HostCall.writeFlags Flags.default).allowed (State.reset.setKeypause true) = false ∧
    (HostCall.writeFlags (hostToggleDebug (State.reset.setKeypause true)).flags).allowed (State.reset.setKeypause true) = true := by decide
/-- Ranges that share a byte, that touch, and an empty one (log entry 7). -/
theorem test_overlap :
    ByteRange.overlaps ⟨4, 8⟩ ⟨7, 9⟩ = true ∧ ByteRange.overlaps ⟨4, 8⟩ ⟨8, 9⟩ = false ∧ ByteRange.overlaps ⟨6, 6⟩ ⟨4, 8⟩ = false := by decide

/-! ## Witnesses: for every obligation with hypotheses, a state and operands that meet them -/

/-- A state that is not the reset state: hi-res, one return address on the stack, a key latched, two breakpoints, a byte
stored, and `w` at `pc = 0x0200`. -/
def busy (w : Word) : State :=
  ((((((State.reset.switchResolution true).writeWord 0x0EFE 0x0204).setSp 0x0EFC).setLastkey (some 0xF)).setBreakpoints
    [0x0206, 0x0208]).writeByte 0x0300 0x7B).writeWord 0x0200 w

/-- Storage covers the regions of a state whose four ranges do. -/
theorem regionsCovered_of {s : State} {c p v k : ByteRange} (h : s.regions = ⟨some c, some p, some v, some k⟩)
    (hc : c.stop ≤ s.memlen) (hp : p.stop ≤ s.memlen) (hv : v.stop ≤ s.memlen) (hk : k.stop ≤ s.memlen) :
    RegionsCovered s := by
  intro tag r hr
  rw [h] at hr
  cases tag <;> cases hr <;> assumption

theorem busy_inv : Inv (busy 0x6105) where
  memWf := by decide +kernel
  memWithin := by decide +kernel
  memlenBound := by decide +kernel
  stack := by unfold StackOk; decide +kernel
  screen := by unfold ScreenOk; decide +kernel
  covered := regionsCovered_of (c := ⟨0x50, 0xA0⟩) (p := ⟨0x200, 0xEE0⟩) (v := ⟨0xF00, 0x1300⟩) (k := ⟨0xEE0, 0xF00⟩)
    (by decide +kernel) (by decide +kernel) (by decide +kernel) (by decide +kernel) (by decide +kernel)
  latch := by unfold KeyLatchOk; decide +kernel
  breakpointsSorted := by decide +kernel

/-- Did a meaning answer a next state for which `p` holds? -/
def nextHas (p : State → Bool) (o : Out) : Bool :=
  match o with
  | .next t => p t
  | .fault _ => false
  | .refused _ => false

/-- Did it fault? -/
def faults (o : Out) : Bool :=
  match o with
  | .next _ => false
  | .fault _ => true
  | .refused _ => false

theorem exists_next {p : State → Bool} {o : Out} (h : nextHas p o = true) : ∃ t, o = .next t ∧ p t = true := by
  cases o with
  | next t => exact ⟨t, rfl, h⟩
  | fault f => simp [nextHas] at h
  | refused r => simp [nextHas] at h

theorem exists_fault {o : Out} (h : faults o = true) : ∃ f, o = .fault f := by
  cases o with
  | next t => simp [faults] at h
  | fault f => exact ⟨f, rfl⟩
  | refused r => simp [faults] at h

/-- DecodeInvertsEncode. -/
theorem witness_decode_inverts_encode : Instr.wellFormed true .high = true ∧ Instr.wellFormed false (.drw 0xF 0 0xF) = true := by
  decide

/-- EncodeInvertsDecode. -/
theorem witness_encode_inverts_decode : decode false 0x8AB4 = .instr (.addReg 0xA 0xB) := by decide

/-- FamilyZeroMatchesWholeWord: each clause. -/
theorem witness_family_zero :
    decode false 0x00E0 = .instr .cls ∧ decode false 0x00EE = .instr .ret ∧ decode true 0x00FE = .instr .low ∧
    decode true 0x00FF = .instr .high ∧ decode false 0x00FF = .unimplemented 0x00FF ∧
    decode true 0x00FD = .unimplemented 0x00FD := by decide

/-- UnimplementedSpaceIsExact, DisassemblyMirrorsDecoder, and HiresOpcodesGateTheSwitch: a word beside the two that are
gated. -/
theorem witness_unimplemented : decode true 0x00FD = .unimplemented 0x00FD ∧ (0x00FD : Word) ≠ 0x00FE ∧ (0x00FD : Word) ≠ 0x00FF ∧
    decode true 0x00FE = .instr .low := by
  decide

/-- HiresOpcodesGateTheSwitch: a host call that changes `draw_mode`. -/
theorem witness_set_resolution :
    ScreenOk State.reset ∧ (hostMove false (.setResolution true) State.reset).isSome = true ∧
    (hostCall false (.setResolution true) State.reset).2.flags.drawMode ≠ State.reset.flags.drawMode :=
  ⟨rfl, rfl, by decide +kernel⟩

/-- TickFollowsItsPseudocode: stalled, unimplemented, a fault, and a next state. -/
theorem witness_tick :
    (State.reset.setKeypause true).flags.keypause = true ∧ decode true (State.reset.readWord 0x200) = .unimplemented 0 ∧
    decode true ((State.reset.placeFetchWord 0x00EE).readWord 0x200) = .instr .ret ∧
    faults (exec .ret ((State.reset.placeFetchWord 0x00EE).setPc 0x202)) = true ∧
    decode true ((State.reset.placeFetchWord 0x6105).readWord 0x200) = .instr (.ldImm 1 5) ∧
    nextHas (fun t => decide (t.getV 1 = 5)) (exec (.ldImm 1 5) ((State.reset.placeFetchWord 0x6105).setPc 0x202)) = true := by
  decide

/-- StepRunsTheDecodedInstruction: a next state and a fault. -/
theorem witness_step_runs :
    (∃ t, exec (.ldImm 1 5) ((State.reset.placeFetchWord 0x6105).setPc 0x202) = .next t ∧ decide (t.getV 1 = 5) = true) ∧
    ∃ f, exec .ret ((State.reset.placeFetchWord 0x00EE).setPc 0x202) = .fault f :=
  ⟨exists_next (by decide), exists_fault (by decide)⟩

/-- FetchPastStorageFaults: the last `pc` in storage and the first past it. -/
theorem witness_fetch :
    ((State.reset.setPc 0xFFE).pc.toNat + 2 ≤ State.reset.memlen) ∧ (State.reset.memlen < (State.reset.setPc 0xFFF).pc.toNat + 2) ∧
    (tick true (State.reset.setPc 0xFFF)).1 = .fault (.unimplemented 0 0xFFF) := by decide

/-- FaultsArePrecise: each kind. -/
theorem witness_faults :
    (tick true State.reset).1 = .fault (.unimplemented 0 0x200) ∧
    (tickOn 0x2345 (State.reset.setSp 0x0EDE)).1 = .fault (.stackOverflow 0x2345 0x200) ∧
    (tickOn 0x00EE State.reset).1 = .fault (.stackUnderflow 0x00EE 0x200) := by decide

/-- FaultsAriseExactlyHere: stacks just below and at the limits, which do not and do fault. -/
theorem witness_fault_limits :
    (tickOn 0x2345 (State.reset.setSp 0x0EE0)).1 = .ran ∧ (tickOn 0x00EE (State.reset.setSp 0x0EFC)).1 = .ran := by decide

/-- CycleCountsExecutedInstructions: idle, fault, ran and stopped. -/
theorem witness_cycle :
    (tick true (State.reset.setPause true)).1 = .idle ∧ (tick true State.reset).1 = .fault (.unimplemented 0 0x200) ∧
    (tickOn 0x6105 State.reset).1 = .ran ∧ (tickOn 0x1200 State.reset).1 = .stopped .selfJump 0x200 := by decide

/-- SelfJumpHalts: the three words that come back to their own address. -/
theorem witness_self_jump :
    (State.reset.placeFetchWord 0x1200).readWord 0x200 = 0x1#4 ++ 0x200#12 ∧
    (State.reset.placeFetchWord 0x2200).readWord 0x200 = 0x2#4 ++ 0x200#12 ∧
    (State.reset.placeFetchWord 0xB200).readWord 0x200 = 0xB#4 ++ 0x200#12 ∧ (after 0xB200 State.reset).pc = 0x200 ∧
    State.reset.pc ∉ State.reset.breakpoints ∧
    (State.reset.setBreakpoints [0x200]).pc ∈ (State.reset.setBreakpoints [0x200]).breakpoints := by decide

/-- SteppingOperations: each stall, and a multistep whose budget runs out. -/
theorem witness_stepping :
    (State.reset.setKeypause true).flags.keypause = true ∧ (State.reset.setDrawWait true).flags.drawWait = true ∧
    (State.reset.setPause true).flags.pause = true ∧ (multistep true 1 (State.reset.placeFetchWord 0x6105)).1 = .budgetExhausted := by
  decide

/-- StepKeepsInvariant. -/
theorem witness_step_invariant : ∃ s t : State, Inv s ∧ step s = .next t ∧ decide (t.getV 1 = 5) = true := by
  obtain ⟨t, h, hp⟩ := exists_next (p := fun t => decide (t.getV 1 = 5)) (o := step (busy 0x6105)) (by decide +kernel)
  exact ⟨_, t, busy_inv, h, hp⟩

/-- HostCallsKeepInvariant: a call the contract allows, and one it does not. -/
theorem witness_host_call :
    Inv (busy 0x6105) ∧ (HostCall.setRegion .program ⟨0x200, 0x300⟩).allowed (busy 0x6105) = true ∧
    (HostCall.setRegion .program ⟨0x200, 0x300⟩).forcesKeyWait (busy 0x6105) = false ∧
    (HostCall.setRegion .program ⟨0x200, 0xEE1⟩).allowed (busy 0x6105) = false :=
  ⟨busy_inv, by decide +kernel, rfl, by decide +kernel⟩

/-- ReachableStatesMeetInvariant. -/
theorem witness_reachable : Reachable true (hostPress 3 (boot [0x12, 0x00] none [] Flags.default)) :=
  .call (.press 3) _ _ .done (.boot [0x12, 0x00] none [] Flags.default) rfl rfl

/-- OnlyNamedInstructionsWrite: each clause has an instruction that does write. -/
theorem witness_writers :
    nextHas (fun t => decide (t.sp ≠ State.reset.sp ∧ t.readByte 0xEFE ≠ State.reset.readByte 0xEFE))
      (exec (.call 0x300) State.reset) = true ∧
    nextHas (fun t => decide (t.sp = 0x0EFE)) (exec .ret (State.reset.setSp 0x0EFC)) = true ∧
    nextHas (fun t => decide (t.delay ≠ 0)) (exec (.ldDtVx 1) (withRegs 9 0 0)) = true ∧
    nextHas (fun t => decide (t.sound ≠ 0)) (exec (.ldStVx 1) (withRegs 9 0 0)) = true ∧
    nextHas (fun t => decide (t.lastkey = none)) (exec (.ldVxK 1) (State.reset.setLastkey (some 0))) = true ∧
    nextHas (fun t => decide (t.I ≠ 0)) (exec (.ldRegI 0xF) State.reset) = true ∧
    nextHas (fun t => t.flags.pause) (exec (.jp 0x200) (State.reset.setPc 0x202)) = true ∧
    nextHas (fun t => t.flags.keypause) (exec (.ldVxK 1) State.reset) = true ∧
    nextHas (fun t => t.flags.drawWait) (exec (.drw 0 1 0) State.reset) = true ∧
    nextHas (fun t => t.flags.drawMode) (exec .high State.reset) = true ∧
    nextHas (fun t => decide (t.rngDraws ≠ 0)) (exec (.rnd 0 0) State.reset) = true := by decide +kernel

/-- NoInstructionWritesHostState and BookkeepingIsInvisible: a next state and a fault. -/
theorem witness_exec : (∃ t, exec .cls State.reset = .next t) ∧ ∃ f, exec .ret State.reset = .fault f :=
  ⟨⟨_, rfl⟩, exists_fault (by decide)⟩

/-- FlagRegisterWriters: as a flag, and as the register named. -/
theorem witness_vf :
    nextHas (fun t => decide (t.getV vF ≠ 0)) (exec (.addReg 1 2) (withRegs 0xFF 1 0)) = true ∧
    nextHas (fun t => decide (t.getV vF ≠ 0)) (exec (.ldImm 0xF 1) State.reset) = true := by decide

/-- LogicOperations, AddAndSubtract, Shifts: a destination that is vF and one that is not, under either quirk. -/
theorem witness_destinations :
    (1 : Nibble) ≠ vF ∧ (0xF : Nibble) = vF ∧ State.reset.flags.quirks.binOps = false ∧
    (withQuirks (preset .schip) State.reset).flags.quirks.binOps = true := by decide

/-- RegisterSkips, KeySkips, ResolutionSwitch: a listed instruction of each, with what its list says of it. -/
theorem witness_listed :
    (Instr.seImm 1 5, (0x3105 : Word), true) ∈
      [(Instr.seImm 1 5, 0x3#4 ++ 0x1#4 ++ 0x05#8, decide (((withRegs 5 0 0).getV 1).toNat = 5))] ∧
    (Instr.skp 2, (0x9E : Byte), false) ∈ [(Instr.skp 2, 0x9E, State.reset.getKey 0)] ∧
    (Instr.high, (0x00FF : Word), true, 0x1300) ∈ [(Instr.low, 0x00FE, false, 0x1000), (Instr.high, 0x00FF, true, 0x1300)] := by
  decide

/-- CallPushesReturnAddress: the last depth with room, the full stack, and a stack past the end of storage. -/
theorem witness_call :
    (Config.spBase - (State.reset.setSp 0x0EE0).sp).toNat / 2 = 15 ∧ (Config.spBase - (State.reset.setSp 0x0EDE).sp).toNat / 2 = 16 ∧
    State.reset.sp.toNat + 2 ≤ State.reset.memlen ∧ (State.reset.setMemlen 0).memlen < State.reset.sp.toNat + 2 := by decide

/-- ReturnPopsAddress: an empty stack, and one entry. -/
theorem witness_return : State.reset.sp = Config.spBase ∧ (State.reset.setSp 0x0EFC).sp ≠ Config.spBase := by decide

/-- CallThenReturn: depth 15. -/
theorem witness_call_return :
    StackOk (State.reset.setSp 0x0EE0) ∧ (State.reset.setSp 0x0EE0).depth < 16 ∧ 0x0EE0 + 2 ≤ State.reset.memlen := by
  unfold StackOk
  decide

/-- WaitForKey: the key 15 latched, and none. -/
theorem witness_wait_for_key : (State.reset.setLastkey (some 0xF)).lastkey = some 0xF ∧ State.reset.lastkey = none := by
  decide

/-- KeyWaitRoundTrip, with key 15. -/
theorem witness_key_wait :
    let s := State.reset.placeFetchWord 0xF50A
    s.flags = Flags.default ∧ s.lastkey = none ∧ s.readWord s.pc.toNat = 0xF#4 ++ 0x5#4 ++ 0x0A#8 ∧ s.pc ∉ s.breakpoints ∧
    15 < 16 := by decide

/-- BcdStoresDigits, StoreRegisterRange, DmaRoundTrip: addresses in storage, the first past it, and one that wraps. -/
theorem witness_addresses :
    (0xFFF + 0) % 65536 < State.reset.memlen ∧ ¬ (0xFFF + 1) % 65536 < State.reset.memlen ∧
    (0xFFFF + 1) % 65536 < State.reset.memlen := by decide

/-- DmaRoundTrip: sixteen registers at the top of storage. -/
theorem witness_dma :
    (∃ t, exec (.ldMemI 0xF) (State.reset.setI 0xFF0) = .next t) ∧
    ∀ i, i ≤ 15 → ((State.reset.setI 0xFF0).I.toNat + i) % 65536 < State.reset.memlen :=
  ⟨⟨_, rfl⟩, by decide⟩

/-- ClearScreen and ScreenDumpShowsPixels, lo-res and hi-res. -/
theorem witness_screen :
    ScreenOk State.reset ∧ RegionsCovered State.reset ∧ ScreenOk (busy 0x00E0) ∧ RegionsCovered (busy 0x00E0) := by
  refine ⟨rfl, regionsCovered_of rfl ?_ ?_ ?_ ?_, by unfold ScreenOk; decide +kernel,
    regionsCovered_of (c := ⟨0x50, 0xA0⟩) (p := ⟨0x200, 0xEE0⟩) (v := ⟨0xF00, 0x1300⟩) (k := ⟨0xEE0, 0xF00⟩)
      (by decide +kernel) (by decide +kernel) (by decide +kernel) (by decide +kernel) (by decide +kernel)⟩ <;> decide

/-- DrawXorsSprite: storage holds the screen, a touched lit pixel, and a pixel not touched. -/
theorem witness_draw :
    let s := (glyph0At 0 0).writeByte 0xF00 0xFF
    0xF00 + s.screenW * s.screenH / 8 ≤ s.memlen ∧ (∃ t, exec (.drw 0 1 5) s = .next t) ∧ spriteTouches s 0 1 5 0 0 ∧
    s.screenGet 0 0 = true ∧ ¬ spriteTouches s 0 1 5 63 31 := by
  refine ⟨by decide, ⟨_, rfl⟩, ⟨0, 0, by decide, by decide, by decide +kernel, by decide +kernel⟩, by decide +kernel, ?_⟩
  rintro ⟨r, c, hr, hc, -, h⟩
  have hr : r < 5 := hr
  have hc : c < 8 := hc
  have h : 63 = 0 + c ∧ 31 = 0 + r := h
  omega

/-- DrawTwiceRestoresScreen: glyph 0 (at 0x50, off the screen) drawn twice. -/
theorem witness_draw_twice :
    (∃ t u, exec (.drw 0 1 5) (glyph0At 0 0) = .next t ∧ exec (.drw 0 1 5) t = .next u) ∧ (0 : Nibble) ≠ vF ∧
    (1 : Nibble) ≠ vF ∧ ScreenOk (glyph0At 0 0) ∧ RegionsCovered (glyph0At 0 0) ∧ ∀ k, k < 32 → (glyph0At 0 0).ea k < 0xF00 :=
  ⟨⟨_, _, rfl, rfl⟩, by decide, by decide, rfl, witness_screen.2.1, by decide⟩

/-- AccessesAreBigEndian: the last word in storage and the first past it. -/
theorem witness_accesses : 0xFFE + 2 ≤ State.reset.memlen ∧ ¬ 0xFFF + 2 ≤ State.reset.memlen := by decide

/-- RegionOperations: a declared region within storage, its first and last bytes, and an undeclared one. -/
theorem witness_regions :
    State.reset.regions.get .program = some ⟨0x200, 0xEE0⟩ ∧ 0xEE0 ≤ State.reset.memlen ∧
    (State.reset.loadRegion .program [1, 2]).readWord 0x200 = 0x0102 ∧
    (State.reset.setRegions ⟨none, none, none, none⟩).regions.get .program = none := by decide

/-- KeyEvents: the last key and the first number that is none. -/
theorem witness_keys : (hostPress 15 State.reset).getKey 15 = true ∧ 15 < 16 ∧ 16 ≥ 16 := by decide

/-- BreakpointSet. -/
theorem witness_breakpoints : (State.reset.setBreakpoints [0x202, 0x204]).breakpoints.Pairwise (fun b c => b < c) := by
  decide

/-- HardReset. -/
theorem witness_hard_reset :
    State.reset.regions.program = some ⟨0x200, 0xEE0⟩ ∧ State.reset.regions.screen = some ⟨0xF00, 0x1000⟩ ∧
    RegionsCovered State.reset := ⟨rfl, rfl, witness_screen.2.1⟩

end Sys2Proof.Tests
end

section
/-! SUPPORT. Everything an instruction can do to the state, said once: `Effect` lists the forms a next state can take, each
with what the rules over all instructions need to know of it, and `exec_effect` shows that every next state has one of
them. -/

namespace Sys2Proof.Machine

variable {s t : State} {i : Instr}

/-! ## The forms of a next state -/

/-- May the instruction write `v[r]`, as its destination or as the flag? (spec/10_state.md R21, R22) -/
def MayWriteV (i : Instr) (r : Nibble) : Prop :=
  match i with
  | .ldImm x _ | .addImm x _ | .ldReg x _ | .rnd x _ | .ldVxDt x | .ldVxK x => r = x
  | .orReg x _ | .andReg x _ | .xorReg x _ | .addReg x _ | .sub x _ | .shr x _ | .subn x _ | .shl x _ => r = vF ∨ r = x
  | .drw _ _ _ => r = vF
  | .ldRegI x => r.toNat ≤ x.toNat
  | .cls | .ret | .low | .high | .jp _ | .call _ | .seImm _ _ | .sneImm _ _ | .seReg _ _ | .sneReg _ _ | .ldI _
  | .jpV0 _ | .skp _ | .sknp _ | .ldDtVx _ | .ldStVx _ | .addI _ | .ldF _ | .ldB _ | .ldMemI _ => False

/-- `Effect s i t`: the instruction `i` can lead from `s` to `t`. A constructor gives the fields that change; the values
that no rule over all instructions depends on are left open. `memOk` says that the new memory is canonical and within
storage when the old one is, `named` and `writer` whose form it is, and `legacy` under which quirk the last field changes. -/
inductive Effect (s : State) : Instr → State → Prop where
  | jump (i : Instr) (target : Word) : Effect s i (s.setPc target)
  | selfJump (nnn : Addr) (target : Word) : Effect s (.jp nnn) ((s.setPause true).setPc target)
  | call (nnn : Addr) (m : Memory) (target : Word) (room : s.depth ≠ Config.stackDepth)
      (memOk : s.MemOk → (s.setMem m).MemOk) :
      Effect s (.call nnn) (((s.setMem m).setSp (s.sp - 2)).setPc target)
  | ret (target : Word) (entry : s.sp ≠ Config.spBase) : Effect s .ret ((s.setSp (s.sp + 2)).setPc target)
  | registers (i : Instr) (v : Vector Byte 16)
      (named : ∀ r, State.getV { s with v := v } r ≠ s.getV r → MayWriteV i r) : Effect s i { s with v := v }
  | random (x : Nibble) (kk b : Byte) : Effect s (.rnd x kk) (s.drawTaken.setV x b)
  | index (i : Instr) (w : Word)
      (writer : (∃ nnn, i = .ldI nnn) ∨ (∃ x, i = .addI x) ∨ ∃ x, i = .ldF x) : Effect s i (s.setI w)
  | memory (i : Instr) (m : Memory) (writer : i = .cls ∨ ∃ x, i = .ldB x) (memOk : s.MemOk → (s.setMem m).MemOk) :
      Effect s i (s.setMem m)
  | store (x : Nibble) (m : Memory) (w : Word) (legacy : w ≠ s.I → s.flags.quirks.dmaInc = false)
      (memOk : s.MemOk → (s.setMem m).MemOk) : Effect s (.ldMemI x) ((s.setMem m).setI w)
  | load (x : Nibble) (v : Vector Byte 16) (w : Word) (legacy : w ≠ s.I → s.flags.quirks.dmaInc = false)
      (named : ∀ r, State.getV { s with v := v } r ≠ s.getV r → MayWriteV (.ldRegI x) r) :
      Effect s (.ldRegI x) (State.setI { s with v := v } w)
  | resolution (i : Instr) (hires : Bool) (writer : i = .low ∨ i = .high) : Effect s i (s.switchResolution hires)
  | draw (x y n : Nibble) (m : Memory) (hit : Byte) (wait : Bool)
      (legacy : wait ≠ s.flags.drawWait → s.flags.quirks.drawWait = false) (memOk : s.MemOk → (s.setMem m).MemOk) :
      Effect s (.drw x y n) (((s.setMem m).setV vF hit).setDrawWait wait)
  | delay (x : Nibble) (b : Byte) : Effect s (.ldDtVx x) (s.setDelay b)
  | sound (x : Nibble) (b : Byte) : Effect s (.ldStVx x) (s.setSound b)
  | takeKey (x : Nibble) (b : Byte) : Effect s (.ldVxK x) ((s.setV x b).setLastkey none)
  | waitKey (x : Nibble) (target : Word) (unlatched : s.lastkey = none) :
      Effect s (.ldVxK x) ((s.setPc target).setKeypause true)

/-! ## Every next state has one of them -/

theorem effect_skipIf (i : Instr) (c : Bool) : Effect s i (s.skipIf c) := by
  rw [State.skipIf_eq]
  exact .jump i _

theorem effect_setV (x : Nibble) (b : Byte) (h : MayWriteV i x) : Effect s i (s.setV x b) := by
  refine .registers i _ fun r hr => ?_
  by_cases hx : r = x
  · rwa [hx]
  · exact absurd (State.getV_setV_ne s b hx) hr

theorem effect_writeResultFlag (x : Nibble) (result flag : Byte) (h : ∀ r, r = vF ∨ r = x → MayWriteV i r) :
    Effect s i (s.writeResultFlag x result flag) := by
  rw [State.writeResultFlag_eq]
  refine .registers i _ fun r hr => h r ?_
  by_contra hn
  obtain ⟨hf, hx⟩ := not_or.mp hn
  refine hr ((State.writeResultFlag_getV s x r result flag).trans ?_)
  rw [if_neg hf, if_neg hx]

theorem effect_writeLogic (x : Nibble) (result : Byte) (h : ∀ r, r = vF ∨ r = x → MayWriteV i r) :
    Effect s i (s.writeLogic x result) := by
  unfold State.writeLogic
  split
  · exact effect_setV x result (h x (.inr rfl))
  · exact effect_writeResultFlag x result 0 h

theorem effect_execJp (nnn : Addr) (h : execJp nnn s = .next t) : Effect s (.jp nnn) t := by
  unfold execJp at h
  split at h
  · cases h
    exact .selfJump nnn _
  · cases h
    exact .jump _ _

theorem effect_execCall (nnn : Addr) (h : execCall nnn s = .next t) : Effect s (.call nnn) t := by
  unfold execCall at h
  by_cases hd : s.depth = Config.stackDepth
  · rw [push_full s _ _ _ hd] at h
    cases h
  · rw [push_room s _ _ _ hd, State.writeWord_eq] at h
    cases h
    refine .call nnn _ _ hd fun hm => ?_
    rw [← State.writeWord_eq]
    exact s.writeWord_memOk _ _ hm

theorem effect_execRet (h : execRet s = .next t) : Effect s .ret t := by
  unfold execRet at h
  by_cases hs : s.sp = Config.spBase
  · rw [pop_empty s _ _ hs] at h
    cases h
  · rw [pop_entry s _ _ hs] at h
    cases h
    exact .ret _ hs

theorem effect_execLdVxK (x : Nibble) (h : execLdVxK x s = .next t) : Effect s (.ldVxK x) t := by
  unfold execLdVxK at h
  split at h
  · cases h
    exact .takeKey x _
  · rename_i hk
    cases h
    exact .waitKey x _ hk

theorem effect_execCls (h : execCls s = .next t) : Effect s .cls t := by
  cases h
  rw [State.clearRegion_eq]
  exact .memory .cls _ (.inl rfl) fun hm => s.clearRegion_eq .screen ▸ s.clearRegion_memOk .screen hm

theorem effect_execLdB (x : Nibble) (h : execLdB x s = .next t) : Effect s (.ldB x) t := by
  cases h
  exact .memory (.ldB x) _ (.inr ⟨x, rfl⟩) fun hm =>
    State.writeByte_memOk _ _ _ (State.writeByte_memOk _ _ _ (s.writeByte_memOk _ _ hm))

/-- The value of I after Fx55 and Fx65 differs from the one before only without `dma_inc` (R214, R215). -/
theorem dmaInc_of_index_ne {w : Word} (h : (if s.flags.quirks.dmaInc then s.I else w) ≠ s.I) :
    s.flags.quirks.dmaInc = false := by
  by_contra hq
  rw [Bool.not_eq_false] at hq
  exact h (if_pos hq)

theorem effect_execLdMemI (x : Nibble) (h : execLdMemI x s = .next t) : Effect s (.ldMemI x) t := by
  cases h
  rw [State.dmaAdvance_eq, State.storeRegs_eq]
  exact .store x _ _ dmaInc_of_index_ne fun hm => s.storeRegs_eq _ ▸ s.storeRegs_memOk _ hm

theorem effect_execLdRegI (x : Nibble) (h : execLdRegI x s = .next t) : Effect s (.ldRegI x) t := by
  cases h
  rw [State.dmaAdvance_eq, State.loadRegs_eq]
  refine .load x _ _ dmaInc_of_index_ne fun r hr => ?_
  by_contra hx
  exact hr ((s.loadRegs_getV _ x.isLt r).trans (if_neg fun hl => hx (Nat.le_of_lt_succ hl)))

theorem effect_execDrw (x y n : Nibble) (h : execDrw x y n s = .next t) : Effect s (.drw x y n) t := by
  unfold execDrw at h
  cases hq : s.flags.quirks.drawWait <;> rw [hq] at h <;> cases h
  · exact .draw x y n _ _ true (fun _ => hq) (s.drawSprite_memOk x y n)
  · exact .draw x y n _ _ s.flags.drawWait (absurd rfl) (s.drawSprite_memOk x y n)

/-- Every next state of an instruction has one of the forms of `Effect`. -/
theorem exec_effect (h : exec i s = .next t) : Effect s i t := by
  cases i with
  | cls => exact effect_execCls h
  | ret => exact effect_execRet h
  | jp nnn => exact effect_execJp nnn h
  | call nnn => exact effect_execCall nnn h
  | drw x y n => exact effect_execDrw x y n h
  | ldVxK x => exact effect_execLdVxK x h
  | ldB x => exact effect_execLdB x h
  | ldMemI x => exact effect_execLdMemI x h
  | ldRegI x => exact effect_execLdRegI x h
  | low => cases h; exact .resolution .low false (.inl rfl)
  | high => cases h; exact .resolution .high true (.inr rfl)
  | jpV0 nnn => cases h; exact .jump _ _
  | rnd x kk => cases h; exact .random x kk _
  | ldDtVx x => cases h; exact .delay x _
  | ldStVx x => cases h; exact .sound x _
  | ldI nnn => cases h; exact .index _ _ (.inl ⟨nnn, rfl⟩)
  | addI x => cases h; exact .index _ _ (.inr (.inl ⟨x, rfl⟩))
  | ldF x => cases h; exact .index _ _ (.inr (.inr ⟨x, rfl⟩))
  | seImm | sneImm | seReg | sneReg | skp | sknp => cases h; exact effect_skipIf _ _
  | ldImm | addImm | ldReg | ldVxDt => cases h; exact effect_setV _ _ rfl
  | orReg | andReg | xorReg => cases h; exact effect_writeLogic _ _ fun _ hr => hr
  | addReg | sub | shr | subn | shl => cases h; exact effect_writeResultFlag _ _ _ fun _ hr => hr

end Sys2Proof.Machine
end

section
/-! SUPPORT. The rules over all instructions (spec/10_state.md): who writes which part of the state, and what no instruction
writes. Each is a case analysis over the forms of `Effect`. -/

namespace Sys2Proof.Machine

variable {s t : State} {i : Instr}

/-- The resolution switch changes `draw_mode`, the regions and memory, and storage does not shrink (R236, R237). -/
theorem switchResolution_form (s : State) (hires : Bool) :
    ∃ m n r, s.memlen ≤ n ∧ s.switchResolution hires = (((s.setDrawMode hires).setMem m).setMemlen n).setRegions r :=
  ⟨_, _, _, Nat.le_max_left _ _, s.switchResolution_eq hires⟩

/-- Settles O22: in every form of a next state, the parts that change belong to the form's instructions. -/
theorem onlyNamedInstructionsWrite : Obligations.OnlyNamedInstructionsWrite := by
  intro i s t h
  cases exec_effect h with
  | jump | ret | delay | sound | takeKey | waitKey => simp
  | registers | selfJump | call | random => simp [State.readByte, State.drawTaken]
  | index i w writer => obtain ⟨nnn, rfl⟩ | ⟨x, rfl⟩ | ⟨x, rfl⟩ := writer <;> simp
  | memory i m writer => obtain rfl | ⟨x, rfl⟩ := writer <;> simp
  | store x m w legacy => simpa using legacy
  | load x v w legacy => simpa [State.readByte] using legacy
  | draw x y n m hit wait legacy => simpa using legacy
  | resolution i hires writer =>
    obtain ⟨m, n, r, -, e⟩ := switchResolution_form s hires
    obtain rfl | rfl := writer <;> simp [e]

/-- What only the host or the tick writes is the same in `t` as in `s`, and storage has not shrunk. -/
def KeepsHostState (s t : State) : Prop :=
  t.keys = s.keys ∧ t.cycle = s.cycle ∧ t.breakpoints = s.breakpoints ∧ t.flags.debug = s.flags.debug ∧
  t.flags.mode = s.flags.mode ∧ t.flags.quirks = s.flags.quirks ∧ t.flags.monotonic = s.flags.monotonic ∧
  s.memlen ≤ t.memlen

theorem Effect.keepsHostState (h : Effect s i t) : KeepsHostState s t := by
  unfold KeepsHostState
  cases h with
  | resolution i hires =>
    obtain ⟨m, n, r, grown, e⟩ := switchResolution_form s hires
    simp [e, grown]
  | random => simp [State.drawTaken]
  | _ => simp

/-- Settles O23: no form of a next state changes what belongs to the host or the tick. -/
theorem noInstructionWritesHostState : Obligations.NoInstructionWritesHostState :=
  fun _ _ _ h => (exec_effect h).keepsHostState

/-! ## The V registers -/

/-- An instruction changes no V register but those it may write. -/
theorem Effect.mayWriteV {r : Nibble} (h : Effect s i t) (hr : t.getV r ≠ s.getV r) : MayWriteV i r := by
  have other : ∀ {u : State} {x : Nibble} {b : Byte}, u.getV r = s.getV r → (u.setV x b).getV r ≠ s.getV r → r = x := by
    intro u x b hu hne
    by_contra hx
    exact hne ((u.getV_setV_ne b hx).trans hu)
  cases h with
  | registers i v named => exact named r hr
  | load x v w legacy named => exact named r hr
  | random x kk b => exact other (u := s.drawTaken) rfl hr
  | draw x y n m hit => exact other (u := s.setMem m) rfl hr
  | takeKey x b => exact other (u := s) rfl hr
  | resolution i hires =>
    obtain ⟨m, n, v, -, e⟩ := switchResolution_form s hires
    exact absurd (by rw [e]; rfl) hr
  | _ => exact absurd rfl hr

/-- Settles O24: the instructions that may write vF. -/
theorem flagRegisterWriters : Obligations.FlagRegisterWriters := by
  intro i s t h hr
  have hw := (exec_effect h).mayWriteV hr
  cases i with
  | ldImm x | addImm x | ldReg x | rnd x | ldVxDt x | ldVxK x => cases hw; simp
  | ldRegI x =>
    have hx : x = vF := by
      have h15 : 15 ≤ x.toNat := hw
      exact BitVec.eq_of_toNat_eq (show x.toNat = 15 by omega)
    simp [hx]
  | orReg | andReg | xorReg | addReg | sub | shr | subn | shl | drw => simp
  | _ => exact hw.elim

/-! ## The cycle counter -/

theorem execDecoded_next {d : Decoded} (h : execDecoded d s = .next t) : ∃ i, d = .instr i ∧ exec i s = .next t := by
  cases d with
  | instr i => exact ⟨i, rfl, h⟩
  | unimplemented w => cases h

@[simp] theorem retire_cycle (s : State) : (retire s).2.cycle = s.cycle + 1 := by
  rw [retire_state]
  split <;> rfl

/-- Retiring is no Idle and no fault. -/
theorem retire_ran_or_stopped (s : State) : (retire s).1 = .ran ∨ ∃ c p, (retire s).1 = .stopped c p := by
  rw [retire_outcome]
  split
  · exact .inr ⟨_, _, rfl⟩
  · split
    · exact .inr ⟨_, _, rfl⟩
    · exact .inl rfl

/-- Settles O14, by the ways a tick can end: only a retired instruction counts, and no instruction writes `cycle`. -/
theorem cycleCountsExecutedInstructions : Obligations.CycleCountsExecutedInstructions := by
  intro hires s
  rcases tick_cases s hires with ⟨-, e⟩ | ⟨-, t, h, e⟩ | ⟨-, f, -, e⟩ | ⟨-, r, -, e⟩
  · simp [e]
  · obtain ⟨i, -, hi⟩ := execDecoded_next h
    obtain ⟨-, hc, -⟩ := (exec_effect hi).keepsHostState
    have counted : (tick hires s).2.cycle = s.cycle + 1 := by rw [e, retire_cycle, hc]; rfl
    rcases retire_ran_or_stopped t with ho | ⟨c, p, ho⟩ <;> simp [e, ho, ← counted]
  · simp [e, State.advance]
  · simp [e]

end Sys2Proof.Machine
end

section
/-! SUPPORT. No instruction sees the bookkeeping state (spec/10_state.md R34, R37, R42, R43, spec/60_exceptions.md R312):
every operation that an instruction is built from commutes with a change of it. -/

namespace Sys2Proof.Machine

/-- The state that no instruction reads: the cycle counter, the breakpoints, and the flags `debug`, `mode` and
`monotonic`. -/
structure Bookkeeping where
  cycle : Nat
  breakpoints : List Word
  debug : Bool
  mode : Mode
  monotonic : Option Nat

/-- The state with other bookkeeping. -/
def State.withBookkeeping (s : State) (b : Bookkeeping) : State :=
  { s with
    cycle := b.cycle
    breakpoints := b.breakpoints
    flags := { s.flags with debug := b.debug, mode := b.mode, monotonic := b.monotonic } }

/-- An outcome with its next state changed by `f`. -/
def mapNext (f : State → State) (o : Out) : Out :=
  match o with
  | .next t => .next (f t)
  | .fault r => .fault r
  | .refused r => .refused r

variable (s : State) (b : Bookkeeping)

/-! ## What it leaves -/

@[simp] theorem withBookkeeping_lastkey : (s.withBookkeeping b).lastkey = s.lastkey := rfl
@[simp] theorem withBookkeeping_memlen : (s.withBookkeeping b).memlen = s.memlen := rfl
@[simp] theorem withBookkeeping_regions : (s.withBookkeeping b).regions = s.regions := rfl
@[simp] theorem withBookkeeping_quirks : (s.withBookkeeping b).flags.quirks = s.flags.quirks := rfl
@[simp] theorem withBookkeeping_fetchAddr : (s.withBookkeeping b).fetchAddr = s.fetchAddr := rfl

/-! ## The shared operations -/

theorem withBookkeeping_writeWord (a : Nat) (w : Word) :
    (s.withBookkeeping b).writeWord a w = (s.writeWord a w).withBookkeeping b := by
  rw [State.writeWord_eq, State.writeWord_eq]
  rfl

theorem withBookkeeping_clearRegion (tag : RegionTag) :
    (s.withBookkeeping b).clearRegion tag = (s.clearRegion tag).withBookkeeping b := by
  unfold State.clearRegion
  rw [withBookkeeping_regions]
  cases s.regions.get tag <;> rfl

theorem withBookkeeping_growTo (e : Nat) : (s.withBookkeeping b).growTo e = (s.growTo e).withBookkeeping b := by
  unfold State.growTo
  rw [withBookkeeping_memlen]
  split <;> rfl

theorem withBookkeeping_switchResolution (hires : Bool) :
    (s.withBookkeeping b).switchResolution hires = (s.switchResolution hires).withBookkeeping b := by
  unfold State.switchResolution State.setRegion
  rw [← withBookkeeping_clearRegion]
  have grown := withBookkeeping_growTo (s.setDrawMode hires) b (screenRange hires).stop
  exact congrArg (fun u => (u.setRegions (s.regions.put .screen (screenRange hires))).clearRegion .screen) grown

theorem withBookkeeping_writeLogic (x : Nibble) (result : Byte) :
    (s.withBookkeeping b).writeLogic x result = (s.writeLogic x result).withBookkeeping b := by
  unfold State.writeLogic
  rw [withBookkeeping_quirks]
  split <;> rfl

theorem withBookkeeping_skipIf (c : Bool) : (s.withBookkeeping b).skipIf c = (s.skipIf c).withBookkeeping b := by
  cases c <;> rfl

theorem withBookkeeping_storeRegs (n : Nat) :
    (s.withBookkeeping b).storeRegs n = (s.storeRegs n).withBookkeeping b := by
  induction n with
  | zero => rfl
  | succ n ih =>
    unfold State.storeRegs
    rw [ih]
    rfl

theorem withBookkeeping_loadRegs (n : Nat) :
    (s.withBookkeeping b).loadRegs n = (s.loadRegs n).withBookkeeping b := by
  induction n with
  | zero => rfl
  | succ n ih =>
    unfold State.loadRegs
    rw [ih]
    rfl

theorem withBookkeeping_dmaAdvance (x : Nibble) :
    (s.withBookkeeping b).dmaAdvance x = (s.dmaAdvance x).withBookkeeping b := by
  rw [State.dmaAdvance_eq, State.dmaAdvance_eq]
  rfl

theorem withBookkeeping_drawRow (n : Nibble) (x0 y0 r c : Nat) (acc : Bool × Memory) :
    (s.withBookkeeping b).drawRow n x0 y0 r c acc = s.drawRow n x0 y0 r c acc := by
  induction c with
  | zero => rfl
  | succ c ih =>
    unfold State.drawRow
    rw [ih]
    rfl

theorem withBookkeeping_drawSprite (x y n : Nibble) : (s.withBookkeeping b).drawSprite x y n = s.drawSprite x y n := by
  have rows : ∀ x0 y0 k acc, (s.withBookkeeping b).drawRows n x0 y0 k acc = s.drawRows n x0 y0 k acc := by
    intro x0 y0 k acc
    induction k with
    | zero => rfl
    | succ k ih =>
      unfold State.drawRows
      rw [ih]
      exact withBookkeeping_drawRow s b n x0 y0 k _ _
  exact rows _ _ _ _

theorem withBookkeeping_execJp (nnn : Addr) :
    execJp nnn (s.withBookkeeping b) = mapNext (·.withBookkeeping b) (execJp nnn s) := by
  unfold execJp
  rw [withBookkeeping_fetchAddr]
  split <;> rfl

theorem withBookkeeping_execCall (nnn : Addr) :
    execCall nnn (s.withBookkeeping b) = mapNext (·.withBookkeeping b) (execCall nnn s) := by
  unfold execCall
  by_cases h : s.depth = Config.stackDepth
  · rw [push_full s _ _ _ h, push_full (s.withBookkeeping b) _ _ _ h]
    rfl
  · rw [push_room s _ _ _ h, push_room (s.withBookkeeping b) _ _ _ h, withBookkeeping_writeWord]
    rfl

theorem withBookkeeping_execRet :
    execRet (s.withBookkeeping b) = mapNext (·.withBookkeeping b) (execRet s) := by
  unfold execRet
  by_cases h : s.sp = Config.spBase
  · rw [pop_empty s _ _ h, pop_empty (s.withBookkeeping b) _ _ h]
    rfl
  · rw [pop_entry s _ _ h, pop_entry (s.withBookkeeping b) _ _ h]
    rfl

theorem withBookkeeping_execDrw (x y n : Nibble) :
    execDrw x y n (s.withBookkeeping b) = mapNext (·.withBookkeeping b) (execDrw x y n s) := by
  unfold execDrw
  rw [withBookkeeping_drawSprite, withBookkeeping_quirks]
  cases s.flags.quirks.drawWait <;> rfl

theorem withBookkeeping_execLdVxK (x : Nibble) :
    execLdVxK x (s.withBookkeeping b) = mapNext (·.withBookkeeping b) (execLdVxK x s) := by
  unfold execLdVxK
  rw [withBookkeeping_lastkey]
  cases s.lastkey <;> rfl

/-! ## Every instruction -/

/-- An instruction on a state with other bookkeeping does what it does on the state, and keeps that bookkeeping. -/
theorem exec_withBookkeeping (i : Instr) :
    exec i (s.withBookkeeping b) = mapNext (·.withBookkeeping b) (exec i s) := by
  cases i with
  | jp nnn => exact withBookkeeping_execJp s b nnn
  | call nnn => exact withBookkeeping_execCall s b nnn
  | ret => exact withBookkeeping_execRet s b
  | drw x y n => exact withBookkeeping_execDrw s b x y n
  | ldVxK x => exact withBookkeeping_execLdVxK s b x
  | cls => exact congrArg Host.Outcome.next (withBookkeeping_clearRegion s b _)
  | low | high => exact congrArg Host.Outcome.next (withBookkeeping_switchResolution s b _)
  | seImm | sneImm | seReg | sneReg | skp | sknp => exact congrArg Host.Outcome.next (withBookkeeping_skipIf s b _)
  | orReg | andReg | xorReg => exact congrArg Host.Outcome.next (withBookkeeping_writeLogic s b _ _)
  | ldMemI x =>
    refine congrArg Host.Outcome.next (Eq.trans ?_ (withBookkeeping_dmaAdvance _ b x))
    rw [withBookkeeping_storeRegs]
  | ldRegI x =>
    refine congrArg Host.Outcome.next (Eq.trans ?_ (withBookkeeping_dmaAdvance _ b x))
    rw [withBookkeeping_loadRegs]
  | ldImm | addImm | ldReg | addReg | sub | shr | subn | shl | ldI | jpV0 | rnd | ldVxDt | ldDtVx | ldStVx | addI | ldF
  | ldB => rfl

/-- Settles O25: the outcome of the instruction on the changed state is the changed outcome. -/
theorem bookkeepingIsInvisible : Obligations.BookkeepingIsInvisible := by
  intro i s cycle bps debug mode monotonic hide
  have commutes := exec_withBookkeeping s ⟨cycle, bps, debug, mode, monotonic⟩ i
  constructor
  · intro t h
    exact commutes.trans (by rw [h]; rfl)
  · intro f h
    exact commutes.trans (by rw [h]; rfl)

end Sys2Proof.Machine
end

section
/-! SUPPORT. The invariants of spec/10_state.md R51: one rule per update of the state, then the instructions, the tick and
the step. -/

namespace Sys2Proof.Machine

variable {s t : State} {i : Instr}

/-! ## The bus's share of the invariants -/

/-- What the invariants ask of memory and the regions: canonical memory within storage, storage within the address space
and covering every region (R51.3, R314.4). -/
structure BusOk (s : State) : Prop where
  memOk : s.MemOk
  bound : s.memlen ≤ 0x10000
  covered : RegionsCovered s

/-- An update of memory alone that keeps memory well-formed keeps the bus well-formed. -/
theorem BusOk.of_setMem {m : Memory} (h : BusOk s) (e : t = s.setMem m) (hm : t.MemOk) : BusOk t := by
  subst e
  exact ⟨hm, h.bound, h.covered⟩

theorem BusOk.loadRegion (h : BusOk s) (tag : RegionTag) (data : List Byte) : BusOk (s.loadRegion tag data) :=
  h.of_setMem (s.loadRegion_eq tag data) (s.loadRegion_memOk tag data h.memOk)

theorem BusOk.writeWord (h : BusOk s) (a : Nat) (w : Word) : BusOk (s.writeWord a w) :=
  h.of_setMem (s.writeWord_eq a w) (s.writeWord_memOk a w h.memOk)

theorem BusOk.setRegion (h : BusOk s) (tag : RegionTag) (range : ByteRange) (hstop : range.stop ≤ 0x10000) :
    BusOk (s.setRegion tag range) where
  memOk := s.setRegion_memOk tag range h.memOk
  bound := by
    rw [State.setRegion_eq]
    exact Nat.max_le.mpr ⟨h.bound, hstop⟩
  covered := by
    rw [State.setRegion_eq]
    intro tag' r hr
    change (s.regions.put tag range).get tag' = some r at hr
    change r.stop ≤ max s.memlen range.stop
    rw [Regions.get_put] at hr
    split at hr
    · cases hr
      exact Nat.le_max_right _ _
    · exact (h.covered tag' r hr).trans (Nat.le_max_left _ _)

theorem inv_iff : Inv s ↔
    BusOk s ∧ StackOk s ∧ ScreenOk s ∧ KeyLatchOk s ∧ s.breakpoints.Pairwise (fun a b => a < b) :=
  ⟨fun h => ⟨⟨⟨h.memWf, h.memWithin⟩, h.memlenBound, h.covered⟩, h.stack, h.screen, h.latch, h.breakpointsSorted⟩,
    fun ⟨⟨⟨hw, hi⟩, hb, hc⟩, hs, hv, hk, hp⟩ => ⟨hw, hi, hb, hs, hv, hc, hk, hp⟩⟩

theorem Inv.bus (h : Inv s) : BusOk s := (inv_iff.mp h).1

/-! ## One rule per update -/

/-! Updates of fields that the invariants do not speak of. -/

@[simp] theorem inv_setV (x : Nibble) (b : Byte) : Inv (s.setV x b) ↔ Inv s := ⟨fun h => { h with }, fun h => { h with }⟩
@[simp] theorem inv_setRegs (v : Vector Byte 16) : Inv { s with v := v } ↔ Inv s :=
  ⟨fun h => { h with }, fun h => { h with }⟩
@[simp] theorem inv_setI (w : Word) : Inv (s.setI w) ↔ Inv s := ⟨fun h => { h with }, fun h => { h with }⟩
@[simp] theorem inv_setPc (w : Word) : Inv (s.setPc w) ↔ Inv s := ⟨fun h => { h with }, fun h => { h with }⟩
@[simp] theorem inv_setDelay (b : Byte) : Inv (s.setDelay b) ↔ Inv s := ⟨fun h => { h with }, fun h => { h with }⟩
@[simp] theorem inv_setSound (b : Byte) : Inv (s.setSound b) ↔ Inv s := ⟨fun h => { h with }, fun h => { h with }⟩
@[simp] theorem inv_setKey (k : Nibble) (b : Bool) : Inv (s.setKey k b) ↔ Inv s :=
  ⟨fun h => { h with }, fun h => { h with }⟩
@[simp] theorem inv_setCycle (n : Nat) : Inv (s.setCycle n) ↔ Inv s := ⟨fun h => { h with }, fun h => { h with }⟩
@[simp] theorem inv_drawTaken : Inv s.drawTaken ↔ Inv s := ⟨fun h => { h with }, fun h => { h with }⟩
@[simp] theorem inv_setPause (b : Bool) : Inv (s.setPause b) ↔ Inv s := ⟨fun h => { h with }, fun h => { h with }⟩
@[simp] theorem inv_setDrawWait (b : Bool) : Inv (s.setDrawWait b) ↔ Inv s :=
  ⟨fun h => { h with }, fun h => { h with }⟩

/-! Updates of fields that they do speak of. -/

theorem Inv.of_setMem {m : Memory} (h : Inv s) (e : t = s.setMem m) (hm : t.MemOk) : Inv t := by
  subst e
  exact { h with memWf := hm.1, memWithin := hm.2 }

theorem Inv.setSp {w : Word} (h : Inv s) (hw : StackOk (s.setSp w)) : Inv (s.setSp w) := { h with stack := hw }

theorem Inv.setFlags {f : Flags} (h : Inv s) (mode : f.drawMode = s.flags.drawMode)
    (latch : s.lastkey ≠ none → f.keypause = false) : Inv (s.setFlags f) :=
  { h with screen := h.screen.trans (by rw [State.setFlags_flags, mode]), latch := latch }

theorem Inv.setLastkey_none (h : Inv s) : Inv (s.setLastkey none) := { h with latch := absurd rfl }

theorem Inv.setKeypause_true (h : Inv s) (unlatched : s.lastkey = none) : Inv (s.setKeypause true) :=
  h.setFlags rfl (absurd unlatched)

theorem Inv.setKeypause_false (h : Inv s) : Inv (s.setKeypause false) := h.setFlags rfl fun _ => rfl

theorem Inv.latchKey (h : Inv s) (k : Nibble) : Inv ((s.setLastkey (some k)).setKeypause false) :=
  { h with latch := fun _ => rfl }

theorem Inv.setBreakpoints {bps : List Word} (h : Inv s) (hb : bps.Pairwise (fun a b => a < b)) :
    Inv (s.setBreakpoints bps) := { h with breakpointsSorted := hb }

theorem Inv.clearRegion (h : Inv s) (tag : RegionTag) : Inv (s.clearRegion tag) :=
  h.of_setMem (s.clearRegion_eq tag) (s.clearRegion_memOk tag h.bus.memOk)

/-- Declaring a region, together with a write of `draw_mode`, keeps the invariants when the Screen region then fits the
mode. -/
theorem Inv.setDrawMode_setRegion {mode : Bool} {tag : RegionTag} {range : ByteRange} (h : Inv s)
    (hstop : range.stop ≤ 0x10000) (screen : (s.regions.put tag range).screen = some (screenRange mode)) :
    Inv ((s.setDrawMode mode).setRegion tag range) := by
  have bus : BusOk (s.setDrawMode mode) := ⟨h.bus.memOk, h.bus.bound, h.bus.covered⟩
  refine inv_iff.mpr ⟨bus.setRegion tag range hstop, ?_⟩
  rw [State.setRegion_eq]
  exact ⟨h.stack, screen, h.latch, h.breakpointsSorted⟩

theorem screenRange_stop_le (hires : Bool) : (screenRange hires).stop ≤ 0x10000 := by
  cases hires <;> decide

theorem Inv.switchResolution (h : Inv s) (hires : Bool) : Inv (s.switchResolution hires) :=
  (h.setDrawMode_setRegion (screenRange_stop_le hires) rfl).clearRegion .screen

/-! ## The stack -/

/-- `StackOk` in terms of the distance of `sp` from its base: it is even and at most twice the stack's depth. -/
theorem stackOk_iff : StackOk s ↔ (Config.spBase - s.sp).toNat ≤ 32 ∧ (Config.spBase - s.sp).toNat % 2 = 0 := by
  unfold StackOk State.depth Config.stackDepth
  omega

theorem stackOk_push (h : StackOk s) (room : s.depth ≠ Config.stackDepth) : StackOk (s.setSp (s.sp - 2)) := by
  rw [stackOk_iff] at h ⊢
  unfold State.depth Config.stackDepth at room
  have grown : Config.spBase - (s.sp - 2) = Config.spBase - s.sp + 2 := by
    generalize Config.spBase = b
    bv_omega
  rw [State.setSp_sp, grown]
  generalize Config.spBase - s.sp = d at *
  bv_omega

theorem stackOk_pop (h : StackOk s) (entry : s.sp ≠ Config.spBase) : StackOk (s.setSp (s.sp + 2)) := by
  rw [stackOk_iff] at h ⊢
  have shrunk : Config.spBase - (s.sp + 2) = Config.spBase - s.sp - 2 := by
    generalize Config.spBase = b
    bv_omega
  have used : Config.spBase - s.sp ≠ 0 := by
    generalize Config.spBase = b at *
    bv_omega
  rw [State.setSp_sp, shrunk]
  generalize Config.spBase - s.sp = d at *
  bv_omega

/-! ## Instructions, ticks and steps -/

/-- Every form of a next state keeps the invariants. -/
theorem Effect.inv (e : Effect s i t) (h : Inv s) : Inv t := by
  cases e with
  | jump | selfJump | registers | random | index | delay | sound => simpa using h
  | load => simpa using h
  | call nnn m target room memOk =>
    have stored : Inv (s.setMem m) := h.of_setMem rfl (memOk h.bus.memOk)
    simpa using stored.setSp (w := s.sp - 2) (stackOk_push (s := s) h.stack room)
  | ret target entry => simpa using h.setSp (stackOk_pop h.stack entry)
  | memory i m writer memOk => exact h.of_setMem rfl (memOk h.bus.memOk)
  | store x m w legacy memOk => simpa using h.of_setMem rfl (memOk h.bus.memOk)
  | draw x y n m hit wait legacy memOk => simpa using h.of_setMem rfl (memOk h.bus.memOk)
  | resolution i hires => exact h.switchResolution hires
  | takeKey x b => exact ((inv_setV x b).mpr h).setLastkey_none
  | waitKey x target unlatched => exact ((inv_setPc target).mpr h).setKeypause_true unlatched

theorem Inv.retire (h : Inv s) : Inv (retire s).2 := by
  rw [retire_state]
  split <;> simpa using h

/-- A tick keeps the invariants, also when it ends in a fault (R286). -/
theorem Inv.tick (h : Inv s) (hires : Bool) : Inv (tick hires s).2 := by
  have advanced : Inv s.advance := (inv_setPc _).mpr h
  rcases tick_cases s hires with ⟨-, e⟩ | ⟨-, t, hx, e⟩ | ⟨-, f, -, e⟩ | ⟨-, r, -, e⟩ <;> rw [e]
  · exact h
  · obtain ⟨i, -, hi⟩ := execDecoded_next hx
    exact ((exec_effect hi).inv advanced).retire
  · exact advanced
  · exact advanced

theorem tickOut_next {r : TickOutcome × State} (h : tickOut r = .next t) : t = r.2 := by
  unfold tickOut at h
  split at h <;> cases h <;> rfl

/-- Settles O18: a step's next state is the state its tick leaves. -/
theorem stepKeepsInvariant : Obligations.StepKeepsInvariant := by
  intro s t h hs
  rw [tickOut_next hs]
  exact h.tick _

end Sys2Proof.Machine
end

section
/-! SUPPORT. Host calls, boots and resets keep the invariants (spec/60_exceptions.md R290, R314,
spec/70_reset_and_hazards.md R320-R323), so every reachable state has them. -/

namespace Sys2Proof.Machine

variable {s t : State}

/-! ## Stepping operations -/

theorem Inv.singlestep (h : Inv s) (hires : Bool) : Inv (singlestep hires s).2 :=
  (inv_setPause true).mpr (Inv.tick ((inv_setPause false).mpr h) hires)

theorem Inv.multistep (h : Inv s) (hires : Bool) (n : Nat) : Inv (multistep hires n s).2 := by
  induction n generalizing s with
  | zero => exact h
  | succ n ih =>
    have ticked : ∀ {o u}, Machine.tick hires s = (o, u) → Inv u := by
      intro o u e
      simpa [e] using h.tick hires
    unfold Machine.multistep
    split
    · exact ih (ticked ‹_›)
    · exact ih (ticked ‹_›)
    · exact ticked ‹_›
    · exact ticked ‹_›
    · exact ticked ‹_›

/-! ## Timers, keypad and breakpoints -/

theorem Inv.tickTimer (h : Inv s) : Inv (hostTickTimer s) := by simpa [hostTickTimer] using h

theorem Inv.press (h : Inv s) (k : Nat) : Inv (hostPress k s) := by
  unfold hostPress
  split
  · simpa using h
  · exact h

theorem Inv.release (h : Inv s) (k : Nat) : Inv (hostRelease k s) := by
  have up : ∀ k : Nibble, Inv (s.setKey k false) := fun k => (inv_setKey k false).mpr h
  unfold hostRelease
  split
  · simp only
    split
    · exact (up _).latchKey _
    · exact up _
  · exact h

theorem Inv.setBreak (h : Inv s) (a : Word) : Inv (hostSetBreak a s) :=
  h.setBreakpoints (sorted_insertAddr h.breakpointsSorted)

theorem Inv.unsetBreak (h : Inv s) (a : Word) : Inv (hostUnsetBreak a s) :=
  h.setBreakpoints (h.breakpointsSorted.filter _)

/-! ## Flags and regions -/

/-- A flag write under the contract leaves `draw_mode`, and when it does not force KeyWait over a latched key it keeps the
invariants (log entry 12). -/
theorem Inv.writeFlags {f : Flags} (h : Inv s) (allowed : (HostCall.writeFlags f).allowed s = true)
    (latch : (HostCall.writeFlags f).forcesKeyWait s = false) : Inv (s.setFlags f) := by
  obtain ⟨mode, -⟩ : f.drawMode = s.flags.drawMode ∧ endsWait f s = false := by simpa [HostCall.allowed] using allowed
  refine h.setFlags mode fun latched => ?_
  obtain ⟨k, hk⟩ := Option.ne_none_iff_exists'.mp latched
  simpa [HostCall.forcesKeyWait, hk] using latch

theorem regionAllowed_iff {tag : RegionTag} {range : ByteRange} : regionAllowed tag range s = true ↔
    range.start ≤ range.stop ∧ range.stop ≤ 0x10000 ∧ overlapsOther s.regions tag range = false ∧
      (tag = .screen → range = screenRange s.flags.drawMode) := by
  simp [regionAllowed, and_assoc, imp_iff_not_or]

theorem Inv.setRegion {tag : RegionTag} {range : ByteRange} (h : Inv s) (allowed : regionAllowed tag range s = true) :
    Inv (s.setRegion tag range) := by
  obtain ⟨-, hstop, -, fits⟩ := regionAllowed_iff.mp allowed
  refine h.setDrawMode_setRegion (mode := s.flags.drawMode) hstop ?_
  cases tag with
  | screen => exact congrArg some (fits rfl)
  | charset | program | stack => exact h.screen

/-! ## Memory accesses -/

theorem Inv.loadRegion (h : Inv s) (tag : RegionTag) (data : List Byte) : Inv (s.loadRegion tag data) :=
  h.of_setMem (s.loadRegion_eq tag data) (s.loadRegion_memOk tag data h.bus.memOk)

theorem Inv.putSlice (h : Inv s) (range : ByteRange) (data : List Byte) : Inv (s.putSlice range data) := by
  unfold State.putSlice
  split
  · rename_i present
    obtain ⟨hstart, hstop⟩ : range.start ≤ range.stop ∧ range.stop ≤ s.memlen := by
      simpa [State.present] using present
    refine h.of_setMem rfl ⟨Memory.wf_copyIn _ _ h.memWf, Memory.within_copyIn _ h.memWithin (.inr ?_)⟩
    rw [State.setMem_memlen, List.length_take]
    omega
  · exact h

theorem Inv.putRegion (h : Inv s) (tag : RegionTag) (data : List Byte) : Inv (s.putRegion tag data) := by
  unfold State.putRegion
  split
  · exact h
  · exact h.putSlice _ data

theorem Inv.writeByte (h : Inv s) (a : Nat) (b : Byte) : Inv (s.writeByte a b) :=
  h.of_setMem (s.writeByte_eq a b) (s.writeByte_memOk a b h.bus.memOk)

theorem Inv.writeWord (h : Inv s) (a : Nat) (w : Word) : Inv (s.writeWord a w) :=
  h.of_setMem (s.writeWord_eq a w) (s.writeWord_memOk a w h.bus.memOk)

theorem Inv.write32 (h : Inv s) (a : Nat) (w : BitVec 32) : Inv (s.write32 a w) := by
  unfold State.write32
  split
  · exact h.of_setMem rfl ⟨Memory.wf_put32 a w h.memWf, Memory.within_put32 w h.memWithin ‹_›⟩
  · exact h

theorem Inv.write128 (h : Inv s) (a : Nat) (w : BitVec 128) : Inv (s.write128 a w) := by
  unfold State.write128
  split
  · exact h.of_setMem rfl ⟨Memory.wf_put128 a w h.memWf, Memory.within_put128 w h.memWithin ‹_›⟩
  · exact h

/-! ## Construction and resets -/

theorem stackOk_of_empty (h : s.sp = Config.spBase) : StackOk s := by
  rw [stackOk_iff, h, BitVec.sub_self]
  decide

/-- A new CPU has the invariants on a bus that has its share of them and whose Screen fits the flags (R50). -/
theorem inv_construct {flags : Flags} (breakpoints : List Word) (h : BusOk s)
    (screen : s.regions.screen = some (screenRange flags.drawMode)) : Inv (construct breakpoints flags s) :=
  inv_iff.mpr ⟨⟨h.memOk, h.bound, h.covered⟩, stackOk_of_empty rfl, screen, absurd rfl, sorted_sortAddrs _⟩

theorem Inv.softReset (h : Inv s) : Inv (softReset s) := by
  have emptied : Inv ((s.setPc Config.pcBase).setSp Config.spBase) :=
    ((inv_setPc _).mpr h).setSp (stackOk_of_empty rfl)
  exact ((inv_setDrawWait false).mpr emptied.setKeypause_false).setLastkey_none

theorem Inv.hardReset (h : Inv s) (rom : List Byte) : Inv (hardReset rom s) :=
  (((inv_construct s.breakpoints h.bus h.screen).clearRegion .program).loadRegion .program rom).clearRegion .screen

/-! ## Every host call -/

/-- Settles O20, by the rule of the operation that the call names. -/
theorem hostCallsKeepInvariant : Obligations.HostCallsKeepInvariant := by
  intro hires c s t reply h latch moved
  obtain ⟨allowed, e⟩ := hostMove_eq moved
  obtain rfl : (hostCall hires c s).2 = t := by rw [e]
  cases c with
  | new bps f => exact inv_construct bps h.bus (of_decide_eq_true allowed)
  | tick => exact h.tick hires
  | singlestep => exact h.singlestep hires
  | multistep n => exact h.multistep hires n
  | tickTimer => exact h.tickTimer
  | press k => exact h.press k
  | release k => exact h.release k
  | setBreak a => exact h.setBreak a
  | unsetBreak a => exact h.unsetBreak a
  | togglePause => exact (inv_setPause _).mpr h
  | toggleDebug | writeQuirks | toggleQuirks | setMode => exact h.setFlags rfl h.latch
  | writeFlags f => exact h.writeFlags allowed latch
  | setResolution hires => exact h.switchResolution hires
  | addRegion tag range | setRegion tag range => exact h.setRegion allowed
  | loadRegion tag data => exact h.loadRegion tag data
  | clearRegion tag => exact h.clearRegion tag
  | getMut range data => exact h.putSlice range data
  | getRegionMut tag data => exact h.putRegion tag data
  | write8 a w => exact h.writeByte a w
  | write16 a w => exact h.writeWord a w
  | write32 a w => exact h.write32 a w
  | write128 a w => exact h.write128 a w
  | softReset => exact h.softReset
  | hardReset rom => exact h.hardReset rom
  | readPc | dump | readFlags | get | getRegion | read8 | read16 | read32 | read128 | printScreen => exact h

/-! ## Boots and reachable states -/

theorem busOk_unbuilt : BusOk unbuilt where
  memOk := ⟨⟨.nil, nofun⟩, nofun⟩
  bound := by decide
  covered := by rintro (_ | _ | _ | _) r ⟨⟩

/-- The first step of the boot declares each region within the address space. -/
theorem busOk_declareRegions (drawMode : Bool) (h : BusOk s) : BusOk (declareRegions drawMode s) :=
  (((h.setRegion _ _ (by decide)).setRegion _ _ (by decide)).setRegion _ _ (by decide)).setRegion _ _
    (screenRange_stop_le drawMode)

theorem pokeTestWord_eq (testWord : Option Word) (s : State) :
    pokeTestWord testWord s = s.setMem (pokeTestWord testWord s).mem := by
  cases testWord with
  | none => rfl
  | some w =>
    change s.writeWord _ w = s.setMem (s.writeWord _ w).mem
    rw [State.writeWord_eq]
    rfl

theorem busOk_pokeTestWord (testWord : Option Word) (h : BusOk s) : BusOk (pokeTestWord testWord s) := by
  cases testWord with
  | none => exact h
  | some w => exact h.writeWord _ w

/-- Every boot has the invariants (R323). -/
theorem inv_boot (rom : List Byte) (testWord : Option Word) (breakpoints : List Word) (flags : Flags) :
    Inv (boot rom testWord breakpoints flags) := by
  refine inv_construct breakpoints
    (busOk_pokeTestWord testWord (((busOk_declareRegions _ busOk_unbuilt).loadRegion _ _).loadRegion _ _)) ?_
  rw [pokeTestWord_eq, State.loadRegion_eq, State.loadRegion_eq (declareRegions _ _)]
  rfl

/-- Settles O21, by induction on the host's calls. -/
theorem reachableStatesMeetInvariant : Obligations.ReachableStatesMeetInvariant := by
  intro hires s h
  induction h with
  | boot rom testWord breakpoints flags => exact inv_boot rom testWord breakpoints flags
  | call c s t reply _ latch moved ih => exact hostCallsKeepInvariant hires c s t reply ih latch moved

/-! ## The reset state -/

/-- The model's reset state is the boot with nothing loaded and default flags (log entry 4). -/
theorem boot_default_eq_reset : boot [] none [] Flags.default = State.reset := by decide +kernel

/-- Settles O19: the reset state is a boot. -/
theorem resetMeetsInvariant : Obligations.ResetMeetsInvariant := by
  unfold Obligations.ResetMeetsInvariant
  rw [← boot_default_eq_reset]
  exact inv_boot [] none [] Flags.default

theorem bootByte_eq (a : Nat) : bootByte a = if 0x50 ≤ a ∧ a < 0xA0 then font.getD (a - 0x50) 0 else 0 := by
  split
  · rename_i h
    exact if_pos h.1
  · exact bootByte_eq_zero_of_outside_font ‹_›

/-- After reset every byte reads as the boot contents. -/
theorem reset_readByte (a : Nat) : State.reset.readByte a = bootByte a := by
  by_cases ha : a < State.reset.memlen
  · exact State.readByte_in_storage _ ha
  · rw [State.readByte_past_end _ (Nat.le_of_not_lt ha), bootByte_eq_zero_of_outside_font]
    change ¬ a < 0x1000 at ha
    omega

/-- Settles O60: the registers and keys by their numbers, memory by its boot contents, and the boot. -/
theorem resetState : Obligations.ResetState := by
  refine ⟨?_, rfl, rfl, rfl, rfl, rfl, ?_, rfl, rfl, rfl, ?_, boot_default_eq_reset⟩
  · intro r
    simp [State.getV, State.reset]
  · intro k
    simp [State.getKey, State.reset]
  · exact fun a => (reset_readByte a).trans (bootByte_eq a)

/-! ## Modes and quirks -/

theorem toggleQuirks_comm (q a b : Quirks) : toggleQuirks (toggleQuirks q a) b = toggleQuirks (toggleQuirks q b) a := by
  simp only [toggleQuirks, Bool.xor_right_comm]

theorem toggleQuirks_self (q a : Quirks) : toggleQuirks (toggleQuirks q a) a = q := by
  simp [toggleQuirks]

/-- Two toggles are one write of the quirks toggled twice. -/
theorem hostToggleQuirks_twice (p q : Quirks) (s : State) :
    hostToggleQuirks p (hostToggleQuirks q s) = hostSetQuirks (toggleQuirks (toggleQuirks s.flags.quirks q) p) s := rfl

/-- Settles O56: the table mode by mode, and the laws of exclusive or for the toggles. -/
theorem modesAndQuirks : Obligations.ModesAndQuirks := by
  constructor
  · intro m s
    refine ⟨rfl, ?_⟩
    cases m <;> rfl
  · intro p q s
    refine ⟨rfl, ?_, ?_⟩
    · rw [hostToggleQuirks_twice, hostToggleQuirks_twice, toggleQuirks_comm]
    · rw [hostToggleQuirks_twice, toggleQuirks_self]
      rfl

end Sys2Proof.Machine
end

section
/-! SUPPORT. Memory and regions (spec/20_memory.md): the accesses of R63 to R65 by one argument for every width, each width
the double of the one below it; then the region operations of R61, R68, R69 and the screen dump of R72. -/

namespace Sys2Proof.Machine

variable (s : State)

/-! ## What an update of memory leaves -/

theorem keepsAllBut_setMem (m : Memory) : KeepsAllBut [] [.memory] s (s.setMem m) := by
  refine ⟨fun _ _ => rfl, fun p other => ?_⟩
  cases p with
  | memory => exact absurd (by simp) other
  | _ => rfl

theorem keepsAllBut_setRegion (tag : RegionTag) (range : ByteRange) :
    KeepsAllBut [] [.memory, .regions] s (s.setRegion tag range) := by
  rw [State.setRegion_eq]
  refine ⟨fun _ _ => rfl, fun p other => ?_⟩
  cases p with
  | memory | regions => exact absurd (by simp) other
  | _ => rfl

/-! ## Big-endian values (R65) -/

/-- The `n` bytes that `f` gives from address `a` on as a number, the lower address more significant. -/
def bigEndian (f : Nat → Byte) (a n : Nat) : Nat :=
  (List.range n).foldl (fun acc j => acc * 256 + (f (a + j)).toNat) 0

theorem bigEndian_succ (f : Nat → Byte) (a n : Nat) :
    bigEndian f a (n + 1) = bigEndian f a n * 256 + (f (a + n)).toNat := by
  simp [bigEndian, List.range_succ]

theorem bigEndian_add (f : Nat → Byte) (a n k : Nat) :
    bigEndian f a (n + k) = bigEndian f a n * 256 ^ k + bigEndian f (a + n) k := by
  induction k with
  | zero => simp [bigEndian]
  | succ k ih =>
    rw [← Nat.add_assoc, bigEndian_succ, bigEndian_succ, ih, Nat.add_assoc a n k]
    ring

theorem bigEndian_congr {f g : Nat → Byte} {a n : Nat} (h : ∀ x, a ≤ x → x < a + n → f x = g x) :
    bigEndian f a n = bigEndian g a n := by
  induction n with
  | zero => rfl
  | succ n ih =>
    rw [bigEndian_succ, bigEndian_succ, ih fun x hl hr => h x hl (by omega), h (a + n) (by omega) (by omega)]

/-- The number of a concatenation, its first part more significant. -/
theorem toNat_append_eq_add {v w : Nat} (x : BitVec v) (y : BitVec w) :
    (x ++ y).toNat = x.toNat * 2 ^ w + y.toNat := by
  rw [BitVec.toNat_append, ← Nat.shiftLeft_add_eq_or_of_lt y.isLt, Nat.shiftLeft_eq]

/-! ## Accesses with no bounds check, of every width -/

/-- A read and a write of `n` bytes that agree: the read is the big-endian value of the bytes, a value written reads back,
and no byte outside the `n` changes. -/
structure IsAccess (n : Nat) {w : Nat} (get : Memory → Nat → BitVec w) (put : Memory → Nat → BitVec w → Memory) : Prop where
  width : w = 8 * n
  toNat_get : ∀ m a, (get m a).toNat = bigEndian (Memory.byteAt m) a n
  get_put : ∀ m a v, get (put m a v) a = v
  byteAt_put : ∀ m a v x, ¬ (a ≤ x ∧ x < a + n) → Memory.byteAt (put m a v) x = Memory.byteAt m x

section
variable {n w : Nat} {get : Memory → Nat → BitVec w} {put : Memory → Nat → BitVec w → Memory}

/-- A read depends on its own bytes only. -/
theorem IsAccess.get_congr (h : IsAccess n get put) {m m' : Memory} {a : Nat}
    (same : ∀ x, a ≤ x → x < a + n → Memory.byteAt m x = Memory.byteAt m' x) : get m a = get m' a := by
  apply BitVec.eq_of_toNat_eq
  rw [h.toNat_get, h.toNat_get, bigEndian_congr same]

/-- Two accesses side by side, the more significant half at the lower address, are one access of twice the width. -/
theorem IsAccess.double (h : IsAccess n get put) :
    IsAccess (n + n) (fun m a => get m a ++ get m (a + n))
      (fun m a (v : BitVec (w + w)) => put (put m a (v.extractLsb' w w)) (a + n) (v.extractLsb' 0 w)) where
  width := by
    have := h.width
    omega
  toNat_get m a := by
    have radix : 2 ^ w = 256 ^ n := by rw [h.width, Nat.pow_mul]
    rw [toNat_append_eq_add, h.toNat_get, h.toNat_get, bigEndian_add, radix]
  get_put m a v := by
    have upper : get (put (put m a (v.extractLsb' w w)) (a + n) (v.extractLsb' 0 w)) a = v.extractLsb' w w :=
      (h.get_congr fun x _ _ => h.byteAt_put _ _ _ x (by omega)).trans (h.get_put _ _ _)
    rw [upper, h.get_put]
    exact BitVec.extractLsb'_append_extractLsb'
  byteAt_put m a v x outside := by
    rw [h.byteAt_put _ _ _ x (by omega), h.byteAt_put _ _ _ x (by omega)]
end

theorem byteAccess : IsAccess 1 Memory.byteAt Memory.putByte where
  width := rfl
  toNat_get m a := by simp [bigEndian]
  get_put m a v := by rw [Memory.byteAt_putByte, if_pos rfl]
  byteAt_put m a v x outside := by rw [Memory.byteAt_putByte, if_neg (by omega)]

theorem access16 : IsAccess 2 Memory.get16 Memory.put16 := byteAccess.double
theorem access32 : IsAccess 4 Memory.get32 Memory.put32 := access16.double
theorem access64 : IsAccess 8 Memory.get64 Memory.put64 := access32.double
theorem access128 : IsAccess 16 Memory.get128 Memory.put128 := access64.double

/-! ## Accesses under the bounds check (R63, R64)

The model's word, 32-bit and 128-bit accesses are these by definition; the byte write is one by a lemma. -/

/-- `MemRead(a, n)`: 0 as a whole when any byte is past the end (R63). -/
def State.checkedRead (n : Nat) {w : Nat} (get : Memory → Nat → BitVec w) (a : Nat) : BitVec w :=
  if a + n ≤ s.memlen then get s.mem a else 0

/-- `MemWrite(a, n, v)`: dropped as a whole when any byte is past the end (R64). -/
def State.checkedWrite (n : Nat) {w : Nat} (put : Memory → Nat → BitVec w → Memory) (a : Nat) (v : BitVec w) : State :=
  if a + n ≤ s.memlen then s.setMem (put s.mem a v) else s

theorem State.writeByte_eq_checkedWrite (a : Nat) (b : Byte) : s.writeByte a b = s.checkedWrite 1 Memory.putByte a b := by
  unfold State.writeByte Memory.write1 State.checkedWrite
  split <;> rfl

section
variable {n w : Nat} {get : Memory → Nat → BitVec w} {put : Memory → Nat → BitVec w → Memory}

theorem IsAccess.toNat_checkedRead (h : IsAccess n get put) (a : Nat) :
    (s.checkedRead n get a).toNat = if a + n ≤ s.memlen then bigEndian s.readByte a n else 0 := by
  unfold State.checkedRead
  split
  · rw [h.toNat_get]
    exact bigEndian_congr fun x _ _ => (s.readByte_in_storage (by omega)).symm
  · exact BitVec.toNat_zero

/-- A checked write changes at most the bytes it names, and nothing else of the state. -/
theorem IsAccess.checkedWrite_frame (h : IsAccess n get put) (a : Nat) (v : BitVec w) :
    KeepsMemoryBut (fun b => a ≤ b ∧ b < a + n) s (s.checkedWrite n put a v) ∧
      KeepsAllBut [] [.memory] s (s.checkedWrite n put a v) := by
  unfold State.checkedWrite
  split
  · refine ⟨⟨rfl, fun x outside => ?_⟩, keepsAllBut_setMem s _⟩
    simp only [State.readByte, Memory.read1, State.setMem_memlen, State.setMem_mem, h.byteAt_put _ _ _ x outside]
  · exact ⟨⟨rfl, fun _ _ => rfl⟩, keepsAllBut_setMem s s.mem⟩

/-- A value written in storage reads back, and a write past the end is dropped. -/
theorem IsAccess.checkedWrite_effect (h : IsAccess n get put) (a : Nat) (v : BitVec w) :
    if a + n ≤ s.memlen then (s.checkedWrite n put a v).checkedRead n get a = v else s.checkedWrite n put a v = s := by
  unfold State.checkedWrite
  split
  · rename_i inStorage
    unfold State.checkedRead
    rw [State.setMem_memlen, if_pos inStorage]
    exact h.get_put _ _ _
  · rfl

theorem IsAccess.checkedWrite_spec (h : IsAccess n get put) (a : Nat) (v : BitVec w) :
    (KeepsMemoryBut (fun b => a ≤ b ∧ b < a + n) s (s.checkedWrite n put a v) ∧
      KeepsAllBut [] [.memory] s (s.checkedWrite n put a v)) ∧
    if a + n ≤ s.memlen then (s.checkedWrite n put a v).checkedRead n get a = v else s.checkedWrite n put a v = s :=
  ⟨h.checkedWrite_frame s a v, h.checkedWrite_effect s a v⟩
end

/-- Settles O51: each of the four widths is a checked access of bytes that agree. -/
theorem accessesAreBigEndian : Obligations.AccessesAreBigEndian := by
  intro s a
  refine ⟨rfl, access16.toNat_checkedRead s a, access32.toNat_checkedRead s a, access128.toNat_checkedRead s a, ?_,
    access16.checkedWrite_spec s a, access32.checkedWrite_spec s a, access128.checkedWrite_spec s a⟩
  intro b
  rw [State.writeByte_eq_checkedWrite]
  exact byteAccess.checkedWrite_spec s a b

/-! ## Regions (R61, R68, R69) -/

/-- Settles O52: the frames of the three operations, and what each byte reads as after them. -/
theorem regionOperations : Obligations.RegionOperations := by
  intro s tag range data
  have load := s.loadRegion_eq tag data
  have clear := s.clearRegion_eq tag
  refine ⟨⟨?_, s.growTo_memlen range.stop, s.setRegion_readByte tag range, ?_, keepsAllBut_setRegion s tag range⟩,
    fun undeclared => ⟨s.loadRegion_undeclared data undeclared, s.clearRegion_undeclared undeclared⟩,
    by rw [load]; rfl, by rw [load]; rfl, by rw [load]; exact keepsAllBut_setMem s _,
    by rw [clear]; rfl, by rw [clear]; rfl, by rw [clear]; exact keepsAllBut_setMem s _, ?_⟩
  · intro other
    rw [State.setRegion_eq]
    exact Regions.get_put s.regions tag other range
  · rw [State.setRegion_eq]
    rfl
  · intro r a declared inStorage
    refine ⟨?_, s.clearRegion_readByte declared a⟩
    rw [s.loadRegion_readByte data declared]
    exact if_congr (by omega) rfl rfl

/-! ## The screen dump (R72) -/

theorem State.bytesOf_length (r : ByteRange) : (s.bytesOf r).length = r.stop - r.start := by
  simp [State.bytesOf]

theorem State.bytesOf_getD {r : ByteRange} {j : Nat} (h : j < r.stop - r.start) :
    (s.bytesOf r).getD j 0 = Memory.byteAt s.mem (r.start + j) := by
  simp [State.bytesOf, h]

/-- A region in storage, not reversed, is read whole. -/
theorem State.getRegion_of_covered {tag : RegionTag} {r : ByteRange} (declared : s.regions.get tag = some r)
    (ordered : r.start ≤ r.stop) (covered : r.stop ≤ s.memlen) : s.getRegion tag = some (s.bytesOf r) := by
  simp [State.getRegion, State.getSlice, State.present, declared, ordered, covered]

theorem screenW_dvd : 8 ∣ s.screenW := by
  unfold State.screenW
  cases s.flags.drawMode <;> decide

/-- The Screen range is as long as the screen's rows of `screenW / 8` bytes. -/
theorem screenRange_length :
    (screenRange s.flags.drawMode).stop - (screenRange s.flags.drawMode).start = s.screenH * (s.screenW / 8) := by
  unfold State.screenW State.screenH
  cases s.flags.drawMode <;> decide

/-- The byte of a pixel lies within the Screen range. -/
theorem pixel_offset_lt {px py : Nat} (hx : px < s.screenW) (hy : py < s.screenH) :
    py * (s.screenW / 8) + px / 8 < (screenRange s.flags.drawMode).stop - (screenRange s.flags.drawMode).start := by
  rw [screenRange_length]
  calc py * (s.screenW / 8) + px / 8
      < py * (s.screenW / 8) + s.screenW / 8 := Nat.add_lt_add_left (Nat.div_lt_div_of_lt_of_dvd (screenW_dvd s) hx) _
    _ = (py + 1) * (s.screenW / 8) := (Nat.succ_mul py _).symm
    _ ≤ s.screenH * (s.screenW / 8) := Nat.mul_le_mul_right _ hy

theorem screenRange_start (hires : Bool) : (screenRange hires).start = Config.screenBase := by cases hires <;> rfl

theorem screenRange_ordered (hires : Bool) : (screenRange hires).start ≤ (screenRange hires).stop := by
  cases hires <;> decide

/-- The dimensions inferred from the length of the Screen region are the current ones. -/
theorem dump_size :
    dumpWidth (s.bytesOf (screenRange s.flags.drawMode)).length = s.screenW ∧
      dumpHeight (s.bytesOf (screenRange s.flags.drawMode)).length = s.screenH := by
  rw [State.bytesOf_length]
  unfold State.screenW State.screenH
  cases s.flags.drawMode <;> decide

/-- Settles O50: the dump is the bytes of the Screen range, and a pixel's byte is at the same offset in both. -/
theorem screenDumpShowsPixels : Obligations.ScreenDumpShowsPixels := by
  intro s screen covered
  have inStorage := covered .screen _ screen
  obtain ⟨width, height⟩ := dump_size s
  refine ⟨_, s.getRegion_of_covered screen (screenRange_ordered _) inStorage, width, height, ?_⟩
  intro px py hx hy
  have inside := pixel_offset_lt s hx hy
  have addr : (screenRange s.flags.drawMode).start + (py * (s.screenW / 8) + px / 8) = pixelByte s.screenW px py := by
    rw [screenRange_start, pixelByte, Nat.add_assoc]
  have byte : s.readByte (pixelByte s.screenW px py) = Memory.byteAt s.mem (pixelByte s.screenW px py) :=
    s.readByte_in_storage (by omega)
  unfold dumpPixel
  rw [width, s.bytesOf_getD inside, addr, ← byte]
  rfl

end Sys2Proof.Machine
end

section
/-! SUPPORT. From words to instructions (spec/30_encoding.md R92-R99): what the words of each family decode to, by the fields
they are built from, and so that every instruction's word decodes to it. -/

namespace Sys2Proof

/-! ## The words of the families with sub-opcodes (R95-R99) -/

theorem decode_family0 (hires : Bool) (nnn : Addr) :
    decode hires (0x0#4 ++ nnn) =
      if nnn.toNat = 0x0E0 then .instr .cls
      else if nnn.toNat = 0x0EE then .instr .ret
      else if nnn.toNat = 0x0FE ∧ hires = true then .instr .low
      else if nnn.toNat = 0x0FF ∧ hires = true then .instr .high
      else .unimplemented (0x0#4 ++ nnn) := by
  have value : (0x0#4 ++ nnn).toNat = nnn.toNat := by
    rw [BitVec.toNat_append]
    simp
  simp only [decode, decodeFamily0, fieldOp_address, BitVec.toNat_ofNat, Nat.reducePow,
    Nat.reduceMod, value]
  split <;> simp_all

theorem decode_family5 (hires : Bool) (x y n : Nibble) :
    decode hires (0x5#4 ++ x ++ y ++ n) =
      if n = 0 then .instr (.seReg x y) else .unimplemented (0x5#4 ++ x ++ y ++ n) := by
  simp only [decode, decodeFamily5, fieldOp_registers, fieldX_registers, fieldY_registers, fieldN_registers,
    BitVec.toNat_ofNat, Nat.reducePow, Nat.reduceMod]
  split <;> simp_all [BitVec.toNat_eq]

theorem decode_family8 (hires : Bool) (x y n : Nibble) :
    decode hires (0x8#4 ++ x ++ y ++ n) =
      if n = 0x0 then .instr (.ldReg x y) else if n = 0x1 then .instr (.orReg x y)
      else if n = 0x2 then .instr (.andReg x y) else if n = 0x3 then .instr (.xorReg x y)
      else if n = 0x4 then .instr (.addReg x y) else if n = 0x5 then .instr (.sub x y)
      else if n = 0x6 then .instr (.shr x y) else if n = 0x7 then .instr (.subn x y)
      else if n = 0xE then .instr (.shl x y) else .unimplemented (0x8#4 ++ x ++ y ++ n) := by
  simp only [decode, decodeFamily8, fieldOp_registers, fieldX_registers, fieldY_registers, fieldN_registers,
    BitVec.toNat_ofNat, Nat.reducePow, Nat.reduceMod]
  split <;> simp_all [BitVec.toNat_eq]

theorem decode_family9 (hires : Bool) (x y n : Nibble) :
    decode hires (0x9#4 ++ x ++ y ++ n) =
      if n = 0 then .instr (.sneReg x y) else .unimplemented (0x9#4 ++ x ++ y ++ n) := by
  simp only [decode, decodeFamily9, fieldOp_registers, fieldX_registers, fieldY_registers, fieldN_registers,
    BitVec.toNat_ofNat, Nat.reducePow, Nat.reduceMod]
  split <;> simp_all [BitVec.toNat_eq]

theorem decode_familyE (hires : Bool) (x : Nibble) (kk : Byte) :
    decode hires (0xE#4 ++ x ++ kk) =
      if kk = 0x9E then .instr (.skp x) else if kk = 0xA1 then .instr (.sknp x)
      else .unimplemented (0xE#4 ++ x ++ kk) := by
  simp only [decode, decodeFamilyE, fieldOp_immediate, fieldX_immediate, fieldKK_immediate,
    BitVec.toNat_ofNat, Nat.reducePow, Nat.reduceMod]
  split <;> simp_all [BitVec.toNat_eq]

theorem decode_familyF (hires : Bool) (x : Nibble) (kk : Byte) :
    decode hires (0xF#4 ++ x ++ kk) =
      if kk = 0x07 then .instr (.ldVxDt x) else if kk = 0x0A then .instr (.ldVxK x)
      else if kk = 0x15 then .instr (.ldDtVx x) else if kk = 0x18 then .instr (.ldStVx x)
      else if kk = 0x1E then .instr (.addI x) else if kk = 0x29 then .instr (.ldF x)
      else if kk = 0x33 then .instr (.ldB x) else if kk = 0x55 then .instr (.ldMemI x)
      else if kk = 0x65 then .instr (.ldRegI x) else .unimplemented (0xF#4 ++ x ++ kk) := by
  simp only [decode, decodeFamilyF, fieldOp_immediate, fieldX_immediate, fieldKK_immediate,
    BitVec.toNat_ofNat, Nat.reducePow, Nat.reduceMod]
  split <;> simp_all [BitVec.toNat_eq]

/-- Settles O1: the fields of a word the encoder builds are the operands, and its sub-opcode selects the instruction. -/
theorem decodeInvertsEncode : Obligations.DecodeInvertsEncode := by
  intro hires i wf
  cases i with
  | cls | ret => rfl
  | low | high =>
    have gate : hires = true := wf
    rw [gate]
    rfl
  | jp | call | ldI | jpV0 => simp [encode, decode, fieldOp_address, fieldNNN_address]
  | seImm | sneImm | ldImm | addImm | rnd =>
    simp [encode, decode, fieldOp_immediate, fieldX_immediate, fieldKK_immediate]
  | drw => simp [encode, decode, fieldOp_registers, fieldX_registers, fieldY_registers, fieldN_registers]
  | seReg => simp [encode, decode_family5]
  | ldReg | orReg | andReg | xorReg | addReg | sub | shr | subn | shl => simp [encode, decode_family8]
  | sneReg => simp [encode, decode_family9]
  | skp | sknp => simp [encode, decode_familyE]
  | ldVxDt | ldVxK | ldDtVx | ldStVx | addI | ldF | ldB | ldMemI | ldRegI => simp [encode, decode_familyF]

/-- Settles O3: the word's value is its low twelve bits, and the decoder matches on it. -/
theorem familyZeroMatchesWholeWord : Obligations.FamilyZeroMatchesWholeWord := decode_family0

/-- Settles O4, one family after the other. -/
theorem subOpcodeFamiliesDispatch : Obligations.SubOpcodeFamiliesDispatch := fun hires x y n kk =>
  ⟨decode_family5 hires x y n, decode_family9 hires x y n, decode_family8 hires x y n, decode_familyE hires x kk,
    decode_familyF hires x kk⟩

/-- Settles O6: each word is a literal, so the decoder computes. -/
theorem sampleWordsDecode : Obligations.SampleWordsDecode := by
  intro hires
  cases hires <;> decide

end Sys2Proof
end

section
/-! SUPPORT. From instructions back to words (spec/30_encoding.md R100, R106): the fields of a word make it again, so an
instruction that the decoder gives encodes to the word it came from; and the words that are no instruction. -/

namespace Sys2Proof

variable {hires : Bool} {w u : Word} {i : Instr}

/-! ## The word of an instruction that a family gives (R106) -/

theorem fieldOp_append_fieldNNN (w : Word) : fieldOp w ++ fieldNNN w = w := by
  simpa [fieldOp, fieldNNN] using
    BitVec.extractLsb'_append_extractLsb'_eq_extractLsb' (x := w) (start₁ := 0) (len₁ := 12) (len₂ := 4) rfl

theorem fieldX_append_fieldKK (w : Word) : fieldX w ++ fieldKK w = fieldNNN w :=
  BitVec.extractLsb'_append_extractLsb'_eq_extractLsb' (x := w) (start₁ := 0) (len₁ := 8) (len₂ := 4) rfl

theorem fieldY_append_fieldN (w : Word) : fieldY w ++ fieldN w = fieldKK w :=
  BitVec.extractLsb'_append_extractLsb'_eq_extractLsb' (x := w) (start₁ := 0) (len₁ := 4) (len₂ := 4) rfl

theorem address_of_fields {a : Nibble} (op : (fieldOp w).toNat = a.toNat) : a ++ fieldNNN w = w := by
  rw [← BitVec.eq_of_toNat_eq op]
  exact fieldOp_append_fieldNNN w

theorem immediate_of_fields {a : Nibble} {kk : Byte} (op : (fieldOp w).toNat = a.toNat)
    (sub : (fieldKK w).toNat = kk.toNat) : a ++ fieldX w ++ kk = w := by
  rw [← BitVec.eq_of_toNat_eq sub]
  refine Eq.trans ?_ (address_of_fields op)
  rw [← fieldX_append_fieldKK]
  exact BitVec.append_assoc ..

theorem registers_of_fields {a n : Nibble} (op : (fieldOp w).toNat = a.toNat)
    (sub : (fieldN w).toNat = n.toNat) : a ++ fieldX w ++ fieldY w ++ n = w := by
  rw [← BitVec.eq_of_toNat_eq sub]
  refine Eq.trans ?_ (immediate_of_fields op (kk := fieldKK w) rfl)
  rw [← fieldY_append_fieldN]
  exact BitVec.append_assoc ..

/-- `i` is an instruction whose word is `w`. -/
def IsWordOf (hires : Bool) (w : Word) (i : Instr) : Prop := encode i = w ∧ i.wellFormed hires = true

theorem isWordOf_family0 (h : decodeFamily0 hires w = .instr i) : IsWordOf hires w i := by
  unfold decodeFamily0 at h
  split at h
  case h_1 value | h_2 value =>
    cases h
    exact ⟨(BitVec.eq_of_toNat_eq value).symm, rfl⟩
  case h_3 value | h_4 value =>
    split at h <;> cases h
    exact ⟨(BitVec.eq_of_toNat_eq value).symm, ‹_›⟩
  case h_5 => cases h

theorem isWordOf_family5 (op : (fieldOp w).toNat = 0x5) (h : decodeFamily5 w = .instr i) : IsWordOf hires w i := by
  unfold decodeFamily5 at h
  split at h <;> cases h
  exact ⟨registers_of_fields op ‹_›, rfl⟩

theorem isWordOf_family8 (op : (fieldOp w).toNat = 0x8) (h : decodeFamily8 w = .instr i) : IsWordOf hires w i := by
  unfold decodeFamily8 at h
  split at h <;> cases h <;> exact ⟨registers_of_fields op ‹_›, rfl⟩

theorem isWordOf_family9 (op : (fieldOp w).toNat = 0x9) (h : decodeFamily9 w = .instr i) : IsWordOf hires w i := by
  unfold decodeFamily9 at h
  split at h <;> cases h
  exact ⟨registers_of_fields op ‹_›, rfl⟩

theorem isWordOf_familyE (op : (fieldOp w).toNat = 0xE) (h : decodeFamilyE w = .instr i) : IsWordOf hires w i := by
  unfold decodeFamilyE at h
  split at h <;> cases h <;> exact ⟨immediate_of_fields op ‹_›, rfl⟩

theorem isWordOf_familyF (op : (fieldOp w).toNat = 0xF) (h : decodeFamilyF w = .instr i) : IsWordOf hires w i := by
  unfold decodeFamilyF at h
  split at h <;> cases h <;> exact ⟨immediate_of_fields op ‹_›, rfl⟩

/-- There are sixteen families, so the one that `decode` names last is 0xF. -/
theorem fieldOp_lt (w : Word) : (fieldOp w).toNat < 16 := (fieldOp w).isLt

/-- Settles O2, family by family: the fields that a family reads, with those it fixes, are the whole word. -/
theorem encodeInvertsDecode : Obligations.EncodeInvertsDecode := by
  intro hires w i h
  change IsWordOf hires w i
  unfold decode at h
  split at h
  case h_1 => exact isWordOf_family0 h
  case h_2 op | h_3 op | h_11 op | h_12 op =>
    cases h
    exact ⟨address_of_fields op, rfl⟩
  case h_4 op | h_5 op | h_7 op | h_8 op | h_13 op =>
    cases h
    exact ⟨immediate_of_fields op rfl, rfl⟩
  case h_6 op => exact isWordOf_family5 op h
  case h_9 op => exact isWordOf_family8 op h
  case h_10 op => exact isWordOf_family9 op h
  case h_14 op =>
    cases h
    exact ⟨registers_of_fields op rfl, rfl⟩
  case h_15 op => exact isWordOf_familyE op h
  case h_16 =>
    have op : (fieldOp w).toNat = 0xF := by grind [fieldOp_lt]
    exact isWordOf_familyF op h

/-! ## The unimplemented space (R100) -/

theorem fieldOp_toNat (w : Word) : (fieldOp w).toNat = w.toNat / 4096 := by
  simp [fieldOp]
  omega

theorem fieldN_toNat (w : Word) : (fieldN w).toNat = w.toNat % 16 := by simp [fieldN]

theorem fieldKK_toNat (w : Word) : (fieldKK w).toNat = w.toNat % 256 := by simp [fieldKK]

/-- R100's list: the words that are no instruction. -/
def InUnimplementedSpace (hires : Bool) (w : Word) : Prop :=
  (w.toNat / 4096 = 0 ∧ w.toNat ≠ 0x00E0 ∧ w.toNat ≠ 0x00EE ∧
    ¬ (hires = true ∧ (w.toNat = 0x00FE ∨ w.toNat = 0x00FF))) ∨
  ((w.toNat / 4096 = 5 ∨ w.toNat / 4096 = 9) ∧ w.toNat % 16 ≠ 0) ∨
  (w.toNat / 4096 = 8 ∧ w.toNat % 16 ∈ [0x8, 0x9, 0xA, 0xB, 0xC, 0xD, 0xF]) ∨
  (w.toNat / 4096 = 0xE ∧ w.toNat % 256 ∉ [0x9E, 0xA1]) ∨
  (w.toNat / 4096 = 0xF ∧ w.toNat % 256 ∉ [0x07, 0x0A, 0x15, 0x18, 0x1E, 0x29, 0x33, 0x55, 0x65])

theorem decodeFamily0_eq_unimplemented : decodeFamily0 hires w = .unimplemented u ↔
    w = u ∧ w.toNat ≠ 0x00E0 ∧ w.toNat ≠ 0x00EE ∧ ¬ (hires = true ∧ (w.toNat = 0x00FE ∨ w.toNat = 0x00FF)) := by
  unfold decodeFamily0
  split
  case h_1 value | h_2 value => simp [value]
  case h_3 value | h_4 value => cases hires <;> simp [value]
  case h_5 => simp_all

theorem decodeFamily5_eq_unimplemented : decodeFamily5 w = .unimplemented u ↔ w = u ∧ w.toNat % 16 ≠ 0 := by
  unfold decodeFamily5
  rw [fieldN_toNat]
  split <;> simp_all

theorem decodeFamily8_eq_unimplemented : decodeFamily8 w = .unimplemented u ↔
    w = u ∧ w.toNat % 16 ∈ [0x8, 0x9, 0xA, 0xB, 0xC, 0xD, 0xF] := by
  unfold decodeFamily8
  rw [fieldN_toNat]
  split
  case h_10 => grind
  all_goals rename_i sub; simp [sub]

theorem decodeFamily9_eq_unimplemented : decodeFamily9 w = .unimplemented u ↔ w = u ∧ w.toNat % 16 ≠ 0 := by
  unfold decodeFamily9
  rw [fieldN_toNat]
  split <;> simp_all

theorem decodeFamilyE_eq_unimplemented : decodeFamilyE w = .unimplemented u ↔
    w = u ∧ w.toNat % 256 ∉ [0x9E, 0xA1] := by
  unfold decodeFamilyE
  rw [fieldKK_toNat]
  split <;> simp_all

theorem decodeFamilyF_eq_unimplemented : decodeFamilyF w = .unimplemented u ↔
    w = u ∧ w.toNat % 256 ∉ [0x07, 0x0A, 0x15, 0x18, 0x1E, 0x29, 0x33, 0x55, 0x65] := by
  unfold decodeFamilyF
  rw [fieldKK_toNat]
  split <;> simp_all

/-- The unimplemented variant carries the word, and the words that decode to it are those of R100. -/
theorem decode_eq_unimplemented : decode hires w = .unimplemented u ↔ w = u ∧ InUnimplementedSpace hires w := by
  unfold decode InUnimplementedSpace
  simp only [← fieldOp_toNat]
  split
  case h_1 op => simp [decodeFamily0_eq_unimplemented, op]
  case h_6 op => simp [decodeFamily5_eq_unimplemented, op]
  case h_9 op => simp [decodeFamily8_eq_unimplemented, op]
  case h_10 op => simp [decodeFamily9_eq_unimplemented, op]
  case h_15 op => simp [decodeFamilyE_eq_unimplemented, op]
  case h_16 =>
    have op : (fieldOp w).toNat = 0xF := by grind [fieldOp_lt]
    simp [decodeFamilyF_eq_unimplemented, op]
  case h_2 op | h_3 op | h_4 op | h_5 op | h_7 op | h_8 op | h_11 op | h_12 op | h_13 op | h_14 op => simp [op]

/-- Settles O5: both halves are what it takes to decode to the unimplemented variant. -/
theorem unimplementedSpaceIsExact : Obligations.UnimplementedSpaceIsExact := fun _ w =>
  ⟨fun _ h => (decode_eq_unimplemented.mp h).1.symm,
    fun ⟨_, h⟩ => (decode_eq_unimplemented.mp h).2, fun h => ⟨w, decode_eq_unimplemented.mpr ⟨rfl, h⟩⟩⟩

end Sys2Proof
end

section
/-! SUPPORT. The disassembler (spec/30_encoding.md R104) and HIRES_OPCODES (R102): both rest on what a word decodes to. -/

namespace Sys2Proof.Machine

variable {hires : Bool} {s t : State} {i : Instr} {w : Word}

/-! ## The disassembler (R104) -/

theorem asmOf_text (i : Instr) : ∃ m ops, asmOf i = .text m ops := by
  cases i <;> exact ⟨_, _, rfl⟩

/-- Settles O8: the disassembler renders what the decoder gives. -/
theorem disassemblyMirrorsDecoder : Obligations.DisassemblyMirrorsDecoder := by
  intro hires w
  constructor
  · rintro ⟨i, h⟩
    obtain ⟨m, ops, text⟩ := asmOf_text i
    exact ⟨m, ops, by simp [disassemble, h, text]⟩
  · rintro ⟨u, h⟩
    obtain ⟨rfl, -⟩ := decode_eq_unimplemented.mp h
    simp [disassemble, h]

/-! ## HIRES_OPCODES (R102) -/

/-- Only family 0 asks for HIRES_OPCODES, and only at two words. -/
theorem decode_hires_congr (low : w ≠ 0x00FE) (high : w ≠ 0x00FF) : decode true w = decode false w := by
  have family0 : decodeFamily0 true w = decodeFamily0 false w := by
    unfold decodeFamily0
    split
    case h_3 value => exact absurd (BitVec.eq_of_toNat_eq value) low
    case h_4 value => exact absurd (BitVec.eq_of_toNat_eq value) high
    all_goals rfl
  unfold decode
  rw [family0]

/-- No instruction of an engine without HIRES_OPCODES changes `draw_mode`. -/
theorem Effect.drawMode (e : Effect s i t) (wf : i.wellFormed false = true) : t.flags.drawMode = s.flags.drawMode := by
  cases e with
  | resolution i hires writer => obtain rfl | rfl := writer <;> cases wf
  | _ => rfl

@[simp] theorem retire_drawMode (s : State) : (retire s).2.flags.drawMode = s.flags.drawMode := by
  rw [retire_state]
  split <;> rfl

theorem tick_drawMode (s : State) : (tick false s).2.flags.drawMode = s.flags.drawMode := by
  rcases tick_cases s false with ⟨-, e⟩ | ⟨-, t, h, e⟩ | ⟨-, f, -, e⟩ | ⟨-, r, -, e⟩ <;> rw [e]
  · obtain ⟨i, decoded, next⟩ := execDecoded_next h
    obtain ⟨-, wf⟩ := encodeInvertsDecode false _ i decoded
    rw [retire_drawMode]
    exact (exec_effect next).drawMode wf
  · rfl
  · rfl

theorem singlestep_drawMode (s : State) : (singlestep false s).2.flags.drawMode = s.flags.drawMode :=
  tick_drawMode (s.setPause false)

/-- What every tick keeps, a multistep keeps. -/
theorem multistep_keeps {P : State → Prop} (keep : ∀ s, P s → P (tick hires s).2) (n : Nat) (h : P s) :
    P (multistep hires n s).2 := by
  induction n generalizing s with
  | zero => exact h
  | succ n ih =>
    have ticked : ∀ {o u}, tick hires s = (o, u) → P u := by
      intro o u e
      simpa [e] using keep s h
    unfold multistep
    split
    · exact ih (ticked ‹_›)
    · exact ih (ticked ‹_›)
    · exact ticked ‹_›
    · exact ticked ‹_›
    · exact ticked ‹_›

theorem multistep_drawMode (n : Nat) (s : State) : (multistep false n s).2.flags.drawMode = s.flags.drawMode :=
  multistep_keeps (P := fun u => u.flags.drawMode = s.flags.drawMode) (fun u h => (tick_drawMode u).trans h) n rfl

theorem screenRange_inj {a b : Bool} : screenRange a = screenRange b → a = b := by
  cases a <;> cases b <;> decide

/-- Under the contract only `set_resolution` changes `draw_mode`, when no instruction does. -/
theorem hostMove_drawMode {c : HostCall} {reply : HostReply} (screen : ScreenOk s)
    (h : hostMove false c s = some (reply, t)) :
    t.flags.drawMode = s.flags.drawMode ∨ ∃ mode, c = .setResolution mode := by
  obtain ⟨allowed, e⟩ := hostMove_eq h
  obtain rfl : (hostCall false c s).2 = t := congrArg Prod.snd e
  cases c with
  | setResolution mode => exact .inr ⟨mode, rfl⟩
  | tick => exact .inl (tick_drawMode s)
  | singlestep => exact .inl (singlestep_drawMode s)
  | multistep n => exact .inl (multistep_drawMode n s)
  | new b f =>
    have declared : s.regions.screen = some (screenRange f.drawMode) := of_decide_eq_true allowed
    exact .inl (screenRange_inj (Option.some.inj (declared.symm.trans screen)))
  | writeFlags f =>
    obtain ⟨mode, -⟩ := Bool.and_eq_true_iff.mp allowed
    exact .inl (of_decide_eq_true mode)
  | release k =>
    left
    simp only [hostCall, hostRelease_flags]
    split <;> rfl
  | _ =>
    left
    simp [hostCall, hostTickTimer, hostSetBreak, hostUnsetBreak, hostTogglePause, hostToggleDebug, hostSetQuirks,
      hostToggleQuirks, hostSetMode, Machine.softReset]

/-- Settles O7: the decoder looks at HIRES_OPCODES for two words only, and what a word decodes to is well-formed, so without
HIRES_OPCODES no tick runs LOW or HIGH. -/
theorem hiresOpcodesGateTheSwitch : Obligations.HiresOpcodesGateTheSwitch := by
  refine ⟨fun _ => decode_hires_congr, rfl, rfl, tick_drawMode, ?_, fun s h => ?_⟩
  · intro c s t reply screen move changed
    exact (hostMove_drawMode screen move).resolve_left changed
  · rw [hostCall, State.switchResolution_flags]

end Sys2Proof.Machine
end

section
/-! SUPPORT. The engine (spec/40_engine.md R121-R127): the ways a tick goes on, one equation each, with what retiring an
instruction leaves; the stepping operations; and a wait for a key. -/

namespace Sys2Proof.Machine

variable {s t : State} {i : Instr} {hires : Bool}

/-! ## Stalls (R120) -/

theorem stalled_iff : s.stalled = true ↔ s.flags.pause = true ∨ s.flags.keypause = true ∨ s.flags.drawWait = true := by
  simp [State.stalled, or_assoc]

theorem unstalled_iff :
    s.stalled = false ↔ s.flags.pause = false ∧ s.flags.keypause = false ∧ s.flags.drawWait = false := by
  simp [State.stalled, and_assoc]

/-! ## One equation per way of an unstalled tick (R121) -/

/-- No instruction is refused. -/
theorem exec_ne_refused (i : Instr) (s : State) (r : Refusal) : exec i s ≠ .refused r := by
  cases i with
  | jp nnn =>
    change execJp nnn s ≠ _
    unfold execJp
    split <;> nofun
  | call nnn =>
    change execCall nnn s ≠ _
    unfold execCall push
    split <;> nofun
  | ret =>
    change execRet s ≠ _
    unfold execRet pop
    split <;> nofun
  | ldVxK x =>
    change execLdVxK x s ≠ _
    unfold execLdVxK
    split <;> nofun
  | _ => nofun

theorem execDecoded_ne_refused (d : Decoded) (s : State) (r : Refusal) : execDecoded d s ≠ .refused r := by
  cases d with
  | instr i => exact exec_ne_refused i s r
  | unimplemented w => nofun

theorem tick_of_next (unstalled : s.stalled = false) (decoded : decode hires s.fetch = .instr i)
    (executed : exec i s.advance = .next t) : tick hires s = retire t := by
  simp [tick, unstalled, decoded, execDecoded, executed]

theorem tick_of_fault {f : Fault} (unstalled : s.stalled = false) (decoded : decode hires s.fetch = .instr i)
    (faulted : exec i s.advance = .fault f) : tick hires s = (.fault f, s.advance) := by
  simp [tick, unstalled, decoded, execDecoded, faulted]

theorem tick_of_unimplemented {w : Word} (unstalled : s.stalled = false)
    (decoded : decode hires s.fetch = .unimplemented w) :
    tick hires s = (.fault (.unimplemented w s.pc), s.advance) := by
  simp [tick, unstalled, decoded, execDecoded, raiseFault, State.fetchAddr, State.advance]

/-! ## What retiring leaves (R121, R125) -/

theorem atBreakpoint_iff : s.atBreakpoint = true ↔ s.pc ∈ s.breakpoints := List.contains_iff_mem

@[simp] theorem retire_pc (s : State) : (retire s).2.pc = s.pc := by
  rw [retire_state]
  split <;> rfl

@[simp] theorem retire_lastkey (s : State) : (retire s).2.lastkey = s.lastkey := by
  rw [retire_state]
  split <;> rfl

@[simp] theorem retire_getV (s : State) (x : Nibble) : (retire s).2.getV x = s.getV x := by
  rw [retire_state]
  split <;> rfl

theorem retire_at_breakpoint (h : s.pc ∈ s.breakpoints) :
    retire s = (.stopped .breakpoint s.pc, (s.setCycle (s.cycle + 1)).setPause true) :=
  Prod.ext (by rw [retire_outcome, if_pos (atBreakpoint_iff.mpr h)])
    (by rw [retire_state, if_pos (atBreakpoint_iff.mpr h)])

theorem retire_off_breakpoint (h : s.pc ∉ s.breakpoints) :
    retire s = (if s.flags.pause = true then .stopped .selfJump s.pc else .ran, s.setCycle (s.cycle + 1)) :=
  Prod.ext (by rw [retire_outcome, if_neg (mt atBreakpoint_iff.mp h)])
    (by rw [retire_state, if_neg (mt atBreakpoint_iff.mp h)])

/-- Retiring stops on a breakpoint exactly where `pc` is in the set. -/
theorem retire_stopped_breakpoint_iff : (∃ p, (retire s).1 = .stopped .breakpoint p) ↔ s.pc ∈ s.breakpoints := by
  by_cases h : s.pc ∈ s.breakpoints
  · simp [retire_at_breakpoint h, h]
  · rw [retire_off_breakpoint h]
    split <;> simp [h]

/-- A retired instruction is a step: it ran or stopped. -/
theorem tickOut_retire (s : State) : tickOut (retire s) = .next (retire s).2 := by
  unfold tickOut
  rcases retire_ran_or_stopped s with ho | ⟨c, p, ho⟩ <;> rw [ho]

/-- Settles O9, by the equations of the tick and of retiring. -/
theorem tickFollowsItsPseudocode : Obligations.TickFollowsItsPseudocode := by
  intro hires s stalled decoded fetched
  have unstalled : ¬ stalled → s.stalled = false := fun h => Bool.eq_false_iff.mpr (mt stalled_iff.mp h)
  refine ⟨fun h => tick_stalled (stalled_iff.mpr h), fun h w hw => tick_of_unimplemented (unstalled h) hw,
    fun h i f hi hf => tick_of_fault (unstalled h) hi hf, fun h i t hi ht => ?_⟩
  rw [tick_of_next (unstalled h) hi ht]
  by_cases hb : t.pc ∈ t.breakpoints
  · rw [retire_at_breakpoint hb, if_pos hb]
    rfl
  · rw [retire_off_breakpoint hb, if_neg hb]
    split <;> rfl

/-- Settles O10: the next state is the one that retiring leaves. -/
theorem stepRunsTheDecodedInstruction : Obligations.StepRunsTheDecodedInstruction := by
  intro s i pause keypause drawWait decoded
  have unstalled := unstalled_iff.mpr ⟨pause, keypause, drawWait⟩
  unfold step
  refine ⟨fun t ht => ?_, fun f hf => ?_⟩
  · rw [tick_of_next unstalled decoded ht, tickOut_retire]
    by_cases hb : t.pc ∈ t.breakpoints
    · simp [retire_at_breakpoint hb, hb, State.setCycle, State.setPause, State.setFlags]
    · simp [retire_off_breakpoint hb, hb, State.setCycle]
  · rw [tick_of_fault unstalled decoded hf]
    rfl

/-- Settles O11: past storage the word reads 0, which is in the unimplemented space. -/
theorem fetchPastStorageFaults : Obligations.FetchPastStorageFaults := by
  intro hires s
  refine ⟨s.readWord_in_storage, fun past => ?_⟩
  have zero : s.fetch = 0 := s.readWord_past_end past
  have decoded : decode hires s.fetch = .unimplemented 0 := by
    rw [zero]
    exact decode_family0 hires 0
  exact ⟨zero, fun pause keypause drawWait =>
    tick_of_unimplemented (unstalled_iff.mpr ⟨pause, keypause, drawWait⟩) decoded⟩

/-- Settles O15: of the ways a tick can end only retiring tests the breakpoints, and no instruction changes them. -/
theorem breakpointsStopAfterTheInstruction : Obligations.BreakpointsStopAfterTheInstruction := by
  intro hires s t o h
  obtain ⟨rfl, rfl⟩ := Prod.ext_iff.mp h
  rcases tick_cases s hires with ⟨-, e⟩ | ⟨-, u, executed, e⟩ | ⟨-, f, -, e⟩ | ⟨-, r, refused, -⟩
  · simp [e]
  · obtain ⟨i, -, hi⟩ := execDecoded_next executed
    obtain ⟨-, -, kept, -⟩ := (exec_effect hi).keepsHostState
    have breakpoints : u.breakpoints = s.breakpoints := kept
    rw [e, retire_stopped_breakpoint_iff, retire_pc, ← breakpoints]
    by_cases hb : u.pc ∈ u.breakpoints
    · simp [retire_at_breakpoint hb, hb]
    · exact ⟨by simp [hb], fun p stopped => absurd (retire_stopped_breakpoint_iff.mp ⟨p, stopped⟩) hb⟩
  · simp [e]
  · exact absurd refused (execDecoded_ne_refused _ _ _)

/-! ## Stepping operations (R126, R127) -/

theorem multistep_of_goes_on {o : TickOutcome} (ticked : tick hires s = (o, t)) (goesOn : o = .ran ∨ o = .idle) (n : Nat) :
    multistep hires (n + 1) s = multistep hires n t := by
  rcases goesOn with rfl | rfl <;> simp [multistep, ticked]

theorem multistep_of_stopped {c : StopCause} {p : Word} (ticked : tick hires s = (.stopped c p, t)) (n : Nat) :
    multistep hires (n + 1) s = (.stopped c p (decode hires (t.readWord p.toNat)), t) := by
  simp [multistep, ticked]

theorem multistep_of_fault {f : Fault} (ticked : tick hires s = (.fault f, t)) (n : Nat) :
    multistep hires (n + 1) s = (.fault f, t) := by
  simp [multistep, ticked]

theorem multistep_of_refused {r : Refusal} (ticked : tick hires s = (.refused r, t)) (n : Nat) :
    multistep hires (n + 1) s = (.refused r, t) := by
  simp [multistep, ticked]

/-- A multistep of `m + n` is one of `m` and then, when its budget ran out, one of `n` (R127). -/
theorem multistep_add (m n : Nat) (s : State) :
    multistep hires (m + n) s =
      if (multistep hires m s).1 = .budgetExhausted then multistep hires n (multistep hires m s).2
      else multistep hires m s := by
  induction m generalizing s with
  | zero => simp [multistep]
  | succ m ih =>
    rw [Nat.succ_add]
    rcases ticked : tick hires s with ⟨o, t⟩
    cases o with
    | ran => simp only [multistep_of_goes_on ticked (.inl rfl), ih]
    | idle => simp only [multistep_of_goes_on ticked (.inr rfl), ih]
    | stopped c p => simp [multistep_of_stopped ticked]
    | fault f => simp [multistep_of_fault ticked]
    | refused r => simp [multistep_of_refused ticked]

/-- Settles O17: an equation of `multistep` per outcome of its first tick, and the induction over the budget. -/
theorem steppingOperations : Obligations.SteppingOperations := by
  intro hires s m n
  refine ⟨rfl, singlestep_waiting, rfl, fun o t ticked => ⟨fun goesOn => ?_, ?_, ?_⟩, multistep_add m n s,
    fun h => multistep_stalled (stalled_iff.mpr h) n⟩
  · exact multistep_of_goes_on ticked goesOn 0
  · rintro c p rfl
    exact multistep_of_stopped ticked 0
  · rintro f rfl
    exact multistep_of_fault ticked 0

/-! ## A wait for a key (R264, R304) -/

theorem exec_ldVxK_unlatched (x : Nibble) (unlatched : s.lastkey = none) :
    exec (.ldVxK x) s = .next ((s.setPc (s.pc - 2)).setKeypause true) := by
  simp [exec, execLdVxK, unlatched]

theorem exec_ldVxK_latched (x : Nibble) {k : Nibble} (latched : s.lastkey = some k) :
    exec (.ldVxK x) s = .next ((s.setV x (keyByte k)).setLastkey none) := by
  simp [exec, execLdVxK, latched]

/-- A release during KeyWait (R304). -/
theorem hostRelease_waiting {k : Nat} (isKey : k < 16) (waiting : s.flags.keypause = true) :
    hostRelease k s =
      ((s.setKey (BitVec.ofNat 4 k) false).setLastkey (some (BitVec.ofNat 4 k))).setKeypause false := by
  simp [hostRelease, isKey, waiting]

/-- The tick that enters KeyWait: `pc` goes back to the instruction, which counts as executed (R264). -/
theorem tick_enters_keyWait {x : Nibble} (unstalled : s.stalled = false)
    (decoded : decode hires s.fetch = .instr (.ldVxK x)) (unlatched : s.lastkey = none) (off : s.pc ∉ s.breakpoints) :
    tick hires s = (.ran, (s.setKeypause true).setCycle (s.cycle + 1)) := by
  obtain ⟨unpaused, -, -⟩ := unstalled_iff.mp unstalled
  have rewound : (s.advance.setPc (s.advance.pc - 2)).setKeypause true = s.setKeypause true := by
    rw [show s.advance.pc - 2 = s.pc from BitVec.add_sub_cancel s.pc 2]
    rfl
  have executed : exec (.ldVxK x) s.advance = .next (s.setKeypause true) := by
    rw [exec_ldVxK_unlatched (s := s.advance) x unlatched, rewound]
  rw [tick_of_next unstalled decoded executed, retire_off_breakpoint (s := s.setKeypause true) off]
  simp [unpaused]

/-- The tick that takes the latched key (R264). -/
theorem tick_takes_key {x k : Nibble} (unstalled : s.stalled = false)
    (decoded : decode hires s.fetch = .instr (.ldVxK x)) (latched : s.lastkey = some k) :
    tick hires s = retire ((s.advance.setV x (keyByte k)).setLastkey none) :=
  tick_of_next unstalled decoded (exec_ldVxK_latched (s := s.advance) x latched)

theorem keyByte_toNat (k : Nibble) : (keyByte k).toNat = k.toNat := BitVec.toNat_setWidth_of_le (by decide)

/-- Settles O39: the tick that enters KeyWait, the release, and the tick that takes the key. -/
theorem keyWaitRoundTrip : Obligations.KeyWaitRoundTrip := by
  intro hires s x k pause keypause drawWait unlatched word off isKey waiting released taken
  have decoded : decode hires s.fetch = .instr (.ldVxK x) :=
    (congrArg (decode hires) word).trans (decodeInvertsEncode hires (.ldVxK x) rfl)
  have entered : waiting = (s.setKeypause true).setCycle (s.cycle + 1) :=
    congrArg Prod.snd (tick_enters_keyWait (unstalled_iff.mpr ⟨pause, keypause, drawWait⟩) decoded unlatched off)
  have waits : waiting.flags.keypause = true := by rw [entered]; rfl
  have latched : released =
      ((waiting.setKey (BitVec.ofNat 4 k) false).setLastkey (some (BitVec.ofNat 4 k))).setKeypause false :=
    hostRelease_waiting isKey waits
  have took : taken = (retire ((released.advance.setV x (keyByte (BitVec.ofNat 4 k))).setLastkey none)).2 := by
    refine congrArg Prod.snd (tick_takes_key ?_ ?_ ?_) <;> rw [latched, entered]
    · exact unstalled_iff.mpr ⟨pause, rfl, drawWait⟩
    · exact decoded
    · rfl
  refine ⟨waits, by rw [entered]; rfl, tick_stalled (stalled_of_keypause waits), ?_⟩
  simp [took, latched, entered, State.advance, keyByte_toNat, Nat.mod_eq_of_lt isKey]

end Sys2Proof.Machine
end

section
/-! SUPPORT. Control flow (spec/41_control_flow.md): what an update of the state leaves, as rules that build a frame one
update at a time; the numbers of the words a jump, a call and a return handle; then the instructions, one equation per way
each of them can go. -/

namespace Sys2Proof.Machine

variable {s t : State} {regs : List Nibble} {parts : List Part} {i : Instr} {hires : Bool}

/-! ## Frames, one update at a time -/

theorem KeepsAllBut.refl (s : State) : KeepsAllBut regs parts s s := by
  refine ⟨fun _ _ => rfl, fun p _ => ?_⟩
  cases p with
  | memory => exact ⟨rfl, fun _ => rfl⟩
  | _ => rfl

theorem KeepsAllBut.mono {more : List Part} (h : KeepsAllBut regs parts s t) (sub : parts ⊆ more) :
    KeepsAllBut regs more s t :=
  ⟨h.1, fun p other => h.2 p (mt (@sub p) other)⟩

theorem KeepsAllBut.setPc (h : KeepsAllBut regs parts s t) (w : Word) : KeepsAllBut regs parts s (t.setPc w) := by
  obtain ⟨registers, same⟩ := h
  refine ⟨registers, fun p other => ?_⟩
  cases p <;> exact same _ other

theorem KeepsAllBut.setSp (h : KeepsAllBut regs parts s t) (w : Word) (allowed : .stackPtr ∈ parts) :
    KeepsAllBut regs parts s (t.setSp w) := by
  obtain ⟨registers, same⟩ := h
  refine ⟨registers, fun p other => ?_⟩
  cases p with
  | stackPtr => exact absurd allowed other
  | _ => exact same _ other

theorem KeepsAllBut.setFlags (h : KeepsAllBut regs parts s t) (f : Flags) (allowed : .flags ∈ parts) :
    KeepsAllBut regs parts s (t.setFlags f) := by
  obtain ⟨registers, same⟩ := h
  refine ⟨registers, fun p other => ?_⟩
  cases p with
  | flags => exact absurd allowed other
  | _ => exact same _ other

theorem keepsAllBut_writeWord (s : State) (a : Nat) (w : Word) : KeepsAllBut [] [.memory] s (s.writeWord a w) := by
  rw [State.writeWord_eq]
  exact keepsAllBut_setMem s _

theorem keepsMemoryBut_writeWord (s : State) (a : Nat) (w : Word) :
    KeepsMemoryBut (fun x => x = a ∨ x = a + 1) s (s.writeWord a w) := by
  refine ⟨by rw [State.writeWord_eq]; rfl, fun x outside => ?_⟩
  obtain ⟨first, second⟩ := not_or.mp outside
  rw [State.readByte_writeWord, if_neg first, if_neg second, ite_self]

/-! ## Words as numbers -/

theorem highByte_toNat (w : Word) : (highByte w).toNat = w.toNat / 256 := by
  rw [highByte, BitVec.extractLsb'_toNat, Nat.shiftRight_eq_div_pow]
  omega

theorem lowByte_toNat (w : Word) : (lowByte w).toNat = w.toNat % 256 := by simp [lowByte]

theorem zextAddr_toNat (nnn : Addr) : (zextAddr nnn).toNat = nnn.toNat := BitVec.toNat_setWidth_of_le (by decide)

theorem zextByte_toNat (b : Byte) : (zextByte b).toNat = b.toNat := BitVec.toNat_setWidth_of_le (by decide)

theorem zextAddr_eq_iff {nnn : Addr} {w : Word} : zextAddr nnn = w ↔ nnn.toNat = w.toNat := by
  rw [← BitVec.toNat_inj, zextAddr_toNat]

theorem State.readWord_toNat (s : State) (a : Nat) :
    (s.readWord a).toNat =
      if a + 2 ≤ s.memlen then (s.readByte a).toNat * 256 + (s.readByte (a + 1)).toNat else 0 := by
  by_cases inStorage : a + 2 ≤ s.memlen
  · rw [if_pos inStorage, s.readWord_in_storage inStorage]
    exact toNat_append_eq_add _ _
  · rw [if_neg inStorage, s.readWord_past_end (by omega)]
    rfl

theorem encode_call (nnn : Addr) : encode (.call nnn) = BitVec.ofNat 16 (0x2000 + nnn.toNat) := by
  apply BitVec.eq_of_toNat_eq
  have bound := nnn.isLt
  rw [encode, toNat_append_eq_add, BitVec.toNat_ofNat, BitVec.toNat_ofNat]
  omega

/-! ## The jumps (R154, R161) -/

/-- A jump sets Paused when its target is its own fetch address, and leaves it otherwise (R152). -/
theorem exec_jp (nnn : Addr) (s : State) :
    exec (.jp nnn) s =
      .next ((s.setPause (s.flags.pause || decide (zextAddr nnn = s.fetchAddr))).setPc (zextAddr nnn)) := by
  by_cases self : zextAddr nnn = s.fetchAddr
  · simp [exec, execJp, self]
  · have unchanged : s.setPause s.flags.pause = s := rfl
    simp [exec, execJp, self, unchanged]

theorem exec_jpV0 (nnn : Addr) (s : State) :
    exec (.jpV0 nnn) s = .next (s.setPc (zextAddr nnn + zextByte (s.getV (s.jumpIndex nnn)))) := rfl

/-- The top nibble of an address, as a number (R161). -/
theorem jumpIndex_eq (s : State) (nnn : Addr) :
    s.jumpIndex nnn = if s.flags.quirks.stupidJumps then BitVec.ofNat 4 (nnn.toNat / 256) else 0 := by
  unfold State.jumpIndex
  rw [BitVec.extractLsb', Nat.shiftRight_eq_div_pow]

/-- Settles O31: the equations of the two jumps, with their targets as numbers. -/
theorem jumps : Obligations.Jumps := by
  intro hires nnn s
  refine ⟨decodeInvertsEncode hires (.jp nnn) rfl, decodeInvertsEncode hires (.jpV0 nnn) rfl,
    ⟨_, exec_jp nnn s, zextAddr_toNat nnn, ?_, ((KeepsAllBut.refl s).setFlags _ (by simp)).setPc _⟩,
    ⟨_, exec_jpV0 nnn s, ?_, (KeepsAllBut.refl s).setPc _⟩⟩
  · simp only [State.setPc_flags, State.setPause_flags, zextAddr_eq_iff]
    rfl
  · rw [State.setPc_pc, BitVec.toNat_add, zextAddr_toNat, zextByte_toNat, jumpIndex_eq]

/-! ## Call and return (R153, R155) -/

theorem exec_call_full (nnn : Addr) (full : s.depth = Config.stackDepth) :
    exec (.call nnn) s = .fault (.stackOverflow (encode (.call nnn)) (s.pc - 2)) := by
  rw [exec, execCall, push_full s _ _ _ full]

theorem exec_call_room (nnn : Addr) (room : s.depth ≠ Config.stackDepth) :
    exec (.call nnn) s = .next (((s.writeWord s.sp.toNat s.pc).setSp (s.sp - 2)).setPc (zextAddr nnn)) := by
  rw [exec, execCall, push_room s _ _ _ room]

/-- A call that completes is at its target. -/
theorem exec_call_pc {nnn : Addr} (executed : exec (.call nnn) s = .next t) : t.pc = zextAddr nnn := by
  by_cases depth : s.depth = Config.stackDepth
  · rw [exec_call_full nnn depth] at executed
    cases executed
  · rw [exec_call_room nnn depth] at executed
    cases executed
    rfl

theorem exec_ret_empty (empty : s.sp = Config.spBase) :
    exec .ret s = .fault (.stackUnderflow 0x00EE (s.pc - 2)) := by
  rw [exec, execRet, pop_empty s _ _ empty]
  rfl

theorem exec_ret_entry (entry : s.sp ≠ Config.spBase) :
    exec .ret s = .next ((s.setSp (s.sp + 2)).setPc (s.readWord (s.sp + 2).toNat)) := by
  rw [exec, execRet, pop_entry s _ _ entry]

/-- Settles O32: the push is the word write at the old `sp`, so its bytes and its frame are those of the write. -/
theorem callPushesReturnAddress : Obligations.CallPushesReturnAddress := by
  intro hires nnn s
  refine ⟨decodeInvertsEncode hires (.call nnn) rfl, fun full => ?_, fun room => ?_⟩
  · rw [← encode_call]
    exact exec_call_full nnn full
  · refine ⟨_, exec_call_room nnn room, zextAddr_toNat nnn, rfl, fun inStorage => ?_, fun past a => ?_,
      keepsMemoryBut_writeWord s _ _, (((keepsAllBut_writeWord s _ _).mono (by simp)).setSp _ (by simp)).setPc _⟩
    · simp [State.readByte_writeWord, inStorage, highByte_toNat, lowByte_toNat]
    · simp [s.writeWord_past_end _ past]

/-- Settles O33: the popped word is the two bytes above `sp` as they now read. -/
theorem returnPopsAddress : Obligations.ReturnPopsAddress := fun hires s =>
  ⟨decodeInvertsEncode hires .ret rfl, exec_ret_empty, fun entry =>
    ⟨_, exec_ret_entry entry, rfl, s.readWord_toNat _, ((KeepsAllBut.refl s).setSp _ (by simp)).setPc _⟩⟩

/-- A stack that holds fewer than all its entries is not empty after one more is pushed. -/
theorem sp_push_ne_spBase (room : s.depth < 16) : s.sp - 2 ≠ Config.spBase := by
  intro empty
  have sp : s.sp = Config.spBase + 2 := by
    rw [← empty]
    exact (BitVec.sub_add_cancel s.sp 2).symm
  rw [State.depth, sp] at room
  exact absurd room (by decide)

/-- Settles O34: the return finds a non-empty stack, and reads back the word that the call stored. -/
theorem callThenReturn : Obligations.CallThenReturn := by
  intro nnn s _ room inStorage
  refine ⟨_, _, exec_call_room nnn (Nat.ne_of_lt room), exec_ret_entry (sp_push_ne_spBase room), ?_, ?_⟩
  · simp [s.readWord_writeWord_same s.sp.toNat s.pc inStorage]
  · simp

/-! ## The skips (R156-R160) -/

/-- What a skip under a condition changes (R156). -/
theorem skipIf_effect (s : State) (c : Bool) :
    (s.skipIf c).pc.toNat = (if c then (s.pc.toNat + 2) % 65536 else s.pc.toNat) ∧ KeepsAllBut [] [] s (s.skipIf c) := by
  rw [State.skipIf_eq]
  refine ⟨?_, (KeepsAllBut.refl s).setPc _⟩
  cases c
  · rfl
  · exact BitVec.toNat_add s.pc 2

/-- Settles O35: each listed instruction is a skip under its comparison. -/
theorem registerSkips : Obligations.RegisterSkips := by
  intro hires x y kk s p listed
  suffices skips : p.2.1 = encode p.1 ∧ p.1.wellFormed hires = true ∧ exec p.1 s = .next (s.skipIf p.2.2) by
    obtain ⟨word, wf, executed⟩ := skips
    exact ⟨word ▸ decodeInvertsEncode hires p.1 wf, _, executed, skipIf_effect s p.2.2⟩
  simp only [List.mem_cons, List.not_mem_nil, or_false] at listed
  obtain rfl | rfl | rfl | rfl := listed <;> simp only [ne_eq, BitVec.toNat_inj] <;> exact ⟨rfl, rfl, rfl⟩

/-! ## The self-jump halt (R152) -/

@[simp] theorem State.advance_fetchAddr (s : State) : s.advance.fetchAddr = s.pc := BitVec.add_sub_cancel s.pc 2

/-- Where the instruction's word stands at `pc`, the instruction is what the fetched word decodes to. -/
theorem decode_fetch (wf : i.wellFormed hires = true) (word : s.fetch = encode i) : decode hires s.fetch = .instr i :=
  (congrArg (decode hires) word).trans (decodeInvertsEncode hires i wf)

/-- A tick that is due for a jump to its own address retires it with Paused set and `pc` back at it. -/
theorem tick_self_jump {nnn : Addr} (unstalled : s.stalled = false) (decoded : decode hires s.fetch = .instr (.jp nnn))
    (self : zextAddr nnn = s.pc) : tick hires s = retire (s.setPause true) := by
  refine tick_of_next unstalled decoded ?_
  rw [exec_jp, State.advance_fetchAddr, self, decide_eq_true rfl, Bool.or_true]
  rfl

theorem retire_paused (s : State) :
    retire (s.setPause true) =
      (.stopped (if s.pc ∈ s.breakpoints then .breakpoint else .selfJump) s.pc,
        (s.setPause true).setCycle (s.cycle + 1)) := by
  by_cases h : s.pc ∈ s.breakpoints
  · rw [retire_at_breakpoint (s := s.setPause true) h, if_pos h]
    rfl
  · rw [retire_off_breakpoint (s := s.setPause true) h, if_neg h]
    rfl

/-- Of the instructions only `JP` writes `flags.pause`, so a tick that runs another one to where no breakpoint stands
leaves the engine unpaused. -/
theorem tick_unpaused (unstalled : s.stalled = false) (decoded : decode hires s.fetch = .instr i)
    (noJump : ∀ nnn, i ≠ .jp nnn) (off : ∀ t, exec i s.advance = .next t → t.pc ∉ s.breakpoints) :
    (tick hires s).2.flags.pause = false := by
  obtain ⟨unpaused, -, -⟩ := unstalled_iff.mp unstalled
  cases executed : exec i s.advance with
  | next t =>
    obtain ⟨-, -, breakpoints, -⟩ := (exec_effect executed).keepsHostState
    obtain ⟨-, -, -, -, -, pauseWriter, -⟩ := onlyNamedInstructionsWrite i s.advance t executed
    have kept : t.flags.pause = s.advance.flags.pause := by
      by_contra changed
      obtain ⟨nnn, jump⟩ := pauseWriter changed
      exact noJump nnn jump
    have offT : t.pc ∉ t.breakpoints := by
      rw [breakpoints]
      exact off t executed
    rw [tick_of_next unstalled decoded executed, retire_off_breakpoint offT]
    exact kept.trans unpaused
  | fault f =>
    rw [tick_of_fault unstalled decoded executed]
    exact unpaused
  | refused r => exact absurd executed (exec_ne_refused i s.advance r)

/-- Settles O16: the jump to itself is retired with Paused set; a call or an indexed jump leaves `flags.pause` alone, and
where it comes back to its own address no breakpoint stands. -/
theorem selfJumpHalts : Obligations.SelfJumpHalts := by
  intro hires s pause keypause drawWait
  have unstalled := unstalled_iff.mpr ⟨pause, keypause, drawWait⟩
  refine ⟨fun nnn word self => ?_, fun off => ⟨fun nnn word self => ?_, fun nnn word back => ?_⟩⟩
  · have decoded : decode hires s.fetch = .instr (.jp nnn) := decode_fetch rfl word
    rw [tick_self_jump unstalled decoded (zextAddr_eq_iff.mpr self), retire_paused]
    exact ⟨rfl, tick_stalled (stalled_of_pause rfl)⟩
  · have decoded : decode hires s.fetch = .instr (.call nnn) := decode_fetch rfl word
    refine tick_unpaused unstalled decoded nofun fun t executed => ?_
    rw [exec_call_pc executed, zextAddr_eq_iff.mpr self]
    exact off
  · have decoded : decode hires s.fetch = .instr (.jpV0 nnn) := decode_fetch rfl word
    refine tick_unpaused unstalled decoded nofun fun t executed => ?_
    rw [tick_of_next unstalled decoded executed, retire_pc] at back
    rwa [back]

end Sys2Proof.Machine
end

section
/-! SUPPORT. Register arithmetic, logic and random (spec/42_alu.md): the frames of register writes, what the two shared
ways to write a result leave (R181, R185), and the results and flags as numbers; then the instructions, each by the write
it makes. -/

namespace Sys2Proof.Machine

variable {s t : State} {regs : List Nibble} {parts : List Part}

/-! ## Frames of register writes -/

theorem KeepsAllBut.setV (h : KeepsAllBut regs parts s t) (x : Nibble) (b : Byte) (named : x ∈ regs) :
    KeepsAllBut regs parts s (t.setV x b) := by
  obtain ⟨registers, same⟩ := h
  refine ⟨fun r other => ?_, fun p other => ?_⟩
  · have notX : r ≠ x := fun isX => other (isX.symm ▸ named)
    exact (t.getV_setV_ne b notX).trans (registers r other)
  · cases p <;> exact same _ other

theorem KeepsAllBut.setRngDraws (h : KeepsAllBut regs parts s t) (n : Nat) (allowed : .draws ∈ parts) :
    KeepsAllBut regs parts s (t.setRngDraws n) := by
  obtain ⟨registers, same⟩ := h
  refine ⟨registers, fun p other => ?_⟩
  cases p with
  | draws => exact absurd allowed other
  | _ => exact same _ other

theorem keepsAllBut_setV (s : State) (x : Nibble) (b : Byte) : KeepsAllBut [x] [] s (s.setV x b) :=
  (KeepsAllBut.refl s).setV x b (by simp)

theorem keepsAllBut_writeResultFlag (s : State) (x : Nibble) (result flag : Byte) :
    KeepsAllBut [x, vF] [] s (s.writeResultFlag x result flag) :=
  ((KeepsAllBut.refl s).setV x result (by simp)).setV vF flag (by simp)

theorem keepsAllBut_writeLogic (s : State) (x : Nibble) (result : Byte) :
    KeepsAllBut [x, vF] [] s (s.writeLogic x result) := by
  unfold State.writeLogic
  split
  · exact (KeepsAllBut.refl s).setV x result (by simp)
  · exact keepsAllBut_writeResultFlag s x result 0

/-! ## The two ways to write a result -/

/-- A result and its flag: the flag comes last, so a destination vF keeps it (R181). -/
theorem writeResultFlag_effect (s : State) (x : Nibble) (result flag : Byte) :
    (s.writeResultFlag x result flag).pc = s.pc ∧ KeepsAllBut [x, vF] [] s (s.writeResultFlag x result flag) ∧
    (x ≠ vF → (s.writeResultFlag x result flag).getV x = result) ∧
    (s.writeResultFlag x result flag).getV vF = flag := by
  refine ⟨rfl, keepsAllBut_writeResultFlag s x result flag, fun notFlag => ?_, ?_⟩
  · rw [State.writeResultFlag_getV, if_neg notFlag, if_pos rfl]
  · rw [State.writeResultFlag_getV, if_pos rfl]

/-- A logic result: without the quirk vF is cleared last, with it vF is a register like the others (R185). -/
theorem writeLogic_effect (s : State) (x : Nibble) (result : Byte) :
    (s.writeLogic x result).pc = s.pc ∧ KeepsAllBut [x, vF] [] s (s.writeLogic x result) ∧
    (x ≠ vF → (s.writeLogic x result).getV x = result) ∧
    (s.flags.quirks.binOps = false → (s.writeLogic x result).getV vF = 0) ∧
    (s.flags.quirks.binOps = true → (s.writeLogic x result).getV vF = if x = vF then result else s.getV vF) := by
  refine ⟨by rw [State.writeLogic_eq], keepsAllBut_writeLogic s x result, fun notFlag => ?_, fun clears => ?_,
    fun keeps => ?_⟩
  · simp [State.writeLogic_getV, notFlag]
  · simp [State.writeLogic_getV, clears]
  · simp [State.writeLogic_getV, keeps, eq_comm]

/-! ## Results and flags as numbers -/

theorem toNat_sub_byte (a b : Byte) : (a - b).toNat = (a.toNat + 256 - b.toNat) % 256 := by
  have bound := b.isLt
  rw [BitVec.toNat_sub]
  congr 1
  omega

theorem toNat_shiftLeft_one (a : Byte) : (a <<< 1).toNat = a.toNat * 2 % 256 := by
  rw [BitVec.toNat_shiftLeft, Nat.shiftLeft_eq]

theorem toNat_shiftRight_one (a : Byte) : (a >>> 1).toNat = a.toNat / 2 := by
  rw [BitVec.toNat_ushiftRight, Nat.shiftRight_eq_div_pow]

theorem shiftedOutRight_toNat (a : Byte) : (shiftedOutRight a).toNat = a.toNat % 2 := by
  rw [shiftedOutRight, BitVec.toNat_and]
  exact Nat.and_one_is_mod a.toNat

theorem shiftedOutLeft_toNat (a : Byte) : (shiftedOutLeft a).toNat = a.toNat / 128 := by
  rw [shiftedOutLeft, BitVec.toNat_ushiftRight, Nat.shiftRight_eq_div_pow]

/-! ## The instructions -/

/-- Settles O27: each listed instruction is the logic write of its result. -/
theorem logicOperations : Obligations.LogicOperations := by
  intro hires x y s p listed
  suffices writes : 0x8#4 ++ x ++ y ++ p.2.1 = encode p.1 ∧ p.1.wellFormed hires = true ∧
      exec p.1 s = .next (s.writeLogic x p.2.2) by
    obtain ⟨word, wf, executed⟩ := writes
    exact ⟨word ▸ decodeInvertsEncode hires p.1 wf, _, executed, writeLogic_effect s x p.2.2⟩
  simp only [List.mem_cons, List.not_mem_nil, or_false] at listed
  obtain rfl | rfl | rfl := listed <;> exact ⟨rfl, rfl, rfl⟩

/-- Settles O28: each listed instruction writes its result and then its flag, the carry or NOT borrow. -/
theorem addAndSubtract : Obligations.AddAndSubtract := by
  intro hires x y s p a b listed
  suffices writes : 0x8#4 ++ x ++ y ++ p.2.1 = encode p.1 ∧ p.1.wellFormed hires = true ∧
      ∃ result : Byte, exec p.1 s = .next (s.writeResultFlag x result (flagByte p.2.2.2)) ∧ result.toNat = p.2.2.1 by
    obtain ⟨word, wf, result, executed, value⟩ := writes
    obtain ⟨pc, frame, destination, flag⟩ := writeResultFlag_effect s x result (flagByte p.2.2.2)
    exact ⟨word ▸ decodeInvertsEncode hires p.1 wf, _, executed, pc, frame,
      fun notFlag => (congrArg BitVec.toNat (destination notFlag)).trans value, flag⟩
  simp only [List.mem_cons, List.not_mem_nil, or_false] at listed
  obtain rfl | rfl | rfl := listed
  · exact ⟨rfl, rfl, s.getV x + s.getV y, rfl, BitVec.toNat_add _ _⟩
  · exact ⟨rfl, rfl, s.getV x - s.getV y, rfl, toNat_sub_byte _ _⟩
  · exact ⟨rfl, rfl, s.getV y - s.getV x, rfl, toNat_sub_byte _ _⟩

/-- Settles O29: each listed instruction writes the shifted source and then the bit shifted out of it. -/
theorem shifts : Obligations.Shifts := by
  intro hires x y s p src listed
  suffices writes : 0x8#4 ++ x ++ y ++ p.2.1 = encode p.1 ∧ p.1.wellFormed hires = true ∧
      ∃ result out : Byte, exec p.1 s = .next (s.writeResultFlag x result out) ∧ result.toNat = p.2.2.1 ∧
        out.toNat = p.2.2.2 by
    obtain ⟨word, wf, result, out, executed, value, bit⟩ := writes
    obtain ⟨pc, frame, destination, flag⟩ := writeResultFlag_effect s x result out
    exact ⟨word ▸ decodeInvertsEncode hires p.1 wf, _, executed, pc, frame,
      fun notFlag => (congrArg BitVec.toNat (destination notFlag)).trans value, (congrArg BitVec.toNat flag).trans bit⟩
  simp only [List.mem_cons, List.not_mem_nil, or_false] at listed
  obtain rfl | rfl := listed
  · exact ⟨rfl, rfl, _, _, rfl, toNat_shiftRight_one (s.shiftSource x y), shiftedOutRight_toNat (s.shiftSource x y)⟩
  · exact ⟨rfl, rfl, _, _, rfl, toNat_shiftLeft_one (s.shiftSource x y), shiftedOutLeft_toNat (s.shiftSource x y)⟩

/-- Settles O26: each of the three writes its destination and no other register. -/
theorem registerLoads : Obligations.RegisterLoads := fun hires x y kk s =>
  ⟨decodeInvertsEncode hires (.ldImm x kk) rfl, decodeInvertsEncode hires (.addImm x kk) rfl,
    decodeInvertsEncode hires (.ldReg x y) rfl,
    ⟨_, rfl, s.getV_setV_same x kk, rfl, keepsAllBut_setV s x kk⟩,
    ⟨_, rfl, by rw [State.getV_setV_same, BitVec.toNat_add], rfl, keepsAllBut_setV s x _⟩,
    ⟨_, rfl, s.getV_setV_same x _, rfl, keepsAllBut_setV s x _⟩⟩

/-- Settles O30: whatever byte is drawn, the destination is that byte and the mask. -/
theorem randomUnderMask : Obligations.RandomUnderMask := by
  intro hires x kk s
  have destination : (s.drawTaken.setV x (s.nextRandom &&& kk)).getV x = s.nextRandom &&& kk :=
    State.getV_setV_same _ x _
  refine ⟨decodeInvertsEncode hires (.rnd x kk) rfl, _, rfl, rfl, rfl, destination, ?_, ?_,
    ((KeepsAllBut.refl s).setRngDraws _ (by simp)).setV x _ (by simp)⟩
  · rw [destination, BitVec.and_assoc, BitVec.and_not_self]
    exact BitVec.and_zero
  · rw [destination, BitVec.toNat_and]
    exact Nat.and_le_right

end Sys2Proof.Machine
end

section
/-! SUPPORT. Index register, BCD and DMA (spec/43_index_memory.md): addresses and digits as numbers, the frames of an index
write and a byte write, and what the shared register ranges and their index update leave; then the instructions, each by
the writes it makes. -/

namespace Sys2Proof.Machine

variable {s t : State} {regs : List Nibble} {parts : List Part} {p : Part} {stored : Nat → Prop}

/-! ## Addresses and digits as numbers (R212, R213, R217) -/

theorem State.ea_eq (s : State) (k : Nat) : s.ea k = (s.I.toNat + k) % 65536 := by
  rw [State.ea, BitVec.toNat_add, BitVec.toNat_ofNat, Nat.add_mod_mod]

theorem glyphAddr_toNat (b : Byte) : (glyphAddr b).toNat = (0x50 + 5 * (b.toNat % 16)) % 65536 := by
  have lowNibble : (b &&& 0x0F).toNat = b.toNat % 16 := Nat.and_two_pow_sub_one_eq_mod b.toNat 4
  rw [glyphAddr, BitVec.toNat_add, BitVec.toNat_mul, zextByte_toNat, lowNibble]
  exact Nat.add_mod_mod _ _ _

theorem bcdHundreds_toNat (b : Byte) : (bcdHundreds b).toNat = b.toNat / 100 := by
  have bound := b.isLt
  rw [bcdHundreds, BitVec.toNat_ofNat]
  omega

theorem bcdTens_toNat (b : Byte) : (bcdTens b).toNat = b.toNat / 10 % 10 := by
  rw [bcdTens, BitVec.toNat_ofNat]
  omega

theorem bcdUnits_toNat (b : Byte) : (bcdUnits b).toNat = b.toNat % 10 := by
  rw [bcdUnits, BitVec.toNat_ofNat]
  omega

/-! ## Frames of an index write and of a byte write -/

theorem Part.Same.setI (h : p.Same s t) (w : Word) (other : p ≠ .index) : p.Same s (t.setI w) := by
  cases p with
  | index => exact absurd rfl other
  | _ => exact h

theorem KeepsAllBut.setI (h : KeepsAllBut regs parts s t) (w : Word) (allowed : .index ∈ parts) :
    KeepsAllBut regs parts s (t.setI w) :=
  ⟨h.1, fun p other => (h.2 p other).setI w fun isIndex => other (isIndex ▸ allowed)⟩

theorem keepsAllBut_setI (s : State) (w : Word) : KeepsAllBut [] [.index] s (s.setI w) :=
  (KeepsAllBut.refl s).setI w (by simp)

@[simp] theorem State.writeByte_memlen (s : State) (a : Nat) (b : Byte) : (s.writeByte a b).memlen = s.memlen := rfl

theorem KeepsMemoryBut.refl (s : State) : KeepsMemoryBut stored s s := ⟨rfl, fun _ _ => rfl⟩

theorem KeepsMemoryBut.writeByte (h : KeepsMemoryBut stored s t) {a : Nat} (b : Byte) (allowed : stored a) :
    KeepsMemoryBut stored s (t.writeByte a b) := by
  obtain ⟨memlen, bytes⟩ := h
  refine ⟨memlen, fun x outside => ?_⟩
  have notWritten : x ≠ a := fun isA => outside (isA ▸ allowed)
  rw [State.readByte_writeByte, if_neg (mt And.left notWritten)]
  exact bytes x outside

/-! ## Register ranges and the index update (R214, R215) -/

@[simp] theorem State.storeRegs_pc (s : State) (n : Nat) : (s.storeRegs n).pc = s.pc := by rw [State.storeRegs_eq]; rfl

@[simp] theorem State.storeRegs_I (s : State) (n : Nat) : (s.storeRegs n).I = s.I := by rw [State.storeRegs_eq]; rfl

@[simp] theorem State.storeRegs_flags (s : State) (n : Nat) : (s.storeRegs n).flags = s.flags := by
  rw [State.storeRegs_eq]; rfl

theorem keepsAllBut_storeRegs (s : State) (n : Nat) : KeepsAllBut [] [.memory] s (s.storeRegs n) := by
  rw [State.storeRegs_eq]
  exact keepsAllBut_setMem s _

theorem keepsMemoryBut_storeRegs (s : State) (n : Nat) :
    KeepsMemoryBut (fun b => ∃ i, i < n ∧ b = s.ea i) s (s.storeRegs n) :=
  ⟨s.storeRegs_memlen n, fun _ outside => s.storeRegs_readByte_other fun i below isA => outside ⟨i, below, isA.symm⟩⟩

@[simp] theorem State.loadRegs_pc (s : State) (n : Nat) : (s.loadRegs n).pc = s.pc := by rw [State.loadRegs_eq]

@[simp] theorem State.loadRegs_I (s : State) (n : Nat) : (s.loadRegs n).I = s.I := by rw [State.loadRegs_eq]

@[simp] theorem State.loadRegs_flags (s : State) (n : Nat) : (s.loadRegs n).flags = s.flags := by
  rw [State.loadRegs_eq]

theorem same_loadRegs (p : Part) (s : State) (n : Nat) : p.Same s (s.loadRegs n) := by
  rw [State.loadRegs_eq]
  cases p with
  | memory => exact ⟨rfl, fun _ => rfl⟩
  | _ => rfl

@[simp] theorem State.dmaAdvance_pc (s : State) (x : Nibble) : (s.dmaAdvance x).pc = s.pc := by
  rw [State.dmaAdvance_eq]; rfl

@[simp] theorem State.dmaAdvance_getV (s : State) (x r : Nibble) : (s.dmaAdvance x).getV r = s.getV r := by
  rw [State.dmaAdvance_eq]; rfl

@[simp] theorem State.dmaAdvance_readByte (s : State) (x : Nibble) (a : Nat) :
    (s.dmaAdvance x).readByte a = s.readByte a := by
  rw [State.dmaAdvance_eq]; rfl

theorem State.dmaAdvance_index (s : State) (x : Nibble) :
    (s.dmaAdvance x).I.toNat =
      if s.flags.quirks.dmaInc then s.I.toNat else (s.I.toNat + x.toNat + 1) % 65536 := by
  have advanced : (s.I + BitVec.ofNat 16 (x.toNat + 1)).toNat = (s.I.toNat + x.toNat + 1) % 65536 :=
    s.ea_eq (x.toNat + 1)
  rw [State.dmaAdvance_eq, State.setI_I, apply_ite BitVec.toNat, advanced]

theorem Part.Same.dmaAdvance (h : p.Same s t) (x : Nibble) (other : p ≠ .index) : p.Same s (t.dmaAdvance x) := by
  rw [State.dmaAdvance_eq]
  exact h.setI _ other

theorem KeepsAllBut.dmaAdvance (h : KeepsAllBut regs parts s t) (x : Nibble) (allowed : .index ∈ parts) :
    KeepsAllBut regs parts s (t.dmaAdvance x) := by
  rw [State.dmaAdvance_eq]
  exact h.setI _ allowed

theorem KeepsMemoryBut.dmaAdvance (h : KeepsMemoryBut stored s t) (x : Nibble) :
    KeepsMemoryBut stored s (t.dmaAdvance x) := by
  rw [State.dmaAdvance_eq]
  exact h

/-! ## The instructions -/

/-- Settles O40: each of the three writes I and nothing else. -/
theorem indexRegisterLoads : Obligations.IndexRegisterLoads := fun hires x nnn s =>
  ⟨decodeInvertsEncode hires (.ldI nnn) rfl, decodeInvertsEncode hires (.addI x) rfl,
    decodeInvertsEncode hires (.ldF x) rfl,
    ⟨_, rfl, zextAddr_toNat nnn, rfl, keepsAllBut_setI s _⟩,
    ⟨_, rfl, by rw [State.setI_I, BitVec.toNat_add, zextByte_toNat], rfl, keepsAllBut_setI s _⟩,
    ⟨_, rfl, glyphAddr_toNat _, rfl, keepsAllBut_setI s _⟩⟩

/-- Settles O41: the three addresses are distinct, so no digit overwrites another. -/
theorem bcdStoresDigits : Obligations.BcdStoresDigits := by
  intro hires x s addr a
  have addr_eq (k : Nat) : addr k = s.ea k := (s.ea_eq k).symm
  simp only [addr_eq]
  refine ⟨decodeInvertsEncode hires (.ldB x) rfl, _, rfl, rfl, keepsAllBut_setMem s _,
    (((KeepsMemoryBut.refl s).writeByte _ (by simp)).writeByte _ (by simp)).writeByte _ (by simp),
    fun first => ?_, fun second => ?_, fun third => ?_⟩
  · have written : s.ea 0 + 1 ≤ s.memlen := first
    simp [State.readByte_writeByte, State.ea_inj, written, bcdHundreds_toNat, a]
  · have written : s.ea 1 + 1 ≤ s.memlen := second
    simp [State.readByte_writeByte, State.ea_inj, written, bcdTens_toNat, a]
  · have written : s.ea 2 + 1 ≤ s.memlen := third
    simp [State.readByte_writeByte, written, bcdUnits_toNat, a]

/-- Settles O42: the instruction stores the first `x + 1` registers and then moves I alone. -/
theorem storeRegisterRange : Obligations.StoreRegisterRange := by
  intro hires x s addr
  have addr_eq (k : Nat) : addr k = s.ea k := (s.ea_eq k).symm
  simp only [addr_eq, ← Nat.lt_succ_iff]
  refine ⟨decodeInvertsEncode hires (.ldMemI x) rfl, _, rfl, by simp,
    ((keepsAllBut_storeRegs s _).mono (by simp)).dmaAdvance x (by simp),
    (keepsMemoryBut_storeRegs s _).dmaAdvance x, fun i upToX inStorage => ?_, ?_⟩
  · rw [State.dmaAdvance_readByte]
    exact s.storeRegs_readByte_stored x.isLt upToX inStorage
  · rw [State.dmaAdvance_index, State.storeRegs_flags, State.storeRegs_I]

/-- The registers Fx65 leaves (R215). -/
theorem getV_loadRegs_dmaAdvance (s : State) (x r : Nibble) :
    ((s.loadRegs (x.toNat + 1)).dmaAdvance x).getV r =
      if r.toNat ≤ x.toNat then s.readByte (s.ea r.toNat) else s.getV r := by
  simp only [State.dmaAdvance_getV, s.loadRegs_getV _ x.isLt, Nat.lt_succ_iff]

/-- Settles O43: the instruction loads the first `x + 1` registers and then moves I alone. -/
theorem loadRegisterRange : Obligations.LoadRegisterRange := by
  intro hires x s
  refine ⟨decodeInvertsEncode hires (.ldRegI x) rfl, _, rfl, by simp, fun r => ?_,
    fun p other => (same_loadRegs p s _).dmaAdvance x other, ?_⟩
  · rw [getV_loadRegs_dmaAdvance, State.ea_eq]
  · rw [State.dmaAdvance_index, State.loadRegs_flags, State.loadRegs_I]

/-- Settles O44: the load reads the bytes of the store at the same addresses, since I is what it was. -/
theorem dmaRoundTrip : Obligations.DmaRoundTrip := by
  intro x s t between executed inStorage
  cases executed
  refine ⟨_, rfl, fun r upToX => ?_⟩
  have stored := s.storeRegs_readByte_stored x.isLt (Nat.lt_succ_of_le upToX) (s.ea_eq _ ▸ inStorage r.toNat upToX)
  rw [getV_loadRegs_dmaAdvance, if_pos upToX]
  calc ((s.storeRegs (x.toNat + 1)).dmaAdvance x).readByte (s.ea r.toNat)
      = s.getV (BitVec.ofNat 4 r.toNat) := by rw [State.dmaAdvance_readByte, stored]
    _ = s.getV r := by rw [BitVec.ofNat_toNat, BitVec.setWidth_eq]

end Sys2Proof.Machine
end

section
/-! SUPPORT. The Screen region as a whole (spec/44_display.md R232, R236, R237): where it is, and the instructions that clear
it and switch it, by the laws of the region operations. -/

namespace Sys2Proof.Machine

/-! ## Where the screen is (R44) -/

theorem screen_size (s : State) : s.screenW * s.screenH / 8 = s.screenH * (s.screenW / 8) := by
  rw [Nat.mul_comm, Nat.mul_div_assoc _ (screenW_dvd s)]

theorem screenRange_eq (s : State) :
    screenRange s.flags.drawMode = ⟨0xF00, 0xF00 + s.screenW * s.screenH / 8⟩ := by
  unfold State.screenW State.screenH
  cases s.flags.drawMode <;> rfl

/-! ## Clearing -/

theorem keepsAllBut_clearRegion (s : State) (tag : RegionTag) : KeepsAllBut [] [.memory] s (s.clearRegion tag) := by
  rw [State.clearRegion_eq]
  exact keepsAllBut_setMem s _

theorem keepsMemoryBut_clearRegion (s : State) (tag : RegionTag) :
    KeepsMemoryBut (fun a => ∃ r, s.regions.get tag = some r ∧ r.start ≤ a ∧ a < r.stop) s (s.clearRegion tag) := by
  refine ⟨by rw [State.clearRegion_eq]; rfl, fun a outside => ?_⟩
  cases declared : s.regions.get tag with
  | none => rw [s.clearRegion_undeclared declared]
  | some r => rw [s.clearRegion_readByte declared, if_neg fun inside => outside ⟨r, declared, inside⟩]

/-- Settles O45: CLS is the clearing of the Screen region. -/
theorem clearScreen : Obligations.ClearScreen := by
  intro hires s
  have zero (r : ByteRange) (a : Nat) (declared : s.regions.screen = some r) (first : r.start ≤ a) (last : a < r.stop) :
      (s.clearRegion .screen).readByte a = 0 := by
    rw [s.clearRegion_readByte (tag := .screen) declared, if_pos ⟨first, last⟩]
  refine ⟨decodeInvertsEncode hires .cls rfl, _, rfl, by rw [State.clearRegion_eq]; rfl, keepsAllBut_clearRegion s _,
    keepsMemoryBut_clearRegion s .screen, zero, fun screen a first last => ?_⟩
  exact zero _ a (screen.trans (congrArg some (screenRange_eq s))) first last

/-! ## Switching the resolution -/

theorem keepsAllBut_switchResolution (s : State) (hires : Bool) :
    KeepsAllBut [] [.memory, .regions, .flags] s (s.switchResolution hires) := by
  rw [State.switchResolution_eq]
  refine ⟨fun _ _ => rfl, fun p other => ?_⟩
  cases p with
  | memory | regions | flags => exact absurd (by simp) other
  | _ => rfl

/-- Everything a resolution switch does, given the end of the new Screen range (R236, R237). -/
theorem switchResolution_effect (s : State) {hires : Bool} {stop : Nat} (range : screenRange hires = ⟨0xF00, stop⟩) :
    let t := s.switchResolution hires
    t.pc = s.pc ∧ t.flags = { s.flags with drawMode := hires } ∧
      t.regions = { s.regions with screen := some ⟨0xF00, stop⟩ } ∧ t.memlen = max s.memlen stop ∧
      (∀ a, t.readByte a = if 0xF00 ≤ a ∧ a < stop then 0 else s.readByte a) ∧
      KeepsAllBut [] [.memory, .regions, .flags] s t := by
  have form := s.switchResolution_eq hires
  have bytes := s.switchResolution_readByte hires
  rw [range] at form bytes
  exact ⟨by rw [form]; rfl, s.switchResolution_flags hires, by rw [form]; rfl, by rw [form]; rfl, bytes,
    keepsAllBut_switchResolution s hires⟩

/-- Settles O46: LOW and HIGH are the switch to the two Screen ranges. -/
theorem resolutionSwitch : Obligations.ResolutionSwitch := by
  intro s p listed
  simp only [List.mem_cons, List.not_mem_nil, or_false] at listed
  obtain rfl | rfl := listed
  · exact ⟨rfl, rfl, _, rfl, switchResolution_effect s rfl⟩
  · exact ⟨rfl, rfl, _, rfl, switchResolution_effect s rfl⟩

end Sys2Proof.Machine
end

section
/-! SUPPORT. The draw (spec/44_display.md R230, R231, R233-R235) as a list of pixels, inverted one after the other. The list
holds no pixel twice, so a pixel is inverted exactly when it is listed, and a collision is a listed pixel that was lit before
the draw. -/

namespace Sys2Proof.Machine

variable {s t : State} {x y n : Nibble} {px py : Nat}

/-! ## Blitting a list of pixels (R231, R233) -/

section
variable {len w : Nat} {l : List (Nat × Nat)} {p q : Nat × Nat}

/-- Draw one pixel: note a collision, then flip. -/
def Memory.blit (len w : Nat) (acc : Bool × Memory) (q : Nat × Nat) : Bool × Memory :=
  (acc.1 || Memory.pixelAt len w acc.2 q.1 q.2, Memory.flipPixel len w acc.2 q.1 q.2)

/-- A flip inverts its own pixel, when its byte is in storage, and no other. -/
theorem pixelAt_flipPixel_eq (m : Memory) (hw : 8 ∣ w) (hp : p.1 < w) (hq : q.1 < w) :
    Memory.pixelAt len w (Memory.flipPixel len w m q.1 q.2) p.1 p.2 =
      (Memory.pixelAt len w m p.1 p.2 ^^ decide (p = q ∧ pixelByte w q.1 q.2 < len)) := by
  by_cases stored : pixelByte w q.1 q.2 < len
  · rw [Memory.pixelAt_flipPixel len w m _ _ _ _ hw hp hq stored]
    simp [stored, Prod.ext_iff]
  · simp [Memory.flipPixel, Memory.write1, stored]

/-- Blitting a list without repetition inverts exactly the listed pixels in storage. -/
theorem pixelAt_blit (hw : 8 ∣ w) (inside : ∀ q ∈ l, q.1 < w) (nodup : l.Nodup) (hp : p.1 < w) (acc : Bool × Memory) :
    Memory.pixelAt len w (l.foldl (Memory.blit len w) acc).2 p.1 p.2 =
      (Memory.pixelAt len w acc.2 p.1 p.2 ^^ decide (p ∈ l ∧ pixelByte w p.1 p.2 < len)) := by
  induction l generalizing acc with
  | nil => simp
  | cons q l ih =>
    obtain ⟨hq, inside⟩ := List.forall_mem_cons.mp inside
    obtain ⟨fresh, nodup⟩ := List.nodup_cons.mp nodup
    rw [List.foldl_cons, ih inside nodup, Memory.blit, pixelAt_flipPixel_eq acc.2 hw hp hq, Bool.xor_assoc]
    by_cases same : p = q
    · simp [same, fresh]
    · simp [same]

/-- Blitting a list without repetition collides exactly when a listed pixel was lit before. -/
theorem blit_hit (hw : 8 ∣ w) (inside : ∀ q ∈ l, q.1 < w) (nodup : l.Nodup) (acc : Bool × Memory) :
    (l.foldl (Memory.blit len w) acc).1 = true ↔
      acc.1 = true ∨ ∃ q ∈ l, Memory.pixelAt len w acc.2 q.1 q.2 = true := by
  induction l generalizing acc with
  | nil => simp
  | cons q l ih =>
    obtain ⟨hq, inside⟩ := List.forall_mem_cons.mp inside
    obtain ⟨fresh, nodup⟩ := List.nodup_cons.mp nodup
    have unflipped : ∀ p ∈ l, Memory.pixelAt len w (Memory.flipPixel len w acc.2 q.1 q.2) p.1 p.2 =
        Memory.pixelAt len w acc.2 p.1 p.2 := fun p listed => by
      have other : p ≠ q := fun same => fresh (same ▸ listed)
      rw [pixelAt_flipPixel_eq acc.2 hw (inside p listed) hq]
      simp [other]
    have later : (∃ p ∈ l, Memory.pixelAt len w (Memory.flipPixel len w acc.2 q.1 q.2) p.1 p.2 = true) ↔
        ∃ p ∈ l, Memory.pixelAt len w acc.2 p.1 p.2 = true :=
      exists_congr fun p => and_congr_right fun listed => by rw [unflipped p listed]
    rw [List.foldl_cons, ih inside nodup, Memory.blit, later, Bool.or_eq_true, List.exists_mem_cons_iff, or_assoc]

/-- Blitting changes no byte but those of the listed pixels. -/
theorem read1_blit {a : Nat} (other : ∀ q ∈ l, a ≠ pixelByte w q.1 q.2) (acc : Bool × Memory) :
    Memory.read1 len (l.foldl (Memory.blit len w) acc).2 a = Memory.read1 len acc.2 a := by
  induction l generalizing acc with
  | nil => rfl
  | cons q l ih =>
    obtain ⟨notFirst, other⟩ := List.forall_mem_cons.mp other
    rw [List.foldl_cons, ih other, Memory.blit, Memory.read1_flipPixel_ne _ _ _ _ _ _ notFirst]
end

/-! ## The pixels a sprite touches, in the order it draws them -/

/-- Where the sprite's pixel in row `rc.1`, column `rc.2` lands, when it is set and not clipped. -/
def State.landing (s : State) (n : Nibble) (x0 y0 : Nat) (rc : Nat × Nat) : Option (Nat × Nat) :=
  if s.spriteBit n rc.1 rc.2 then s.placePixel (x0 + rc.2) (y0 + rc.1) else none

/-- The pixels of row `r`, of its first `count` columns. -/
def State.rowPixels (s : State) (n : Nibble) (x0 y0 r count : Nat) : List (Nat × Nat) :=
  (List.range count).filterMap fun c => s.landing n x0 y0 (r, c)

/-- The pixels of the first `count` rows. -/
def State.rowsPixels (s : State) (n : Nibble) (x0 y0 count : Nat) : List (Nat × Nat) :=
  (List.range count).flatMap fun r => s.rowPixels n x0 y0 r (s.spriteWidth n)

/-- The pixels of the whole sprite. -/
def State.touchedPixels (s : State) (x y n : Nibble) : List (Nat × Nat) :=
  s.rowsPixels n (s.originX x) (s.originY y) (s.spriteRows n)

/-- Drawing one pixel of the sprite is blitting where it lands, if it does. -/
theorem drawCell_eq (s : State) (n : Nibble) (x0 y0 r c : Nat) (acc : Bool × Memory) :
    (if s.spriteBit n r c then s.drawPixel (x0 + c) (y0 + r) acc else acc) =
      (s.landing n x0 y0 (r, c)).elim acc (Memory.blit s.memlen s.screenW acc) := by
  unfold State.landing State.drawPixel
  split
  · cases s.placePixel (x0 + c) (y0 + r) <;> rfl
  · rfl

theorem drawRow_eq (s : State) (n : Nibble) (x0 y0 r count : Nat) (acc : Bool × Memory) :
    s.drawRow n x0 y0 r count acc = (s.rowPixels n x0 y0 r count).foldl (Memory.blit s.memlen s.screenW) acc := by
  induction count with
  | zero => rfl
  | succ c ih =>
    rw [State.drawRow, drawCell_eq, ih, State.rowPixels, State.rowPixels, List.range_succ, List.filterMap_append,
      List.foldl_append]
    cases lands : s.landing n x0 y0 (r, c) <;> simp [lands]

theorem drawSprite_eq (s : State) (x y n : Nibble) :
    s.drawSprite x y n = (s.touchedPixels x y n).foldl (Memory.blit s.memlen s.screenW) (false, s.mem) := by
  have rows (count : Nat) : s.drawRows n (s.originX x) (s.originY y) count (false, s.mem) =
      (s.rowsPixels n (s.originX x) (s.originY y) count).foldl (Memory.blit s.memlen s.screenW) (false, s.mem) := by
    induction count with
    | zero => rfl
    | succ r ih =>
      rw [State.drawRows, ih, drawRow_eq, State.rowsPixels, State.rowsPixels, List.range_succ, List.flatMap_append,
        List.foldl_append, List.flatMap_singleton]
  exact rows _

/-! ## Each pixel once, and which they are -/

theorem sixteen_le_screenW (s : State) : 16 ≤ s.screenW := by
  unfold State.screenW
  cases s.flags.drawMode <;> decide

theorem sixteen_le_screenH (s : State) : 16 ≤ s.screenH := by
  unfold State.screenH
  cases s.flags.drawMode <;> decide

theorem spriteRows_le (s : State) (n : Nibble) : s.spriteRows n ≤ 16 := by
  unfold State.spriteRows
  split
  · exact le_rfl
  · exact n.isLt.le

theorem spriteWidth_le (s : State) (n : Nibble) : s.spriteWidth n ≤ 16 := by
  unfold State.spriteWidth
  split <;> decide

/-- A pixel lands, when it does, where it is modulo the screen's size (R235). -/
theorem placePixel_eq_some {q : Nat × Nat} :
    s.placePixel px py = some q ↔
      q = (px % s.screenW, py % s.screenH) ∧ (s.flags.quirks.screenWrap = true ∨ px < s.screenW ∧ py < s.screenH) := by
  unfold State.placePixel
  by_cases off : s.screenW ≤ px ∨ s.screenH ≤ py
  · have notOn : ¬ (px < s.screenW ∧ py < s.screenH) := by omega
    cases wrap : s.flags.quirks.screenWrap <;> simp [off, notOn, eq_comm]
  · obtain ⟨hx, hy⟩ := not_or.mp off
    rw [not_le] at hx hy
    rw [if_neg off, Nat.mod_eq_of_lt hx, Nat.mod_eq_of_lt hy, Option.some_inj, eq_comm]
    exact (and_iff_left (.inr ⟨hx, hy⟩)).symm

theorem landing_eq_some {x0 y0 : Nat} {rc q : Nat × Nat} :
    s.landing n x0 y0 rc = some q ↔
      s.spriteBit n rc.1 rc.2 = true ∧ q = ((x0 + rc.2) % s.screenW, (y0 + rc.1) % s.screenH) ∧
        (s.flags.quirks.screenWrap = true ∨ x0 + rc.2 < s.screenW ∧ y0 + rc.1 < s.screenH) := by
  unfold State.landing
  cases s.spriteBit n rc.1 rc.2 <;> simp [placePixel_eq_some]

theorem mem_touchedPixels_iff_landing {q : Nat × Nat} :
    q ∈ s.touchedPixels x y n ↔ ∃ r c, r < s.spriteRows n ∧ c < s.spriteWidth n ∧
      s.landing n (s.originX x) (s.originY y) (r, c) = some q := by
  simp only [State.touchedPixels, State.rowsPixels, State.rowPixels, List.mem_flatMap, List.mem_filterMap, List.mem_range]
  exact ⟨fun ⟨r, hr, c, hc, lands⟩ => ⟨r, c, hr, hc, lands⟩, fun ⟨r, c, hr, hc, lands⟩ => ⟨r, hr, c, hc, lands⟩⟩

theorem touchedPixels_inside {q : Nat × Nat} (listed : q ∈ s.touchedPixels x y n) : q.1 < s.screenW ∧ q.2 < s.screenH := by
  obtain ⟨r, c, -, -, lands⟩ := mem_touchedPixels_iff_landing.mp listed
  obtain ⟨-, rfl, -⟩ := landing_eq_some.mp lands
  have width := sixteen_le_screenW s
  have height := sixteen_le_screenH s
  exact ⟨Nat.mod_lt _ (by omega), Nat.mod_lt _ (by omega)⟩

/-- Offsets smaller than the modulus that agree modulo it from one origin are equal. -/
theorem offset_inj {origin i j size : Nat} (hi : i < size) (hj : j < size)
    (agree : (origin + i) % size = (origin + j) % size) : i = j :=
  (Nat.ModEq.add_left_cancel' origin agree).eq_of_lt_of_lt hi hj

/-- Two pixels of a sprite land at one place only when they are the same pixel of it: no sprite is larger than the screen. -/
theorem landing_inj {x0 y0 r c r' c' : Nat} {q : Nat × Nat} (hr : r < 16) (hc : c < 16) (hr' : r' < 16) (hc' : c' < 16)
    (lands : s.landing n x0 y0 (r, c) = some q) (lands' : s.landing n x0 y0 (r', c') = some q) : r = r' ∧ c = c' := by
  obtain ⟨-, at_q, -⟩ := landing_eq_some.mp lands
  obtain ⟨-, at_q', -⟩ := landing_eq_some.mp lands'
  obtain ⟨column, row⟩ := Prod.mk.inj (at_q.symm.trans at_q')
  have width := sixteen_le_screenW s
  have height := sixteen_le_screenH s
  exact ⟨offset_inj (by omega) (by omega) row, offset_inj (by omega) (by omega) column⟩

theorem touchedPixels_nodup (s : State) (x y n : Nibble) : (s.touchedPixels x y n).Nodup := by
  have rows := spriteRows_le s n
  have width := spriteWidth_le s n
  refine List.nodup_flatMap.mpr ⟨fun r hr => ?_, ?_⟩
  · rw [List.mem_range] at hr
    refine List.pairwise_filterMap.mpr (List.nodup_range.imp_of_mem fun {c c'} hc hc' other q lands q' lands' same => ?_)
    rw [List.mem_range] at hc hc'
    subst same
    exact other (landing_inj (by omega) (by omega) (by omega) (by omega) lands lands').2
  · refine List.nodup_range.imp_of_mem fun {r r'} hr hr' other q inRow inRow' => ?_
    rw [List.mem_range] at hr hr'
    obtain ⟨c, hc, lands⟩ := List.mem_filterMap.mp inRow
    obtain ⟨c', hc', lands'⟩ := List.mem_filterMap.mp inRow'
    rw [List.mem_range] at hc hc'
    exact other (landing_inj (by omega) (by omega) (by omega) (by omega) lands lands').1

theorem wideSprite_eq_true : s.wideSprite n = true ↔ n = 0 ∧ s.flags.drawMode = true := by
  simp [State.wideSprite]

theorem spriteSize_eq (s : State) (n : Nibble) : spriteSize s n = (s.spriteRows n, s.spriteWidth n) := by
  unfold spriteSize State.spriteRows State.spriteWidth
  simp only [wideSprite_eq_true]
  split <;> rfl

/-- The bit of the row that holds a sprite's pixel is the pixel by the bytes at `I` (R234). -/
theorem spriteBit_eq_spritePixel {r c : Nat} (hc : c < s.spriteWidth n) : s.spriteBit n r c = spritePixel s n r c := by
  unfold State.spriteWidth at hc
  unfold State.spriteBit spritePixel State.spriteRow State.spriteWidth
  simp only [wideSprite_eq_true] at hc ⊢
  split
  · rename_i wide
    rw [if_pos wide] at hc
    rw [BitVec.getLsbD_append]
    by_cases left : c < 8
    · rw [if_pos left, if_neg (by omega)]
      exact congrArg _ (by omega)
    · rw [if_neg left, if_pos (by omega)]
  · rw [BitVec.getLsbD_setWidth, decide_eq_true (by omega : 8 - 1 - c < 16)]
    rfl

/-- The pixels of the list are those the sprite touches. -/
theorem mem_touchedPixels (hx : px < s.screenW) (hy : py < s.screenH) :
    (px, py) ∈ s.touchedPixels x y n ↔ spriteTouches s x y n px py := by
  rw [mem_touchedPixels_iff_landing]
  unfold spriteTouches
  rw [spriteSize_eq]
  refine exists_congr fun r => exists_congr fun c => and_congr_right fun _ => and_congr_right fun hc => ?_
  rw [landing_eq_some, spriteBit_eq_spritePixel hc, Prod.mk.injEq]
  refine and_congr_right fun _ => ?_
  cases wrap : s.flags.quirks.screenWrap
  · simp only [Bool.false_eq_true, if_false, false_or]
    constructor
    · rintro ⟨⟨column, row⟩, onX, onY⟩
      exact ⟨column.trans (Nat.mod_eq_of_lt onX), row.trans (Nat.mod_eq_of_lt onY)⟩
    · rintro ⟨column, row⟩
      have onX : s.originX x + c < s.screenW := column ▸ hx
      have onY : s.originY y + r < s.screenH := row ▸ hy
      exact ⟨⟨column.trans (Nat.mod_eq_of_lt onX).symm, row.trans (Nat.mod_eq_of_lt onY).symm⟩, onX, onY⟩
  · simp [State.originX, State.originY]

/-! ## The draw (R233) -/

theorem KeepsAllBut.setMem {regs : List Nibble} {parts : List Part} (h : KeepsAllBut regs parts s t) (m : Memory)
    (allowed : .memory ∈ parts) : KeepsAllBut regs parts s (t.setMem m) := by
  obtain ⟨registers, same⟩ := h
  refine ⟨registers, fun p other => ?_⟩
  cases p with
  | memory => exact absurd allowed other
  | _ => exact same _ other

/-- The state after `Dxyn`. -/
def State.afterDraw (s : State) (x y n : Nibble) : State :=
  ((s.setMem (s.drawSprite x y n).2).setV vF (flagByte (s.drawSprite x y n).1)).setDrawWait
    (s.flags.drawWait || !s.flags.quirks.drawWait)

theorem exec_drw (s : State) (x y n : Nibble) : exec (.drw x y n) s = .next (s.afterDraw x y n) := by
  change execDrw x y n s = _
  unfold execDrw State.afterDraw
  cases s.flags.quirks.drawWait
  · simp
  · simp only [Bool.not_true, Bool.or_false]
    rfl

theorem keepsAllBut_afterDraw (s : State) (x y n : Nibble) :
    KeepsAllBut [vF] [.memory, .flags] s (s.afterDraw x y n) :=
  (((KeepsAllBut.refl s).setMem _ (by simp)).setV vF _ (by simp)).setFlags _ (by simp)

theorem pixelByte_inside (hx : px < s.screenW) (hy : py < s.screenH) :
    0xF00 ≤ pixelByte s.screenW px py ∧ pixelByte s.screenW px py < 0xF00 + s.screenW * s.screenH / 8 := by
  have inside := pixel_offset_lt s hx hy
  rw [screenRange_length, ← screen_size] at inside
  unfold pixelByte Config.screenBase
  omega

theorem keepsMemoryBut_afterDraw (s : State) (x y n : Nibble) :
    KeepsMemoryBut (fun a => 0xF00 ≤ a ∧ a < 0xF00 + s.screenW * s.screenH / 8) s (s.afterDraw x y n) := by
  refine ⟨rfl, fun a outside => ?_⟩
  change Memory.read1 s.memlen (s.drawSprite x y n).2 a = _
  rw [drawSprite_eq]
  refine read1_blit (fun q listed isByte => outside ?_) _
  obtain ⟨hx, hy⟩ := touchedPixels_inside listed
  exact isByte ▸ pixelByte_inside hx hy

/-- A draw inverts a screen pixel exactly when the sprite touches it and its byte is in storage. -/
theorem afterDraw_screenGet (hx : px < s.screenW) :
    (s.afterDraw x y n).screenGet px py =
      (s.screenGet px py ^^ decide ((px, py) ∈ s.touchedPixels x y n ∧ pixelByte s.screenW px py < s.memlen)) := by
  change Memory.pixelAt s.memlen s.screenW (s.drawSprite x y n).2 px py = _
  rw [drawSprite_eq]
  exact pixelAt_blit (p := (px, py)) (screenW_dvd s) (fun q listed => (touchedPixels_inside listed).1)
    (touchedPixels_nodup s x y n) hx (false, s.mem)

theorem afterDraw_screenGet_stored (hx : px < s.screenW) (stored : pixelByte s.screenW px py < s.memlen) :
    (s.afterDraw x y n).screenGet px py = (s.screenGet px py ^^ decide ((px, py) ∈ s.touchedPixels x y n)) := by
  simp [afterDraw_screenGet hx, stored]

/-- Does the sprite touch a pixel that is lit? -/
def SpriteHits (s : State) (x y n : Nibble) : Prop :=
  ∃ px py, px < s.screenW ∧ py < s.screenH ∧ spriteTouches s x y n px py ∧ s.screenGet px py = true

theorem drawSprite_hit : (s.drawSprite x y n).1 = true ↔ SpriteHits s x y n := by
  rw [drawSprite_eq, blit_hit (screenW_dvd s) (fun q listed => (touchedPixels_inside listed).1) (touchedPixels_nodup s x y n)]
  constructor
  · rintro (before | ⟨q, listed, lit⟩)
    · exact absurd before Bool.false_ne_true
    · obtain ⟨hx, hy⟩ := touchedPixels_inside listed
      exact ⟨q.1, q.2, hx, hy, (mem_touchedPixels hx hy).mp listed, lit⟩
  · rintro ⟨px, py, hx, hy, touched, lit⟩
    exact .inr ⟨(px, py), (mem_touchedPixels hx hy).mpr touched, lit⟩

theorem afterDraw_vF (s : State) (x y n : Nibble) :
    (s.afterDraw x y n).getV vF = flagByte (s.drawSprite x y n).1 := State.getV_setV_same _ vF _

theorem afterDraw_vF_hit (hit : SpriteHits s x y n) : (s.afterDraw x y n).getV vF = 1 := by
  rw [afterDraw_vF, drawSprite_hit.mpr hit]
  rfl

theorem afterDraw_vF_miss (miss : ¬ SpriteHits s x y n) : (s.afterDraw x y n).getV vF = 0 := by
  rw [afterDraw_vF, Bool.eq_false_iff.mpr (mt drawSprite_hit.mp miss)]
  rfl

theorem afterDraw_vF_iff : (s.afterDraw x y n).getV vF = 1 ↔ SpriteHits s x y n := by
  refine ⟨fun one => ?_, afterDraw_vF_hit⟩
  by_contra miss
  exact absurd ((afterDraw_vF_miss miss).symm.trans one) (by decide)

/-- `n = 0` in lo-res is a sprite of no rows (D18). -/
theorem drawSprite_lores_zero (lores : s.flags.drawMode = false) : s.drawSprite x y 0 = (false, s.mem) := by
  have none : s.spriteRows 0 = 0 := by simp [State.spriteRows, State.wideSprite, lores]
  rw [State.drawSprite, none]
  rfl

/-- Settles O47: the frame of the draw. -/
theorem drawFrame : Obligations.DrawFrame := by
  intro x y n s
  refine ⟨_, exec_drw s x y n, rfl, keepsAllBut_afterDraw s x y n, keepsMemoryBut_afterDraw s x y n, ?_, rfl,
    fun zero lores => ?_⟩
  · by_cases hit : SpriteHits s x y n
    · exact .inr (afterDraw_vF_hit hit)
    · exact .inl (afterDraw_vF_miss hit)
  · have nothing := drawSprite_lores_zero (x := x) (y := y) lores
    subst zero
    refine ⟨congrArg Prod.snd nothing, ?_⟩
    rw [afterDraw_vF, nothing]
    rfl

/-- Settles O48: a pixel is inverted exactly when it is among the touched ones, each of which the draw flips once. -/
theorem drawXorsSprite : Obligations.DrawXorsSprite := by
  intro hires x y n s
  refine ⟨decodeInvertsEncode hires (.drw x y n) rfl, _, exec_drw s x y n, rfl, fun px py hx hy => ?_, afterDraw_vF_hit,
    afterDraw_vF_miss, rfl, keepsMemoryBut_afterDraw s x y n, keepsAllBut_afterDraw s x y n⟩
  rw [afterDraw_screenGet hx, ← mem_touchedPixels hx hy]
  exact ⟨fun inverted => by rw [decide_eq_true inverted, Bool.xor_true],
    fun kept => by rw [decide_eq_false kept, Bool.xor_false]⟩

/-! ## Drawing twice -/

/-- What a sprite touches depends on the screen's mode, the wrap quirk, the two coordinates and the sprite's bytes only. -/
theorem spriteTouches_congr (mode : t.flags.drawMode = s.flags.drawMode)
    (wrap : t.flags.quirks.screenWrap = s.flags.quirks.screenWrap) (left : t.getV x = s.getV x) (top : t.getV y = s.getV y)
    (bytes : ∀ k, k < 32 → t.readByte (t.ea k) = s.readByte (s.ea k)) :
    spriteTouches t x y n px py ↔ spriteTouches s x y n px py := by
  have width : t.screenW = s.screenW := by rw [State.screenW, mode, ← State.screenW]
  have height : t.screenH = s.screenH := by rw [State.screenH, mode, ← State.screenH]
  have size : spriteSize t n = spriteSize s n := by rw [spriteSize, mode, ← spriteSize]
  unfold spriteTouches
  rw [width, height, size, wrap, left, top]
  refine exists_congr fun r => exists_congr fun c => and_congr_right fun below => and_congr_right fun _ => and_congr_left' ?_
  have row : r < 16 := by
    rw [spriteSize_eq] at below
    exact below.trans_le (spriteRows_le s n)
  unfold spritePixel
  rw [mode, bytes (2 * r) (by omega), bytes (2 * r + 1) (by omega), bytes r (by omega)]

/-- A draw that changes neither the coordinates nor the sprite leaves what the sprite touches. -/
theorem spriteTouches_afterDraw (notX : x ≠ vF) (notY : y ≠ vF)
    (offScreen : ∀ k, k < 32 → s.ea k < 0xF00 ∨ 0xF00 + s.screenW * s.screenH / 8 ≤ s.ea k) :
    spriteTouches (s.afterDraw x y n) x y n px py ↔ spriteTouches s x y n px py := by
  obtain ⟨registers, -⟩ := keepsAllBut_afterDraw s x y n
  obtain ⟨-, bytes⟩ := keepsMemoryBut_afterDraw s x y n
  refine spriteTouches_congr rfl rfl (registers x (by simpa using notX)) (registers y (by simpa using notY)) fun k below =>
    bytes (s.ea k) fun ⟨first, last⟩ => ?_
  exact (offScreen k below).elim first.not_gt last.not_ge

/-- Settles O49: both draws touch the same pixels, so the second inverts again what the first did, and the lit pixels it
meets are those that were not lit before the first. -/
theorem drawTwiceRestoresScreen : Obligations.DrawTwiceRestoresScreen := by
  intro x y n s t u screen covered notX notY offScreen first second
  rw [exec_drw] at first second
  cases first
  cases second
  have stored {px py : Nat} (hx : px < s.screenW) (hy : py < s.screenH) : pixelByte s.screenW px py < s.memlen := by
    have inStorage := covered .screen _ screen
    rw [screenRange_eq] at inStorage
    exact (pixelByte_inside hx hy).2.trans_le inStorage
  have same {px py : Nat} : spriteTouches (s.afterDraw x y n) x y n px py ↔ spriteTouches s x y n px py :=
    spriteTouches_afterDraw notX notY offScreen
  have once {px py : Nat} (hx : px < s.screenW) (hy : py < s.screenH) :
      (s.afterDraw x y n).screenGet px py = (s.screenGet px py ^^ decide ((px, py) ∈ s.touchedPixels x y n)) :=
    afterDraw_screenGet_stored hx (stored hx hy)
  refine ⟨fun px py hx hy => ?_, ?_⟩
  · have again : (px, py) ∈ (s.afterDraw x y n).touchedPixels x y n ↔ (px, py) ∈ s.touchedPixels x y n := by
      rw [mem_touchedPixels (s := s.afterDraw x y n) hx hy, same, mem_touchedPixels hx hy]
    rw [afterDraw_screenGet_stored (s := s.afterDraw x y n) hx (stored hx hy), once hx hy, decide_eq_decide.mpr again,
      Bool.xor_assoc, Bool.xor_self, Bool.xor_false]
  · rw [afterDraw_vF_iff]
    refine exists_congr fun px => exists_congr fun py => and_congr_right fun hx => and_congr_right fun hy => ?_
    rw [same]
    refine and_congr_right fun touched => ?_
    rw [once hx hy, decide_eq_true ((mem_touchedPixels (s := s) hx hy).mpr touched), Bool.xor_true, Bool.not_eq_true']

end Sys2Proof.Machine
end

section
/-! SUPPORT. Timers and keypad instructions (spec/45_timers_keys.md): the key a register value selects as a number, and the
frames of a write of a timer and of the key latch; then the instructions, each by the write it makes. -/

namespace Sys2Proof.Machine

variable {s t : State} {regs : List Nibble} {parts : List Part}

/-! ## The selected key (R260) -/

theorem keyOf_eq_ofNat (b : Byte) : keyOf b = BitVec.ofNat 4 (b.toNat % 16) := by
  apply BitVec.eq_of_toNat_eq
  simp [keyOf]

/-! ## Frames of a timer write and of a latch write -/

theorem KeepsAllBut.setDelay (h : KeepsAllBut regs parts s t) (b : Byte) (allowed : .delay ∈ parts) :
    KeepsAllBut regs parts s (t.setDelay b) := by
  obtain ⟨registers, same⟩ := h
  refine ⟨registers, fun p other => ?_⟩
  cases p with
  | delay => exact absurd allowed other
  | _ => exact same _ other

theorem KeepsAllBut.setSound (h : KeepsAllBut regs parts s t) (b : Byte) (allowed : .sound ∈ parts) :
    KeepsAllBut regs parts s (t.setSound b) := by
  obtain ⟨registers, same⟩ := h
  refine ⟨registers, fun p other => ?_⟩
  cases p with
  | sound => exact absurd allowed other
  | _ => exact same _ other

theorem KeepsAllBut.setLastkey (h : KeepsAllBut regs parts s t) (k : Option Nibble) (allowed : .lastkey ∈ parts) :
    KeepsAllBut regs parts s (t.setLastkey k) := by
  obtain ⟨registers, same⟩ := h
  refine ⟨registers, fun p other => ?_⟩
  cases p with
  | lastkey => exact absurd allowed other
  | _ => exact same _ other

/-! ## The instructions -/

/-- Settles O36: each listed instruction is a skip under the level of the selected key. -/
theorem keySkips : Obligations.KeySkips := by
  intro hires x s p listed
  suffices skips : 0xE#4 ++ x ++ p.2.1 = encode p.1 ∧ p.1.wellFormed hires = true ∧
      exec p.1 s = .next (s.skipIf p.2.2) by
    obtain ⟨word, wf, executed⟩ := skips
    obtain ⟨-, frame⟩ := skipIf_effect s p.2.2
    exact ⟨word ▸ decodeInvertsEncode hires p.1 wf, _, executed, congrArg State.pc (s.skipIf_eq p.2.2), frame⟩
  rw [← keyOf_eq_ofNat] at listed
  simp only [List.mem_cons, List.not_mem_nil, or_false] at listed
  obtain rfl | rfl := listed <;> exact ⟨rfl, rfl, rfl⟩

/-- Settles O37: a read of `delay` writes the register, and a load writes the one timer. -/
theorem timerMoves : Obligations.TimerMoves := fun hires x s =>
  ⟨decodeInvertsEncode hires (.ldVxDt x) rfl, decodeInvertsEncode hires (.ldDtVx x) rfl,
    decodeInvertsEncode hires (.ldStVx x) rfl,
    ⟨_, rfl, s.getV_setV_same x _, rfl, keepsAllBut_setV s x _⟩,
    ⟨_, rfl, rfl, rfl, (KeepsAllBut.refl s).setDelay _ (by simp)⟩,
    ⟨_, rfl, rfl, decide_eq_true_iff, rfl, (KeepsAllBut.refl s).setSound _ (by simp)⟩⟩

/-- Settles O38: the two equations of the instruction, one with a latched key and one without. -/
theorem waitForKey : Obligations.WaitForKey := fun hires x s =>
  ⟨decodeInvertsEncode hires (.ldVxK x) rfl,
    fun k latched =>
      ⟨_, exec_ldVxK_latched x latched, (congrArg BitVec.toNat (s.getV_setV_same x _)).trans (keyByte_toNat k), rfl, rfl,
        (keepsAllBut_setV s x _ |>.mono (by simp)).setLastkey none (by simp)⟩,
    fun unlatched =>
      ⟨_, exec_ldVxK_unlatched x unlatched, rfl, rfl, ((KeepsAllBut.refl s).setPc _).setFlags _ (by simp)⟩⟩

end Sys2Proof.Machine
end

section
/-! SUPPORT. Faults (spec/60_exceptions.md R280-R286): the ways an instruction word faults, said once, and the tick that
ends in a fault. -/

namespace Sys2Proof.Machine

variable {s t : State} {i : Instr} {d : Decoded} {f : Fault} {hires : Bool}

/-! ## The three fault conditions (R281-R283) -/

/-- `RaisesFault s d f`: executing `d` in the state `s` after the fetch raises the fault `f`. A constructor per condition,
each with the instruction word and the fetch address that the fault names (R280). -/
inductive RaisesFault (s : State) : Decoded → Fault → Prop where
  | unimplemented (w : Word) : RaisesFault s (.unimplemented w) (.unimplemented w s.fetchAddr)
  | callOnFullStack (nnn : Addr) (full : s.depth = Config.stackDepth) :
      RaisesFault s (.instr (.call nnn)) (.stackOverflow (encode (.call nnn)) s.fetchAddr)
  | retOnEmptyStack (empty : s.sp = Config.spBase) :
      RaisesFault s (.instr .ret) (.stackUnderflow (encode .ret) s.fetchAddr)

/-- Only CALL and RET can fault, each in its one way (R284). -/
theorem raisesFault_of_exec (h : exec i s = .fault f) : RaisesFault s (.instr i) f := by
  cases i with
  | call nnn =>
    by_cases full : s.depth = Config.stackDepth
    · rw [exec_call_full nnn full] at h
      cases h
      exact .callOnFullStack nnn full
    · rw [exec_call_room nnn full] at h
      cases h
  | ret =>
    by_cases empty : s.sp = Config.spBase
    · rw [exec_ret_empty empty] at h
      cases h
      exact .retOnEmptyStack empty
    · rw [exec_ret_entry empty] at h
      cases h
  | jp nnn =>
    rw [exec_jp] at h
    cases h
  | ldVxK x =>
    cases lastkey : s.lastkey with
    | none =>
      rw [exec_ldVxK_unlatched x lastkey] at h
      cases h
    | some k =>
      rw [exec_ldVxK_latched x lastkey] at h
      cases h
  | _ => cases h

theorem execDecoded_fault_iff : execDecoded d s = .fault f ↔ RaisesFault s d f := by
  constructor
  · intro h
    cases d with
    | unimplemented w =>
      cases h
      exact .unimplemented w
    | instr i => exact raisesFault_of_exec h
  · intro h
    cases h with
    | unimplemented w => rfl
    | callOnFullStack nnn full => exact exec_call_full nnn full
    | retOnEmptyStack empty => exact exec_ret_empty empty

/-- Some fault is raised exactly under one of the three conditions. -/
theorem exists_raisesFault_iff :
    (∃ f, RaisesFault s d f) ↔
      (∃ w, d = .unimplemented w) ∨ (∃ nnn, d = .instr (.call nnn) ∧ s.depth = Config.stackDepth) ∨
        (d = .instr .ret ∧ s.sp = Config.spBase) := by
  constructor
  · rintro ⟨f, h⟩
    cases h with
    | unimplemented w => exact .inl ⟨w, rfl⟩
    | callOnFullStack nnn full => exact .inr (.inl ⟨nnn, rfl, full⟩)
    | retOnEmptyStack empty => exact .inr (.inr ⟨rfl, empty⟩)
  · rintro (⟨w, rfl⟩ | ⟨nnn, rfl, full⟩ | ⟨rfl, empty⟩)
    · exact ⟨_, .unimplemented w⟩
    · exact ⟨_, .callOnFullStack nnn full⟩
    · exact ⟨_, .retOnEmptyStack empty⟩

/-- What a word raises names the word itself, as the encoder inverts the decoder. -/
theorem RaisesFault.names_word {w : Word} (h : RaisesFault s (decode hires w) f) :
    f = .unimplemented w s.fetchAddr ∨ f = .stackOverflow w s.fetchAddr ∨ f = .stackUnderflow w s.fetchAddr := by
  generalize decoded : decode hires w = d at h
  cases h with
  | unimplemented u =>
    obtain ⟨rfl, -⟩ := decode_eq_unimplemented.mp decoded
    exact .inl rfl
  | callOnFullStack nnn _ =>
    obtain ⟨rfl, -⟩ := encodeInvertsDecode hires w _ decoded
    exact .inr (.inl rfl)
  | retOnEmptyStack _ =>
    obtain ⟨rfl, -⟩ := encodeInvertsDecode hires w _ decoded
    exact .inr (.inr rfl)

/-! ## The tick that faults (R286) -/

theorem tick_fault_iff :
    tick hires s = (.fault f, t) ↔
      s.stalled = false ∧ RaisesFault s.advance (decode hires s.fetch) f ∧ t = s.advance := by
  rw [← execDecoded_fault_iff]
  rcases tick_cases s hires with ⟨stalled, e⟩ | ⟨unstalled, u, executed, e⟩ | ⟨unstalled, g, executed, e⟩ |
    ⟨-, r, refused, -⟩
  · simp [e, stalled]
  · have noFault : retire u ≠ (.fault f, t) := fun h => by
      rcases retire_ran_or_stopped u with ho | ⟨c, p, ho⟩ <;> simp [h] at ho
    simp [e, executed, noFault]
  · simp [e, unstalled, executed, eq_comm]
  · exact absurd refused (execDecoded_ne_refused _ _ _)

theorem tick_faults_iff (unstalled : s.stalled = false) :
    (∃ f, (tick hires s).1 = .fault f) ↔ ∃ f, RaisesFault s.advance (decode hires s.fetch) f := by
  refine exists_congr fun f => ⟨fun ticked => ?_, fun raised => ?_⟩
  · obtain ⟨-, raised, -⟩ := tick_fault_iff.mp (Prod.ext ticked rfl)
    exact raised
  · exact congrArg Prod.fst (tick_fault_iff.mpr ⟨unstalled, raised, rfl⟩)

theorem tick_ne_refused (s : State) (r : Refusal) : (tick hires s).1 ≠ .refused r := by
  rcases tick_cases s hires with ⟨-, e⟩ | ⟨-, u, -, e⟩ | ⟨-, g, -, e⟩ | ⟨-, q, refused, -⟩
  · simp [e]
  · rcases retire_ran_or_stopped u with ho | ⟨c, p, ho⟩ <;> simp [e, ho]
  · simp [e]
  · exact absurd refused (execDecoded_ne_refused _ _ _)

/-- Settles O12: a faulting tick leaves the state after the fetch, and what its word raises names that word. -/
theorem faultsArePrecise : Obligations.FaultsArePrecise := by
  intro hires s t f ticked
  obtain ⟨-, raised, rfl⟩ := tick_fault_iff.mp ticked
  have named := raised.names_word
  rw [State.advance_fetchAddr] at named
  exact ⟨rfl, named⟩

/-- Settles O13: the fetch touches neither `sp` nor the stack's depth, so the conditions after it are those before it. -/
theorem faultsAriseExactlyHere : Obligations.FaultsAriseExactlyHere := fun _ s pause keypause drawWait =>
  ⟨(tick_faults_iff (unstalled_iff.mpr ⟨pause, keypause, drawWait⟩)).trans exists_raisesFault_iff, tick_ne_refused s⟩

end Sys2Proof.Machine
end

section
/-! SUPPORT. The host's timers, keys and breakpoints (spec/60_exceptions.md R300-R306): one equation per operation, from
which its values and its frame follow. -/

namespace Sys2Proof.Machine

variable {s t : State} {regs : List Nibble} {parts : List Part}

/-! ## Timers (R300) -/

/-- The decrement of a timer saturates at 0 as natural subtraction does. -/
theorem toNat_timer_decrement (b : Byte) : (if b = 0 then 0 else b - 1).toNat = b.toNat - 1 := by
  split
  case isTrue zero => simp [zero]
  case isFalse nonzero => bv_omega

/-- Settles O53: each of the three writes is in the frame, and none of them asks what state the engine is in. -/
theorem timerTick : Obligations.TimerTick := fun s =>
  ⟨toNat_timer_decrement s.delay, toNat_timer_decrement s.sound, rfl, rfl,
    (((KeepsAllBut.refl s).setDelay _ (by simp)).setSound _ (by simp)).setFlags _ (by simp)⟩

/-! ## Keys (R303, R304) -/

theorem KeepsAllBut.setKeys (h : KeepsAllBut regs parts s t) (k : Vector Bool 16) (allowed : .keys ∈ parts) :
    KeepsAllBut regs parts s (t.setKeys k) := by
  obtain ⟨registers, same⟩ := h
  refine ⟨registers, fun p other => ?_⟩
  cases p with
  | keys => exact absurd allowed other
  | _ => exact same _ other

theorem eq_ofNat_iff {q : Nibble} {k : Nat} (isKey : k < 16) : q = BitVec.ofNat 4 k ↔ q.toNat = k := by
  rw [← BitVec.toNat_inj, BitVec.toNat_ofNat, Nat.mod_eq_of_lt isKey]

/-- The keypad after a write of the key with number `k`. -/
theorem getKey_setKey_ofNat {k : Nat} (isKey : k < 16) (b : Bool) (q : Nibble) :
    (s.setKey (BitVec.ofNat 4 k) b).getKey q = if q.toNat = k then b else s.getKey q := by
  simp only [State.getKey_setKey, eq_ofNat_iff isKey]

theorem hostPress_key {k : Nat} (isKey : k < 16) : hostPress k s = s.setKey (BitVec.ofNat 4 k) true := if_pos isKey

theorem hostPress_not_key {k : Nat} (notKey : 16 ≤ k) : hostPress k s = s := if_neg (Nat.not_lt.mpr notKey)

theorem hostRelease_not_key {k : Nat} (notKey : 16 ≤ k) : hostRelease k s = s := if_neg (Nat.not_lt.mpr notKey)

/-- A release in and out of KeyWait: out of it the latch keeps its value and there is no wait to end. -/
theorem hostRelease_key {k : Nat} (isKey : k < 16) :
    hostRelease k s =
      ((s.setKey (BitVec.ofNat 4 k) false).setLastkey
        (if s.flags.keypause then some (BitVec.ofNat 4 k) else s.lastkey)).setKeypause false := by
  cases waiting : s.flags.keypause with
  | true => exact hostRelease_waiting isKey waiting
  | false =>
    have noWait : s.setKeypause false = s := by rw [← waiting]; rfl
    calc hostRelease k s
        = s.setKey (BitVec.ofNat 4 k) false := by simp [hostRelease, isKey, waiting]
      _ = (s.setKeypause false).setKey (BitVec.ofNat 4 k) false := by rw [noWait]

/-- Settles O54: the equations of a press and of a release. -/
theorem keyEvents : Obligations.KeyEvents := by
  refine fun k s => ⟨fun notKey => ⟨hostPress_not_key notKey, hostRelease_not_key notKey⟩, fun isKey => ?_⟩
  rw [hostPress_key isKey, hostRelease_key isKey]
  refine ⟨fun q => ?_, rfl, (KeepsAllBut.refl s).setKeys _ (by simp), fun q => ?_, rfl, rfl, rfl,
    (((KeepsAllBut.refl s).setKeys _ (by simp)).setLastkey _ (by simp)).setFlags _ (by simp)⟩
  · rw [getKey_setKey_ofNat isKey]
    split <;> simp [*]
  · rw [State.setKeypause_getKey, State.setLastkey_getKey, getKey_setKey_ofNat isKey]
    split <;> simp [*]

/-! ## Breakpoints (R306) -/

theorem insertAddr_idem (a : Word) (l : List Word) : insertAddr a (insertAddr a l) = insertAddr a l := by
  induction l with
  | nil => simp [insertAddr]
  | cons b l ih =>
    by_cases before : a < b
    · simp [insertAddr, before]
    · by_cases same : a = b
      · simp [insertAddr, same]
      · simp [insertAddr, before, same, ih]

/-- Settles O55: the list operations have the members of a set operation, and a rising list names no address twice. -/
theorem breakpointSet : Obligations.BreakpointSet := fun a s =>
  ⟨fun _ => mem_insertAddr, fun b => by simp [hostUnsetBreak, and_comm],
    congrArg s.setBreakpoints (insertAddr_idem a s.breakpoints),
    congrArg s.setBreakpoints (by simp [hostUnsetBreak, List.filter_filter]),
    fun rising => (sorted_insertAddr rising).imp BitVec.ne_of_lt⟩

end Sys2Proof.Machine
end

section
/-! SUPPORT. Resets and the boot (spec/70_reset_and_hazards.md R320-R325): which fields the region operations leave, what a
region loaded over zero bytes reads as, and the memory that a hard reset and the boot build from these. -/

namespace Sys2Proof.Machine

variable {s : State} {tag : RegionTag} {r prog screen : ByteRange}

/-! ## The soft reset (R320) -/

/-- Settles O57: each of the five writes is in the frame. -/
theorem softResetState : Obligations.SoftReset := fun s =>
  ⟨rfl, rfl, rfl, rfl,
    (((((KeepsAllBut.refl s).setPc _).setSp _ (by simp)).setFlags _ (by simp)).setFlags _ (by simp)).setLastkey _
      (by simp)⟩

/-! ## Regions and storage under the region operations (R61, R68, R69) -/

@[simp] theorem State.setRegion_regions (s : State) (tag : RegionTag) (r : ByteRange) :
    (s.setRegion tag r).regions = s.regions.put tag r := by rw [State.setRegion_eq]; rfl

@[simp] theorem State.setRegion_memlen (s : State) (tag : RegionTag) (r : ByteRange) :
    (s.setRegion tag r).memlen = max s.memlen r.stop := by rw [State.setRegion_eq]; rfl

@[simp] theorem State.clearRegion_regions (s : State) (tag : RegionTag) : (s.clearRegion tag).regions = s.regions := by
  rw [State.clearRegion_eq]; rfl

@[simp] theorem State.clearRegion_memlen (s : State) (tag : RegionTag) : (s.clearRegion tag).memlen = s.memlen := by
  rw [State.clearRegion_eq]; rfl

@[simp] theorem State.loadRegion_regions (s : State) (tag : RegionTag) (data : List Byte) :
    (s.loadRegion tag data).regions = s.regions := by rw [State.loadRegion_eq]; rfl

@[simp] theorem State.loadRegion_memlen (s : State) (tag : RegionTag) (data : List Byte) :
    (s.loadRegion tag data).memlen = s.memlen := by rw [State.loadRegion_eq]; rfl

/-- Data loaded over zero bytes fill the whole region: the data truncated to it, then 0. -/
theorem State.loadRegion_readByte_of_zero (data : List Byte) (declared : s.regions.get tag = some r)
    (covered : r.stop ≤ s.memlen) (zero : ∀ a, r.start ≤ a → a < r.stop → s.readByte a = 0) (a : Nat) :
    (s.loadRegion tag data).readByte a =
      if r.start ≤ a ∧ a < r.stop then data.getD (a - r.start) 0 else s.readByte a := by
  rw [s.loadRegion_readByte data declared]
  by_cases inside : r.start ≤ a ∧ a < r.stop
  · obtain ⟨first, last⟩ := inside
    by_cases filled : a < r.start + data.length
    · rw [if_pos ⟨first, last, filled, by omega⟩, if_pos ⟨first, last⟩]
    · rw [if_neg (by omega), if_pos ⟨first, last⟩, zero a first last, List.getD_eq_default _ _ (by omega)]
  · rw [if_neg (by omega), if_neg inside]

/-! ## The constructed CPU (R50) -/

@[simp] theorem construct_regions (bps : List Word) (flags : Flags) (s : State) :
    (construct bps flags s).regions = s.regions := rfl

@[simp] theorem construct_memlen (bps : List Word) (flags : Flags) (s : State) :
    (construct bps flags s).memlen = s.memlen := rfl

@[simp] theorem construct_getV (bps : List Word) (flags : Flags) (s : State) (x : Nibble) :
    (construct bps flags s).getV x = 0 := by simp [State.getV, construct]

@[simp] theorem construct_getKey (bps : List Word) (flags : Flags) (s : State) (k : Nibble) :
    (construct bps flags s).getKey k = false := by simp [State.getKey, construct]

@[simp] theorem construct_readByte (bps : List Word) (flags : Flags) (s : State) (a : Nat) :
    (construct bps flags s).readByte a = s.readByte a := rfl

/-! ## The hard reset (R321) -/

/-- A hard reset is a construction and an update of memory. -/
theorem hardReset_eq (rom : List Byte) (s : State) :
    hardReset rom s = (construct s.breakpoints s.flags s).setMem (hardReset rom s).mem := by
  unfold hardReset
  rw [State.clearRegion_eq, State.loadRegion_eq, State.clearRegion_eq]; rfl

theorem hardReset_readByte (rom : List Byte) (program : s.regions.get .program = some prog)
    (display : s.regions.get .screen = some screen) (covered : prog.stop ≤ s.memlen) (a : Nat) :
    (hardReset rom s).readByte a =
      if screen.start ≤ a ∧ a < screen.stop then 0
      else if prog.start ≤ a ∧ a < prog.stop then rom.getD (a - prog.start) 0
      else s.readByte a := by
  have cleared (x : Nat) : ((construct s.breakpoints s.flags s).clearRegion .program).readByte x =
      if prog.start ≤ x ∧ x < prog.stop then 0 else s.readByte x :=
    (construct s.breakpoints s.flags s).clearRegion_readByte program x
  have loaded : (((construct s.breakpoints s.flags s).clearRegion .program).loadRegion .program rom).readByte a =
      if prog.start ≤ a ∧ a < prog.stop then rom.getD (a - prog.start) 0 else s.readByte a := by
    rw [State.loadRegion_readByte_of_zero rom (by simpa using program) (by simpa using covered)
      fun x first last => (cleared x).trans (if_pos ⟨first, last⟩), cleared]
    split <;> rfl
  rw [hardReset, State.clearRegion_readByte _ (by simpa using display), loaded]

/-- Settles O58: the fields are those of the constructed CPU, and the bytes those of the three region writes. -/
theorem hardResetState : Obligations.HardReset := by
  intro rom s prog screen program display covered
  have bytes := hardReset_readByte rom program display (covered .program prog program)
  rw [hardReset_eq] at bytes ⊢
  exact ⟨by simp, rfl, rfl, rfl, rfl, rfl, by simp, rfl, rfl, rfl, fun _ => mem_sortAddrs, rfl, rfl, bytes⟩

/-! ## The boot (R323-R325) -/

theorem declareRegions_regions (drawMode : Bool) :
    (declareRegions drawMode s).regions =
      ⟨some ⟨0x50, 0xA0⟩, some ⟨0x200, 0xEE0⟩, some (screenRange drawMode), some ⟨0xEE0, 0xF00⟩⟩ := by
  simp only [declareRegions, State.setRegion_regions]; rfl

theorem screenRange_booted (drawMode : Bool) : screenRange drawMode = ⟨0xF00, if drawMode then 0x1300 else 0x1000⟩ := by
  cases drawMode <;> rfl

theorem declareRegions_memlen (drawMode : Bool) :
    (declareRegions drawMode unbuilt).memlen = if drawMode then 0x1300 else 0x1000 := by
  simp only [declareRegions, State.setRegion_memlen]
  cases drawMode <;> rfl

theorem declareRegions_readByte (drawMode : Bool) (a : Nat) : (declareRegions drawMode unbuilt).readByte a = 0 := by
  simp only [declareRegions, State.setRegion_readByte]
  exact State.readByte_past_end _ (Nat.zero_le a)

/-- The bus that the boot builds before it pokes the test word: the regions, the font and the ROM. -/
def bootBus (rom : List Byte) (drawMode : Bool) : State :=
  ((declareRegions drawMode unbuilt).loadRegion .charset font).loadRegion .program rom

theorem bootBus_regions (rom : List Byte) (drawMode : Bool) :
    (bootBus rom drawMode).regions =
      ⟨some ⟨0x50, 0xA0⟩, some ⟨0x200, 0xEE0⟩, some ⟨0xF00, if drawMode then 0x1300 else 0x1000⟩,
        some ⟨0xEE0, 0xF00⟩⟩ := by
  rw [bootBus, State.loadRegion_regions, State.loadRegion_regions, declareRegions_regions, screenRange_booted]

theorem bootBus_memlen (rom : List Byte) (drawMode : Bool) :
    (bootBus rom drawMode).memlen = if drawMode then 0x1300 else 0x1000 := by
  rw [bootBus, State.loadRegion_memlen, State.loadRegion_memlen, declareRegions_memlen]

theorem bootBus_readByte (rom : List Byte) (drawMode : Bool) (a : Nat) :
    (bootBus rom drawMode).readByte a =
      if 0x200 ≤ a ∧ a < 0xEE0 then rom.getD (a - 0x200) 0
      else if 0x50 ≤ a ∧ a < 0xA0 then font.getD (a - 0x50) 0
      else 0 := by
  have large : 0x1000 ≤ (declareRegions drawMode unbuilt).memlen := by
    rw [declareRegions_memlen]; cases drawMode <;> decide
  have glyphs (x : Nat) : ((declareRegions drawMode unbuilt).loadRegion .charset font).readByte x =
      if 0x50 ≤ x ∧ x < 0xA0 then font.getD (x - 0x50) 0 else 0 := by
    rw [State.loadRegion_readByte_of_zero (r := ⟨0x50, 0xA0⟩) font (by rw [declareRegions_regions]; rfl)
      (le_trans (by decide) large) (fun y _ _ => declareRegions_readByte drawMode y), declareRegions_readByte]
  rw [bootBus, State.loadRegion_readByte_of_zero (r := ⟨0x200, 0xEE0⟩) rom
    (by rw [State.loadRegion_regions, declareRegions_regions]; rfl)
    (by rw [State.loadRegion_memlen]; exact le_trans (by decide) large)
    (fun y (first : 0x200 ≤ y) _ => (glyphs y).trans (if_neg (by omega))), glyphs]

/-- The poke writes the two bytes below the Program region, the more significant one first (R325). -/
theorem pokeTestWord_readByte (testWord : Option Word) (stored : 0x200 ≤ s.memlen) (a : Nat) :
    (pokeTestWord testWord s).readByte a =
      if a = 0x1FE then testWord.elim (s.readByte 0x1FE) highByte
      else if a = 0x1FF then testWord.elim (s.readByte 0x1FF) lowByte
      else s.readByte a := by
  cases testWord with
  | none =>
    change s.readByte a = _
    split_ifs <;> simp [*]
  | some w => exact (s.readByte_writeWord 0x1FE a w).trans (if_pos stored)

/-- The boot is a construction on the built bus with an update of memory. -/
theorem boot_eq (rom : List Byte) (testWord : Option Word) (bps : List Word) (flags : Flags) :
    boot rom testWord bps flags =
      (construct bps flags (bootBus rom flags.drawMode)).setMem (boot rom testWord bps flags).mem :=
  congrArg (construct bps flags) (pokeTestWord_eq testWord (bootBus rom flags.drawMode))

theorem boot_readByte (rom : List Byte) (testWord : Option Word) (bps : List Word) (flags : Flags) (a : Nat) :
    (boot rom testWord bps flags).readByte a =
      if 0x50 ≤ a ∧ a < 0xA0 then font.getD (a - 0x50) 0
      else if a = 0x1FE then testWord.elim 0 highByte
      else if a = 0x1FF then testWord.elim 0 lowByte
      else if 0x200 ≤ a ∧ a < 0xEE0 then rom.getD (a - 0x200) 0
      else 0 := by
  have stored : 0x200 ≤ (bootBus rom flags.drawMode).memlen := by
    rw [bootBus_memlen]; cases flags.drawMode <;> decide
  have unpoked (x : Nat) (below : x = 0x1FE ∨ x = 0x1FF) : (bootBus rom flags.drawMode).readByte x = 0 := by
    rw [bootBus_readByte, if_neg (by omega), if_neg (by omega)]
  refine (pokeTestWord_readByte testWord stored a).trans ?_
  rw [unpoked _ (.inl rfl), unpoked _ (.inr rfl), bootBus_readByte]
  by_cases glyph : 0x50 ≤ a ∧ a < 0xA0
  · rw [if_neg (by omega), if_neg (by omega), if_neg (by omega), if_pos glyph, if_pos glyph]
  · simp only [if_neg glyph]

/-- Settles O59: the fields are those of the constructed CPU and of the built bus, and the bytes those of the two loads
and the poke. -/
theorem bootState : Obligations.BootState := by
  intro rom testWord bps flags
  have bytes := boot_readByte rom testWord bps flags
  rw [boot_eq] at bytes ⊢
  exact ⟨bootBus_regions rom flags.drawMode, bootBus_memlen rom flags.drawMode, rfl, fun _ => mem_sortAddrs,
    by simp, rfl, rfl, rfl, rfl, rfl, by simp, rfl, rfl, bytes⟩

end Sys2Proof.Machine
end
